-- ==== Sys2Proof/Word.lean ====
section
/-! DEFINITION. The plain types every other file is written over: the byte of an operation word, the
scalar type `Num` of NUMERICS (00_scope.md R8) and the complex sample (R13, 30_encoding.md R102 format CPX).
The spec's integer registers of a stated width are `BitVec`s, its counters are `Nat`s, and its reals are the
plain data of `Scalar` (log entry 1). -/

namespace Sys2Proof

/-- One byte of an operation word (Decode.lean). -/
abbrev Byte := BitVec 8

/-- The scalar type `Num` of NUMERICS (R8): a real number as plain data, a rational one as itself and an irrational one
as its number in a fixed listing. `Scalar.val` (Machine/Reals.lean) is the real it stands for; two scalars are equal data
exactly when they are equal reals (`Scalar.val_injective`).
DESIGN CHOICE (log entry 1): the reals the listing names. -/
inductive Scalar
  | rat (q : Rat)
  | irr (n : Nat)
deriving DecidableEq, Repr, Inhabited

/-- Format CPX (R102, R72(d)): one complex sample, the real part and the imaginary part together. -/
structure Cpx where
  re : Scalar
  im : Scalar
deriving DecidableEq, Repr

/-- The complex number 0, the reset value of every complex delay line (R48). -/
def Cpx.zero : Cpx := ⟨.rat 0, .rat 0⟩

end Sys2Proof
end

