-- ==== Sys2Proof/Syntax.lean ====
section
/-! DEFINITION. What the block's ports carry and what it can be asked to do: the two channel instances
(48_system_ops.md R324), the token and record formats (30_encoding.md R102 to R108, 10_state.md R23) and `Instr`,
one constructor for each of the 35 operations of 30_encoding.md R114 (spec/opcode_table.json).

An operation is selected by the port its token stands on and the token's tag bits (R100), so a constructor carries
which instance fires and the bits of the token; a token's numbers (`Num`) have no bit encoding in the spec and stay
on the port, in State (log entry 5). -/

namespace Sys2Proof

/-- The two channel instances of the dual-channel receiver (R324): designators "A" and "B". -/
inductive Chan
  | a
  | b
deriving DecidableEq, Repr

/-- Whom a host signal is given to (R325): one instance, or the receiver (both at once). -/
inductive Target
  | chan (c : Chan)
  | receiver
deriving DecidableEq, Repr

/-- The units of R1 that take tokens, and `drain`, the agent of the internal operation SYS.DRAINED (R319). -/
inductive UnitId
  | cs | costas | rsmp | mf | ilv | vit
  | qd | rrc | cr | tcorr | dfe | slice
  | diff | inv | corr | gate | dstf | frm | out
  | drain
deriving DecidableEq, Repr

/-- Format T3, a tagged bit (R104): `f` bit 2, `p` bit 1, `b` bit 0. -/
structure T3 where
  f : Bool
  p : Bool
  b : Bool
deriving DecidableEq, Repr

/-- Format FT2, a frame token (R105): BIT(b), SOF, EOF. -/
inductive FT2
  | bit (b : Bool)
  | sof
  | eof
deriving DecidableEq, Repr

/-- Format RLH (R102, R220): a real value and the training-hit bit. -/
structure RLH where
  v : Scalar
  hit : Bool
deriving DecidableEq, Repr

/-- Format TAG (R106): the bit position of the completed match, a value of `FD.pos`, `POS_W` bits wide (log entry 8), and
the pattern's name, 0 (false) = preamble, 1 (true) = flag. -/
structure Tag where
  pos : Nat
  name : Bool
deriving DecidableEq, Repr

/-- Format REC, the output record (R108), its fields in the order in which they are serialised. -/
structure Rec where
  designator : BitVec 8
  crcValid : Bool
  nbits : BitVec 16
  payload : List Bool
  hasCoords : Bool
  lat : BitVec 32
  lon : BitVec 32
  verbosity : BitVec 8
deriving DecidableEq, Repr

/-- Format EV, an event record on DIAG (R107). -/
structure Event where
  code : BitVec 4
  designator : BitVec 8
  opid : BitVec 8
  info : BitVec 64
deriving DecidableEq, Repr

/-- Format CFGREC and the registers `CFG.*` (R23): every field with its width; `CFG.timing` is the record
`gainMu`, `gainOmega`, `omegaRel`; `centerOffset` is signed (two's complement). -/
structure CfgRec where
  centerOffset : BitVec 32
  sampleRate : BitVec 32
  decim : BitVec 16
  symbolRate : BitVec 16
  fftlen : BitVec 16
  coherent : Bool
  designator : BitVec 8
  gainMu : Scalar
  gainOmega : Scalar
  omegaRel : Scalar
  verbosity : BitVec 8
  hasCoords : Bool
  lat : BitVec 32
  lon : BitVec 32
deriving DecidableEq, Repr

/-- The operations of R114, one constructor per row of spec/opcode_table.json, in the table's order. -/
inductive Instr
  | sysReset (t : Target)
  | cfgLoad (c : Chan)
  | sysStart (t : Target)
  | sysStop (t : Target)
  | srcSample (c : Chan)
  | srcEos (t : Target)
  | sysDrained (c : Chan)
  | qPop
  | qEmpty
  | outPush (c : Chan)
  | csStep (c : Chan)
  | costasStep (c : Chan)
  | rsmpStep (c : Chan)
  | mfStep (c : Chan)
  | ilvStep (c : Chan)
  | vitStep (c : Chan)
  | qdStep (c : Chan)
  | rrcStep (c : Chan)
  | crStep (c : Chan)
  | tcorrStep (c : Chan)
  | dfeStep (c : Chan)
  | dfeRetrain (c : Chan)
  | sliceStep (c : Chan)
  | diffStep (c : Chan) (b : Bool)
  | invStep (c : Chan) (b : Bool)
  | corrStep (c : Chan) (b : Bool)
  | gateData (c : Chan) (b : Bool)
  | gatePre (c : Chan) (b : Bool)
  | gateFlag (c : Chan) (p : Bool) (b : Bool)
  | dstfBit (c : Chan) (b : Bool)
  | dstfSof (c : Chan)
  | dstfEof (c : Chan)
  | frmBit (c : Chan) (b : Bool)
  | frmSof (c : Chan)
  | frmEof (c : Chan)
deriving DecidableEq, Repr

/-- The OPID of an operation (R114): a label used by event records (R107), stored nowhere in the hardware. -/
def Instr.opid : Instr → BitVec 8
  | .sysReset _ => 0x01
  | .cfgLoad _ => 0x02
  | .sysStart _ => 0x03
  | .sysStop _ => 0x04
  | .srcSample _ => 0x05
  | .srcEos _ => 0x06
  | .sysDrained _ => 0x07
  | .qPop => 0x08
  | .qEmpty => 0x09
  | .outPush _ => 0x0A
  | .csStep _ => 0x10
  | .costasStep _ => 0x11
  | .rsmpStep _ => 0x12
  | .mfStep _ => 0x13
  | .ilvStep _ => 0x14
  | .vitStep _ => 0x15
  | .qdStep _ => 0x18
  | .rrcStep _ => 0x19
  | .crStep _ => 0x1A
  | .tcorrStep _ => 0x1B
  | .dfeStep _ => 0x1C
  | .dfeRetrain _ => 0x1D
  | .sliceStep _ => 0x1E
  | .diffStep _ _ => 0x20
  | .invStep _ _ => 0x21
  | .corrStep _ _ => 0x22
  | .gateData _ _ => 0x23
  | .gatePre _ _ => 0x24
  | .gateFlag _ _ _ => 0x25
  | .dstfBit _ _ => 0x26
  | .dstfSof _ => 0x27
  | .dstfEof _ => 0x28
  | .frmBit _ _ => 0x29
  | .frmSof _ => 0x2A
  | .frmEof _ => 0x2B

end Sys2Proof
end

