-- ==== Sys2Proof/Config.lean ====
section
/-! DEFINITION. What an implementation fixes: the parameters of 00_scope.md R7 as one record of plain data
(`Params`), the values the source fixes (R5), and the constants with no body that stand for what the spec leaves
to the implementation: real numbers of any value, the rounding of a finite NUMERICS (R8) and a phase detector other
than the reference one (41_demod_coherent.md R153).

The record of parameters is carried in State as a constant field of each instance, which nothing writes, so that a
statement about every state is a statement about every choice of parameters (log entry 3). -/

namespace Sys2Proof

/-- `RS`, symbols per second (R5: "symbols/sec (fixed at 9600)"). -/
def Config.symbolRate : Nat := 9600

/-- Real numbers of any value, as many as may be wanted: the values of real parameters and of samples that no expression
over rationals and `pi` gives. No body (log entry 1). -/
opaque Config.givenReal : Nat → ℝ

/-- The rounding of a finite NUMERICS, one for each format (R8: "the exact value passed through `NUMERICS`'s own
rounding"). No body (log entry 2). Every rounded value is a number: what an overflow gives is the format's own value, free
like every other, and a format has no infinity and no not-a-number (R8, 60_exceptions.md R356; DESIGN CHOICE, log
entry 34). -/
opaque Config.finiteRound : Nat → Scalar → Scalar

/-- A phase detector that is not the reference one, one for each number (R153: `PD` is a total function the instance
chooses). No body (log entry 7). -/
opaque Config.customPd : Nat → Cpx → Scalar

/-- Which NUMERICS the instance has (R7, R8): exact reals, or a finite format with a rounding of its own. -/
inductive Numerics
  | exact
  | finite (format : Nat)
deriving DecidableEq, Repr

/-- The parameter `PD` (R7, R153). -/
inductive PhaseDetector
  | reference
  | custom (k : Nat)
deriving DecidableEq, Repr

/-- The parameter `QD_GAIN` (R7, R212): the reference value `SPS/(pi/2)`, or a stated real. -/
inductive QdGain
  | reference
  | value (g : Scalar)
deriving DecidableEq, Repr

/-- A training symbol of `DFE_TRAIN_REF` (R222): "each +1 or -1". -/
inductive Sign
  | plus
  | minus
deriving DecidableEq, Repr

/-- The parameter `FSM` (R191): `NI` = 2 is the pair, `ns[s]` is `(NS[s][0], NS[s][1])`, `os[s]` is
`(OS[s][0], OS[s][1])`. -/
structure Fsm where
  nstates : Nat
  no : Nat
  ns : List (Nat × Nat)
  os : List (Nat × Nat)
deriving DecidableEq, Repr

/-- The parameter `FIFO_DEPTH[port]` (R7, R45), one number for each channel of R101. -/
structure Depths where
  sIn : Nat
  csOut : Nat
  k1 : Nat
  k2 : Nat
  k3 : Nat
  vIn : Nat
  n1 : Nat
  n2 : Nat
  n3 : Nat
  n4 : Nat
  n5 : Nat
  hb : Nat
  l1 : Nat
  l2 : Nat
  tb : Nat
  ft : Nat
  fd2 : Nat
  rOut : Nat
deriving DecidableEq, Repr

/-- The parameters of R7, in its order; `QDEPTH` belongs to the queue (State). `costasWmax = none` is `+inf`. R7 calls
`MF_TAPS` complex and `RRC_TAPS` real and does not say what `RSMP_TAPS` are: they are complex, real ones being a case
of it (DESIGN CHOICE, log entry 33). -/
structure Params where
  numerics : Numerics
  hasNc : Bool
  hasDfe : Bool
  csPeakBias : Scalar
  costasBw : Scalar
  costasDamp : Scalar
  costasWmax : Option Scalar
  pd : PhaseDetector
  q : Nat
  rsmpTaps : List Cpx
  c : Nat
  mfLen : Nat
  mfTaps : List (List Cpx)
  energyFrac : Scalar
  fsm : Fsm
  const : List (List Cpx)
  vitTb : Nat
  qdGain : QdGain
  rrcTaps : List Scalar
  crT0 : Scalar
  dfeNff : Nat
  dfeNfb : Nat
  dfeMuF : Scalar
  dfeMuB : Scalar
  dfeTrainPlen : Nat
  dfeTrainPattern : Nat
  dfeTrainRef : List Sign
  window : Nat
  frameMaxBits : Nat
  posW : Nat
  depth : Depths
  vDiag : Nat
deriving DecidableEq, Repr

/-- `FIFO_DEPTH` = 1 on every port, the reference of R7. -/
def Depths.ones : Depths :=
  { sIn := 1, csOut := 1, k1 := 1, k2 := 1, k3 := 1, vIn := 1, n1 := 1, n2 := 1, n3 := 1, n4 := 1, n5 := 1,
    hb := 1, l1 := 1, l2 := 1, tb := 1, ft := 1, fd2 := 1, rOut := 1 }

/-- The reference trellis of R203: the four-phase rotation. -/
def Fsm.fourPhase : Fsm :=
  { nstates := 4, no := 4, ns := [(3, 1), (0, 2), (1, 3), (2, 0)], os := [(3, 1), (0, 2), (1, 3), (2, 0)] }

/-- The parameter values `State.reset` carries: the "ref" column of R7 and the tables of R203 and of
95_test_vectors.md section 1; DESIGN CHOICE (log entry 4) where R7 gives no reference. -/
def Params.reference : Params :=
  { numerics := .exact
    hasNc := true
    hasDfe := false
    csPeakBias := .rat 0
    costasBw := .rat (1 / 20)
    costasDamp := .rat (7 / 10)
    costasWmax := none
    pd := .reference
    q := 1
    rsmpTaps := [⟨.rat 1, .rat 0⟩]
    c := 1
    mfLen := 1
    mfTaps := [[⟨.rat 1, .rat 0⟩]]
    energyFrac := .rat (99 / 100)
    fsm := Fsm.fourPhase
    const := [[⟨.rat 1, .rat 0⟩], [⟨.rat 0, .rat 1⟩], [⟨.rat (-1), .rat 0⟩], [⟨.rat 0, .rat (-1)⟩]]
    vitTb := 4
    qdGain := .reference
    rrcTaps := [.rat 1]
    crT0 := .rat 0
    dfeNff := 1
    dfeNfb := 0
    dfeMuF := .rat 0
    dfeMuB := .rat 0
    dfeTrainPlen := 1
    dfeTrainPattern := 0
    dfeTrainRef := []
    window := 32
    frameMaxBits := 1024
    posW := 64
    depth := Depths.ones
    vDiag := 1 }

/-- The reference configuration record of 95_test_vectors.md section 1, with the demodulator chosen by `coherent`. -/
def CfgRec.reference (coherent : Bool) : CfgRec :=
  { centerOffset := BitVec.ofInt 32 (-25000)
    sampleRate := 48000
    decim := 1
    symbolRate := 9600
    fftlen := 8
    coherent := coherent
    designator := 0x41
    gainMu := .rat 0
    gainOmega := .rat 0
    omegaRel := .rat 0
    verbosity := 1
    hasCoords := false
    lat := 0
    lon := 0 }

end Sys2Proof
end

