-- ==== Sys2Proof/Machine/Reals.lean ====
section
/-! DEFINITION. Exact reals as plain data (00_scope.md R8: NUMERICS names the scalar type, its total functions and the
constant `pi`; "a model either instantiates it with exact reals (every rule then holds as written) or with a finite
format").

A run starts from countably many reals and applies countably many functions to them, so the reals it can meet are
countably many. `RealTerm` writes them out: rationals, `pi`, the given reals of Config, and what R8's functions make of
these. Each such real has exactly one `Scalar`: a rational is itself, an irrational is its number in the listing
`irrational`. So `Scalar` is a copy of a field of real numbers that R8's functions do not leave, equal scalars are equal
data, and every law of real arithmetic holds of it (`Scalar.val_injective` and the `val_` lemmas below).

Each function computes on rationals wherever the result is rational for a plain reason, and otherwise gives THE scalar
whose value is the real number that R8 and R13 define. No rule of computation finds that scalar: `the` names it. -/

namespace Sys2Proof

/-! ### The reals a run can meet -/

/-- A real number written with the functions of R8. -/
inductive RealTerm
  | rat (q : Rat)
  | pi
  | given (n : Nat)
  | add (a b : RealTerm)
  | neg (a : RealTerm)
  | mul (a b : RealTerm)
  | inv (a : RealTerm)
  | sqrt (a : RealTerm)
  | cos (a : RealTerm)
  | sin (a : RealTerm)
  | arg (a b : RealTerm)
deriving Countable

/-- The real number a term stands for. -/
noncomputable def RealTerm.val : RealTerm → ℝ
  | .rat q => q
  | .pi => Real.pi
  | .given n => Config.givenReal n
  | .add a b => a.val + b.val
  | .neg a => -a.val
  | .mul a b => a.val * b.val
  | .inv a => a.val⁻¹
  | .sqrt a => Real.sqrt a.val
  | .cos a => Real.cos a.val
  | .sin a => Real.sin a.val
  | .arg a b => Complex.arg ⟨a.val, b.val⟩

/-- A real number that a run can meet. -/
def IsNum (x : ℝ) : Prop := ∃ t : RealTerm, t.val = x

/-- The irrational ones can be listed, each once. -/
theorem exists_listing :
    ∃ f : Nat → ℝ, Function.Injective f ∧ Set.range f = Set.range RealTerm.val \ Set.range (fun q : Rat => (q : ℝ)) := by
  have hc : (Set.range RealTerm.val \ Set.range (fun q : Rat => (q : ℝ))).Countable :=
    (Set.countable_range _).mono Set.sdiff_subset
  have hi : (Set.range RealTerm.val \ Set.range (fun q : Rat => (q : ℝ))).Infinite := by
    refine Set.infinite_of_injective_forall_mem (f := fun n : Nat => Real.sqrt 2 + n) (fun a b h => ?_) fun n => ⟨?_, ?_⟩
    · simpa using h
    · exact ⟨.add (.sqrt (.rat 2)) (.rat n), by simp [RealTerm.val]⟩
    · exact fun ⟨q, h⟩ => (irrational_sqrt_two.add_natCast n) ⟨q, h⟩
  have := hc.to_subtype
  have := hi.to_subtype
  obtain ⟨e⟩ := nonempty_equiv_of_countable (α := Nat)
    (β := ↥(Set.range RealTerm.val \ Set.range (fun q : Rat => (q : ℝ))))
  refine ⟨fun n => (e n : ℝ), Subtype.val_injective.comp e.injective, ?_⟩
  ext x
  exact ⟨fun ⟨n, h⟩ => h ▸ (e n).2, fun h => ⟨e.symm ⟨x, h⟩, by simp⟩⟩

/-- The listing (log entry 1). -/
noncomputable def irrational : Nat → ℝ := Classical.choose exists_listing

/-- The real number a scalar stands for. -/
noncomputable def Scalar.val : Scalar → ℝ
  | .rat q => q
  | .irr n => irrational n

@[simp] theorem Scalar.val_rat (q : Rat) : (Scalar.rat q).val = q := rfl

theorem Scalar.val_irr_ne (n : Nat) (q : Rat) : (Scalar.irr n).val ≠ q := fun h => by
  have hm : irrational n ∈ Set.range irrational := ⟨n, rfl⟩
  rw [show Set.range irrational = _ from (Classical.choose_spec exists_listing).2] at hm
  exact hm.2 ⟨q, h.symm⟩

/-- Equal reals are equal data. -/
theorem Scalar.val_injective : Function.Injective Scalar.val := fun a b h => by
  cases a with
  | rat p => cases b with
    | rat q => simpa using h
    | irr n => exact absurd h.symm (Scalar.val_irr_ne n p)
  | irr m => cases b with
    | rat q => exact absurd h (Scalar.val_irr_ne m q)
    | irr n => rw [(Classical.choose_spec exists_listing).1 h]

/-- Equal reals are equal data. -/
theorem Scalar.ext {a b : Scalar} (h : a.val = b.val) : a = b := Scalar.val_injective h

/-- A scalar is a number of a run. -/
theorem Scalar.isNum (a : Scalar) : IsNum a.val := by
  cases a with
  | rat q => exact ⟨.rat q, rfl⟩
  | irr n =>
    have hm : irrational n ∈ Set.range irrational := ⟨n, rfl⟩
    rw [show Set.range irrational = _ from (Classical.choose_spec exists_listing).2] at hm
    exact hm.1

/-- Every number of a run is a scalar. -/
theorem exists_scalar {x : ℝ} (h : IsNum x) : ∃ r : Scalar, r.val = x := by
  by_cases hq : ∃ q : Rat, (q : ℝ) = x
  · obtain ⟨q, rfl⟩ := hq
    exact ⟨.rat q, rfl⟩
  · have : x ∈ Set.range irrational := by
      rw [show Set.range irrational = _ from (Classical.choose_spec exists_listing).2]
      exact ⟨h, fun ⟨q, e⟩ => hq ⟨q, e⟩⟩
    obtain ⟨n, rfl⟩ := this
    exact ⟨.irr n, rfl⟩

/-! ### Naming a value by what it is -/

/-- Some element. The equation says nothing of which, and running it would not end; the model never runs it: it is what
lets a value be named in a definition that Lean compiles. -/
def someElement {α : Type} [Nonempty α] (u : Unit) : α := someElement u
partial_fixpoint

/-- A value with a given property. Wherever the model uses it the property holds of one value only. -/
def the {α : Type} (P : α → Prop) (h : ∃ x, P x) : α :=
  have : Nonempty {x // P x} := h.elim fun x hx => ⟨⟨x, hx⟩⟩
  (someElement () : {x // P x}).1

theorem the_spec {α : Type} (P : α → Prop) (h : ∃ x, P x) : P (the P h) := Subtype.property _

/-- Whether a proposition holds. -/
def truth (P : Prop) : Bool := the (fun b : Bool => b = true ↔ P) (by classical exact ⟨decide P, by simp⟩)

@[simp] theorem truth_iff (P : Prop) : truth P = true ↔ P := the_spec (fun b : Bool => b = true ↔ P) _

/-! ### The functions of NUMERICS (R8) -/

theorem exists_add (a b : Scalar) : ∃ r : Scalar, r.val = a.val + b.val := by
  obtain ⟨s, hs⟩ := a.isNum
  obtain ⟨t, ht⟩ := b.isNum
  exact exists_scalar ⟨.add s t, by simp [RealTerm.val, hs, ht]⟩

/-- `add` (R8). -/
def Scalar.add : Scalar → Scalar → Scalar
  | .rat p, .rat q => .rat (p + q)
  | a, b =>
    if a = .rat 0 then b else if b = .rat 0 then a
    else the (fun r => r.val = a.val + b.val) (exists_add a b)

theorem exists_neg (a : Scalar) : ∃ r : Scalar, r.val = -a.val := by
  obtain ⟨s, hs⟩ := a.isNum
  exact exists_scalar ⟨.neg s, by simp [RealTerm.val, hs]⟩

/-- `neg` (R8). -/
def Scalar.neg : Scalar → Scalar
  | .rat p => .rat (-p)
  | a => the (fun r => r.val = -a.val) (exists_neg a)

/-- `sub` (R8). -/
def Scalar.sub (a b : Scalar) : Scalar := a.add b.neg

theorem exists_mul (a b : Scalar) : ∃ r : Scalar, r.val = a.val * b.val := by
  obtain ⟨s, hs⟩ := a.isNum
  obtain ⟨t, ht⟩ := b.isNum
  exact exists_scalar ⟨.mul s t, by simp [RealTerm.val, hs, ht]⟩

/-- `mul` (R8). -/
def Scalar.mul : Scalar → Scalar → Scalar
  | .rat p, .rat q => .rat (p * q)
  | a, b =>
    if a = .rat 0 ∨ b = .rat 0 then .rat 0 else the (fun r => r.val = a.val * b.val) (exists_mul a b)

theorem exists_div (a b : Scalar) : ∃ r : Scalar, r.val = a.val / b.val := by
  obtain ⟨s, hs⟩ := a.isNum
  obtain ⟨t, ht⟩ := b.isNum
  exact exists_scalar ⟨.mul s (.inv t), by simp [RealTerm.val, hs, ht, div_eq_mul_inv]⟩

/-- The quotient of the rules' constants (60_exceptions.md R356: "no rule divides by a run-time quantity"). -/
def Scalar.div : Scalar → Scalar → Scalar
  | .rat p, .rat q => .rat (p / q)
  | a, b => if a = .rat 0 then .rat 0 else the (fun r => r.val = a.val / b.val) (exists_div a b)

/-- `lt` (R8). -/
def Scalar.lt : Scalar → Scalar → Bool
  | .rat p, .rat q => decide (p < q)
  | a, b => truth (a.val < b.val)

/-- `a <= b`. -/
def Scalar.le (a b : Scalar) : Bool := !b.lt a

/-- The greater of two. -/
def Scalar.max (a b : Scalar) : Scalar := if a.le b then b else a

/-- The lesser of two. -/
def Scalar.min (a b : Scalar) : Scalar := if a.le b then a else b

theorem exists_pi : ∃ r : Scalar, r.val = Real.pi := exists_scalar ⟨.pi, rfl⟩

/-- `pi` (R8). -/
def Scalar.pi : Scalar := the (fun r => r.val = Real.pi) exists_pi

/-- The greatest `r + r'` with `r' < 2^k` whose square is at most `n`, found bit by bit. -/
def natRootFrom (n : Nat) : Nat → Nat → Nat
  | 0, r => r
  | k + 1, r => natRootFrom n k (if (r + 2 ^ k) * (r + 2 ^ k) ≤ n then r + 2 ^ k else r)

/-- The integer square root. -/
def natRoot (n : Nat) : Nat := natRootFrom n (n.log2 + 1) 0

/-- The square root of the square of a rational number. -/
def ratRoot (x : Rat) : Rat := (natRoot x.num.toNat : Rat) / (natRoot x.den : Rat)

theorem ratRoot_nonneg (x : Rat) : 0 ≤ ratRoot x := by unfold ratRoot; positivity

theorem exists_sqrt (a : Scalar) : ∃ r : Scalar, r.val = Real.sqrt a.val := by
  obtain ⟨s, hs⟩ := a.isNum
  exact exists_scalar ⟨.sqrt s, by simp [RealTerm.val, hs]⟩

/-- `sqrt` (R8); the rules apply it to sums of squares only. -/
def Scalar.sqrt (a : Scalar) : Scalar :=
  match a with
  | .rat q =>
    if ratRoot q * ratRoot q = q then .rat (ratRoot q)
    else the (fun r => r.val = Real.sqrt (Scalar.rat q).val) (exists_sqrt (.rat q))
  | a => the (fun r => r.val = Real.sqrt a.val) (exists_sqrt a)

theorem exists_cos (a : Scalar) : ∃ r : Scalar, r.val = Real.cos a.val := by
  obtain ⟨s, hs⟩ := a.isNum
  exact exists_scalar ⟨.cos s, by simp [RealTerm.val, hs]⟩

/-- `cos` (R8). -/
def Scalar.cos (a : Scalar) : Scalar :=
  if a = .rat 0 then .rat 1 else the (fun r => r.val = Real.cos a.val) (exists_cos a)

theorem exists_sin (a : Scalar) : ∃ r : Scalar, r.val = Real.sin a.val := by
  obtain ⟨s, hs⟩ := a.isNum
  exact exists_scalar ⟨.sin s, by simp [RealTerm.val, hs]⟩

/-- `sin` (R8). -/
def Scalar.sin (a : Scalar) : Scalar :=
  if a = .rat 0 then .rat 0 else the (fun r => r.val = Real.sin a.val) (exists_sin a)

theorem exists_atan2 (y x : Scalar) : ∃ r : Scalar, r.val = Complex.arg ⟨x.val, y.val⟩ := by
  obtain ⟨s, hs⟩ := x.isNum
  obtain ⟨t, ht⟩ := y.isNum
  exact exists_scalar ⟨.arg s t, by simp [RealTerm.val, hs, ht]⟩

/-- `atan2(y, x)` (R8): the angle of `x + j*y` in `(-pi, pi]`, 0 for 0 (R13). -/
def Scalar.atan2 (y x : Scalar) : Scalar :=
  if y = .rat 0 ∧ x.lt (.rat 0) = false then .rat 0
  else the (fun r => r.val = Complex.arg ⟨x.val, y.val⟩) (exists_atan2 y x)

/-! ### What each function gives -/

@[simp] theorem Scalar.val_add (a b : Scalar) : (a.add b).val = a.val + b.val := by
  unfold Scalar.add
  split
  · simp
  · split_ifs with h h'
    · simp [h]
    · simp [h']
    · exact the_spec (fun r : Scalar => r.val = _) _

@[simp] theorem Scalar.val_neg (a : Scalar) : a.neg.val = -a.val := by
  unfold Scalar.neg
  split
  · simp
  · exact the_spec (fun r : Scalar => r.val = _) _

@[simp] theorem Scalar.val_sub (a b : Scalar) : (a.sub b).val = a.val - b.val := by
  simp [Scalar.sub, sub_eq_add_neg]

@[simp] theorem Scalar.val_mul (a b : Scalar) : (a.mul b).val = a.val * b.val := by
  unfold Scalar.mul
  split
  · simp
  · split_ifs with h
    · rcases h with h | h <;> simp [h]
    · exact the_spec (fun r : Scalar => r.val = _) _

@[simp] theorem Scalar.val_div (a b : Scalar) : (a.div b).val = a.val / b.val := by
  unfold Scalar.div
  split
  · simp
  · split_ifs with h
    · simp [h]
    · exact the_spec (fun r : Scalar => r.val = _) _

theorem Scalar.lt_iff (a b : Scalar) : a.lt b = true ↔ a.val < b.val := by
  unfold Scalar.lt
  split <;> simp

theorem Scalar.lt_false_iff (a b : Scalar) : a.lt b = false ↔ b.val ≤ a.val := by
  rw [← not_lt, ← Scalar.lt_iff, Bool.not_eq_true]

theorem Scalar.le_iff (a b : Scalar) : a.le b = true ↔ a.val ≤ b.val := by
  rw [Scalar.le, Bool.not_eq_true', Scalar.lt_false_iff]

theorem Scalar.le_false_iff (a b : Scalar) : a.le b = false ↔ b.val < a.val := by
  rw [← not_le, ← Scalar.le_iff, Bool.not_eq_true]

@[simp] theorem Scalar.val_max (a b : Scalar) : (a.max b).val = Max.max a.val b.val := by
  unfold Scalar.max
  split_ifs with h
  · rw [max_eq_right ((Scalar.le_iff a b).1 h)]
  · rw [max_eq_left ((Scalar.le_false_iff a b).1 (by simpa using h)).le]

@[simp] theorem Scalar.val_min (a b : Scalar) : (a.min b).val = Min.min a.val b.val := by
  unfold Scalar.min
  split_ifs with h
  · rw [min_eq_left ((Scalar.le_iff a b).1 h)]
  · rw [min_eq_right ((Scalar.le_false_iff a b).1 (by simpa using h)).le]

@[simp] theorem Scalar.val_pi : Scalar.pi.val = Real.pi := the_spec (fun r : Scalar => r.val = _) _

@[simp] theorem Scalar.val_sqrt (a : Scalar) : a.sqrt.val = Real.sqrt a.val := by
  unfold Scalar.sqrt
  split
  · rename_i q
    split_ifs with h
    · have h0 : (0 : ℝ) ≤ ratRoot q := by exact_mod_cast ratRoot_nonneg q
      have hq : (q : ℝ) = (ratRoot q : ℝ) * (ratRoot q : ℝ) := by exact_mod_cast h.symm
      rw [Scalar.val_rat, Scalar.val_rat, hq, Real.sqrt_mul_self h0]
    · exact the_spec (fun r : Scalar => r.val = _) _
  · exact the_spec (fun r : Scalar => r.val = _) _

@[simp] theorem Scalar.val_cos (a : Scalar) : a.cos.val = Real.cos a.val := by
  unfold Scalar.cos
  split_ifs with h
  · simp [h]
  · exact the_spec (fun r : Scalar => r.val = _) _

@[simp] theorem Scalar.val_sin (a : Scalar) : a.sin.val = Real.sin a.val := by
  unfold Scalar.sin
  split_ifs with h
  · simp [h]
  · exact the_spec (fun r : Scalar => r.val = _) _

@[simp] theorem Scalar.val_atan2 (y x : Scalar) : (Scalar.atan2 y x).val = Complex.arg ⟨x.val, y.val⟩ := by
  unfold Scalar.atan2
  split_ifs with h
  · have hx : 0 ≤ x.val := by simpa [Scalar.lt_false_iff] using h.2
    simp only [h.1, Scalar.val_rat, Rat.cast_zero]
    exact (Complex.arg_ofReal_of_nonneg hx).symm
  · exact the_spec (fun r : Scalar => r.val = _) _

end Sys2Proof
end

