-- ==== Sys2Proof/WellFormed.lean ====
section
/-! DEFINITION. Which terms of Syntax and Config a conforming block can meet: the token codes a producer emits
(30_encoding.md R104, R115(a)) and the constraints on the parameters (00_scope.md R7, 43_demod_noncoherent.md R222,
42_viterbi.md R191). The machine gives every term a meaning, well-formed or not; these checks say which terms the
spec admits. -/

namespace Sys2Proof

/-- R104: of the eight T3 codes only 000, 001, 010 and 100 can be produced: a tagged bit is a 0 and never has
both tags. -/
def T3.producible (t : T3) : Bool :=
  (!t.f || (!t.p && !t.b)) && (!t.p || !t.b)

/-- An operation a conforming producer can trigger: its token's code is one of R104's four. Every other operation's
token codes are all used (R105: "none is reserved"). -/
def Instr.wf : Instr → Bool
  | .gateData _ b => T3.producible ⟨false, false, b⟩
  | .gatePre _ b => T3.producible ⟨false, true, b⟩
  | .gateFlag _ p b => T3.producible ⟨true, p, b⟩
  | _ => true

/-- R191: the trellis tables' bounds. -/
def Fsm.wf (f : Fsm) : Bool :=
  1 ≤ f.nstates && 1 ≤ f.no && f.ns.length == f.nstates && f.os.length == f.nstates
    && f.ns.all (fun e => e.1 < f.nstates && e.2 < f.nstates)
    && f.os.all (fun e => e.1 < f.no && e.2 < f.no)

/-- R7: every channel holds at least one token. -/
def Depths.wf (d : Depths) : Bool :=
  [d.sIn, d.csOut, d.k1, d.k2, d.k3, d.vIn, d.n1, d.n2, d.n3, d.n4, d.n5, d.hb, d.l1, d.l2, d.tb, d.ft, d.fd2,
    d.rOut].all (fun n => 1 ≤ n)

/-- The constraint on `COSTAS_WMAX` (R7): a real > 0, or +inf. -/
def wmaxOk : Option Scalar → Bool
  | none => true
  | some w => (Scalar.rat 0).lt w

/-- The constraint on `QDEPTH` (R7): an integer >= 1, or +inf. -/
def qdepthOk : Option Nat → Bool
  | none => true
  | some d => 1 ≤ d

/-- The coherent path's constraints of R7 and the table shapes of R161 and R191. -/
def Params.coherentWf (p : Params) : Bool :=
  1 ≤ p.q && 1 ≤ p.c && 1 ≤ p.mfLen && 1 ≤ p.rsmpTaps.length && 1 ≤ p.vitTb && p.fsm.wf
    && p.mfTaps.length == p.c && p.mfTaps.all (fun r => r.length == p.mfLen)
    && p.const.length == p.fsm.no && p.const.all (fun r => r.length == p.c)
    && (Scalar.rat 0).lt p.costasBw && (Scalar.rat 0).lt p.costasDamp && wmaxOk p.costasWmax
    && (Scalar.rat 0).lt p.energyFrac && p.energyFrac.le (.rat 1)

/-- The non-coherent path's constraints of R7, R217 and R222. -/
def Params.nonCoherentWf (p : Params) : Bool :=
  1 ≤ p.rrcTaps.length && (Scalar.rat 0).le p.crT0 && p.crT0.lt (.rat 1)
    && 1 ≤ p.dfeNff && (Scalar.rat 0).le p.dfeMuF && (Scalar.rat 0).le p.dfeMuB
    && 1 ≤ p.dfeTrainPlen && p.dfeTrainPattern < 2 ^ p.dfeTrainPlen

/-- The constraints of R7: `HAS_DFE` needs `HAS_NC`, both paths' constraints, and the sizes of the bit-level
units. -/
def Params.wf (p : Params) : Bool :=
  (!p.hasDfe || p.hasNc) && p.coherentWf && p.nonCoherentWf
    && 1 ≤ p.window && 16 ≤ p.frameMaxBits && 1 ≤ p.vDiag && p.depth.wf

end Sys2Proof
end

