-- ==== Sys2Proof/Decode.lean ====
section
/-! DEFINITION. Reading an operation from the word that stands where the next operation is selected, and writing
that word.

The spec's own encoding of an operation is the port its token stands on and, for units GATE, DSTF, FRM and DFE, the
token's tag bits (30_encoding.md R100, R114); the other bit formats are T3, FT2, B1 (R103 to R105). The spec gives
the port no bits. An operation word is two bytes here: byte 0 is the token's bits exactly as R103 to R105 and the
opcode table number them (bit 0 of the hit bit, of B1, of T3 and of FT2 is bit 0 of the byte), byte 1 names the port
and the instance. The numbers of byte 1 are a DESIGN CHOICE (log entry 5). Tokens of numbers (CPX, RL, CVEC, REC,
CFGREC) have no bit layout in the spec, so byte 0 is 0 for them. -/

namespace Sys2Proof

/-- What can select an operation (R114's "trigger" column): the consuming end of a channel of R101, the internal
condition of SYS.DRAINED, a host signal, a sample offered on S_IN, or the consumer. -/
inductive Trigger
  | tb | ft | fd2 | n4 | hb | l1 | l2 | sIn | csOutCostas | k1 | k2 | k3 | vIn | csOutQd | n1 | n2 | n3Tcorr | slice
  | rOut | drained | reset | load | start | stop | sample | eos | pop | empty
deriving DecidableEq, Repr

/-- Why two bytes are no operation word. -/
inductive DecodeError
  /-- fewer than two bytes -/
  | truncated
  /-- bit 5 of byte 1 is set -/
  | reservedBit
  /-- bits 4..0 of byte 1 name no trigger -/
  | badTrigger
  /-- bits 7..6 of byte 1 name no instance the operation can belong to -/
  | badTarget
  /-- byte 0 is no token of the trigger's format -/
  | badToken
deriving DecidableEq, Repr

/-- Bits 4..0 of byte 1 (log entry 5). -/
def Trigger.code : Trigger → Nat
  | .tb => 0 | .ft => 1 | .fd2 => 2 | .n4 => 3 | .hb => 4 | .l1 => 5 | .l2 => 6 | .sIn => 7
  | .csOutCostas => 8 | .k1 => 9 | .k2 => 10 | .k3 => 11 | .vIn => 12 | .csOutQd => 13 | .n1 => 14 | .n2 => 15
  | .n3Tcorr => 16 | .slice => 17 | .rOut => 18 | .drained => 19
  | .reset => 20 | .load => 21 | .start => 22 | .stop => 23 | .sample => 24 | .eos => 25 | .pop => 26 | .empty => 27

/-- The trigger a code names. -/
def triggerOfCode : Nat → Option Trigger
  | 0 => some .tb | 1 => some .ft | 2 => some .fd2 | 3 => some .n4 | 4 => some .hb | 5 => some .l1 | 6 => some .l2
  | 7 => some .sIn | 8 => some .csOutCostas | 9 => some .k1 | 10 => some .k2 | 11 => some .k3 | 12 => some .vIn
  | 13 => some .csOutQd | 14 => some .n1 | 15 => some .n2 | 16 => some .n3Tcorr | 17 => some .slice
  | 18 => some .rOut | 19 => some .drained | 20 => some .reset | 21 => some .load | 22 => some .start
  | 23 => some .stop | 24 => some .sample | 25 => some .eos | 26 => some .pop | 27 => some .empty
  | _ => none

/-- Bits 7..6 of byte 1: 0 instance A, 1 instance B, 2 the receiver (log entry 5). -/
def Target.code : Target → Nat
  | .chan .a => 0
  | .chan .b => 1
  | .receiver => 2

/-- The target a code names. -/
def targetOfCode : Nat → Option Target
  | 0 => some (.chan .a)
  | 1 => some (.chan .b)
  | 2 => some .receiver
  | _ => none

/-- Format B1 (R103): the bit is bit 0. -/
def bitByte (b : Bool) : Byte := if b then 1 else 0

/-- Format T3 (R104): `f` bit 2, `p` bit 1, `b` bit 0. -/
def t3Byte (t : T3) : Byte :=
  BitVec.ofNat 8 ((if t.f then 4 else 0) + (if t.p then 2 else 0) + (if t.b then 1 else 0))

/-- Format FT2 (R105): `k` bit 1, `b` bit 0; SOF is 10, EOF is 11. -/
def ft2Byte : FT2 → Byte
  | .bit b => bitByte b
  | .sof => 2
  | .eof => 3

/-- Reading a B1 byte. -/
def byteBit (w : Byte) : Option Bool :=
  if w.toNat < 2 then some (w.getLsbD 0) else none

/-- Reading a T3 byte: all eight codes are tokens (R115(a)). -/
def byteT3 (w : Byte) : Option T3 :=
  if w.toNat < 8 then some ⟨w.getLsbD 2, w.getLsbD 1, w.getLsbD 0⟩ else none

/-- Reading an FT2 byte (R105: "All four codes are used"). -/
def byteFT2 (w : Byte) : Option FT2 :=
  if w.toNat < 4 then
    some (if w.getLsbD 1 then (if w.getLsbD 0 then .eof else .sof) else .bit (w.getLsbD 0))
  else none

/-- An operation of one instance. -/
def onChan (t : Target) (mk : Chan → Instr) : Except DecodeError Instr :=
  match t with
  | .chan c => .ok (mk c)
  | .receiver => .error .badTarget

/-- An operation whose token carries no bits: byte 0 is 0. -/
def noBits (w : Byte) (r : Except DecodeError Instr) : Except DecodeError Instr :=
  if w = 0 then r else .error .badToken

/-- GATE's selection (R114): `f` = 1 is GATE.FLAG whatever `p` and `b` are, else `p` = 1 is GATE.PRE, else
GATE.DATA (R115(a)). -/
def selectGate (c : Chan) (t : T3) : Instr :=
  if t.f then .gateFlag c t.p t.b else if t.p then .gatePre c t.b else .gateData c t.b

/-- DSTF's selection (R114). -/
def selectDstf (c : Chan) : FT2 → Instr
  | .bit b => .dstfBit c b
  | .sof => .dstfSof c
  | .eof => .dstfEof c

/-- FRM's selection (R114). -/
def selectFrm (c : Chan) : FT2 → Instr
  | .bit b => .frmBit c b
  | .sof => .frmSof c
  | .eof => .frmEof c

/-- DFE's selection by the hit bit (R114, R223, R224). -/
def selectDfe (c : Chan) (hit : Bool) : Instr :=
  if hit then .dfeRetrain c else .dfeStep c

/-- A token of bits on a port of one instance. -/
def onToken {τ : Type} (t : Target) (tok : Option τ) (mk : Chan → τ → Instr) : Except DecodeError Instr :=
  match tok with
  | none => .error .badToken
  | some x => onChan t (fun c => mk c x)

/-- R100, R114: the operation that a trigger and the token's bits select. -/
def selectOp (tr : Trigger) (t : Target) (w : Byte) : Except DecodeError Instr :=
  match tr with
  | .tb => onToken t (byteT3 w) selectGate
  | .ft => onToken t (byteFT2 w) selectDstf
  | .fd2 => onToken t (byteFT2 w) selectFrm
  | .n4 => onToken t (byteBit w) selectDfe
  | .hb => onToken t (byteBit w) Instr.diffStep
  | .l1 => onToken t (byteBit w) Instr.invStep
  | .l2 => onToken t (byteBit w) Instr.corrStep
  | .sIn => noBits w (onChan t Instr.csStep)
  | .csOutCostas => noBits w (onChan t Instr.costasStep)
  | .k1 => noBits w (onChan t Instr.rsmpStep)
  | .k2 => noBits w (onChan t Instr.mfStep)
  | .k3 => noBits w (onChan t Instr.ilvStep)
  | .vIn => noBits w (onChan t Instr.vitStep)
  | .csOutQd => noBits w (onChan t Instr.qdStep)
  | .n1 => noBits w (onChan t Instr.rrcStep)
  | .n2 => noBits w (onChan t Instr.crStep)
  | .n3Tcorr => noBits w (onChan t Instr.tcorrStep)
  | .slice => noBits w (onChan t Instr.sliceStep)
  | .rOut => noBits w (onChan t Instr.outPush)
  | .drained => noBits w (onChan t Instr.sysDrained)
  | .reset => noBits w (.ok (.sysReset t))
  | .load => noBits w (onChan t Instr.cfgLoad)
  | .start => noBits w (.ok (.sysStart t))
  | .stop => noBits w (.ok (.sysStop t))
  | .sample => noBits w (onChan t Instr.srcSample)
  | .eos => noBits w (.ok (.srcEos t))
  | .pop => noBits w (if t = .receiver then .ok .qPop else .error .badTarget)
  | .empty => noBits w (if t = .receiver then .ok .qEmpty else .error .badTarget)

/-- The operation word at the head of a byte sequence and the bytes after it; total, every refusal by name. -/
def decode : List Byte → Except DecodeError (Instr × List Byte)
  | w :: sel :: rest =>
    if sel.getLsbD 5 then .error .reservedBit
    else
      match triggerOfCode (sel.toNat % 32), targetOfCode (sel.toNat / 64) with
      | none, _ => .error .badTrigger
      | some _, none => .error .badTarget
      | some tr, some t =>
        match selectOp tr t w with
        | .error e => .error e
        | .ok i => .ok (i, rest)
  | _ => .error .truncated

/-- The bytes of an operation word: the token's bits, then the port and the instance. -/
def opWord (tr : Trigger) (t : Target) (w : Byte) : List Byte :=
  [w, BitVec.ofNat 8 (tr.code + 64 * t.code)]

/-- The word of an operation, from the trigger and selection columns of R114 and the formats of R103 to R105. -/
def encode : Instr → List Byte
  | .sysReset t => opWord .reset t 0
  | .cfgLoad c => opWord .load (.chan c) 0
  | .sysStart t => opWord .start t 0
  | .sysStop t => opWord .stop t 0
  | .srcSample c => opWord .sample (.chan c) 0
  | .srcEos t => opWord .eos t 0
  | .sysDrained c => opWord .drained (.chan c) 0
  | .qPop => opWord .pop .receiver 0
  | .qEmpty => opWord .empty .receiver 0
  | .outPush c => opWord .rOut (.chan c) 0
  | .csStep c => opWord .sIn (.chan c) 0
  | .costasStep c => opWord .csOutCostas (.chan c) 0
  | .rsmpStep c => opWord .k1 (.chan c) 0
  | .mfStep c => opWord .k2 (.chan c) 0
  | .ilvStep c => opWord .k3 (.chan c) 0
  | .vitStep c => opWord .vIn (.chan c) 0
  | .qdStep c => opWord .csOutQd (.chan c) 0
  | .rrcStep c => opWord .n1 (.chan c) 0
  | .crStep c => opWord .n2 (.chan c) 0
  | .tcorrStep c => opWord .n3Tcorr (.chan c) 0
  | .dfeStep c => opWord .n4 (.chan c) 0
  | .dfeRetrain c => opWord .n4 (.chan c) 1
  | .sliceStep c => opWord .slice (.chan c) 0
  | .diffStep c b => opWord .hb (.chan c) (bitByte b)
  | .invStep c b => opWord .l1 (.chan c) (bitByte b)
  | .corrStep c b => opWord .l2 (.chan c) (bitByte b)
  | .gateData c b => opWord .tb (.chan c) (t3Byte ⟨false, false, b⟩)
  | .gatePre c b => opWord .tb (.chan c) (t3Byte ⟨false, true, b⟩)
  | .gateFlag c p b => opWord .tb (.chan c) (t3Byte ⟨true, p, b⟩)
  | .dstfBit c b => opWord .ft (.chan c) (ft2Byte (.bit b))
  | .dstfSof c => opWord .ft (.chan c) (ft2Byte .sof)
  | .dstfEof c => opWord .ft (.chan c) (ft2Byte .eof)
  | .frmBit c b => opWord .fd2 (.chan c) (ft2Byte (.bit b))
  | .frmSof c => opWord .fd2 (.chan c) (ft2Byte .sof)
  | .frmEof c => opWord .fd2 (.chan c) (ft2Byte .eof)

/-- The operation read from a word numbered as the opcode table numbers it: bit 0 of `w` is bit 0 of byte 0, the
bits above `nbits` are 0. The table's words hold the token's bits alone; with byte 1 zero they stand on port TB of
instance A (log entry 6). A word of more than two bytes is none. -/
def decodeTableWord (nbits w : Nat) : Option Instr :=
  let v := w % 2 ^ nbits
  if v < 65536 then
    match decode [BitVec.ofNat 8 v, BitVec.ofNat 8 (v / 256)] with
    | .ok r => some r.1
    | .error _ => none
  else none

end Sys2Proof
end

