-- ==== Sys2Proof/Machine/State.lean ====
section
/-! DEFINITION. The state of the receiver as plain data: two channel instances, each with every register, buffer and
channel of 10_state.md R23 to R45 (R20, R324), the shared queue Q (R44), and, as the model's own fields, what stands
at the block's edges (pending host signals, offered samples, consumer requests, what left on the observer ports and
what the consumer received) and which agent moves next (R9, R10). `State.reset` is the machine after power-on
(70_reset_and_hazards.md R380, R382, 10_state.md R48). -/

namespace Sys2Proof.Machine

open Sys2Proof

/-- The buffers whose elements are unspecified at reset (10_state.md R48, R27, R32, R41, R43). -/
inductive BufName
  | csBuf
  | vitVbuf
  | gateHb
  | frmFb
deriving DecidableEq, Repr

/-- Why a step can stop with a fault. The spec's operations never fail (60_exceptions.md R340); each fault marks a
state that the rules never reach, so that a proof can show it absent. -/
inductive Fault
  /-- A read of element `i` of a buffer that nothing has written since reset (R359, 93 U4: "a model should make such
  a read a fault"). Raised by `memRead`, from CS.STEP, VIT.STEP, GATE.DATA, GATE.PRE and FRM.EOF. Safe: the machine
  stops where the spec says the rules never go. -/
  | unwritten (buf : BufName) (i : Nat)
  /-- An access at an index the buffer does not have (20_memory.md R71: "every index a rule computes is within
  range"). Raised by `memRead` and `memWrite`. Safe. -/
  | outOfRange (buf : BufName) (i : Nat)
  /-- VIT.STEP met trellis tables that break 42_viterbi.md R191, or a metric array of another size; CFG.LOAD refuses
  such tables (48_system_ops.md R311). Safe. -/
  | trellisTables
  /-- The traceback of VIT.STEP met a state without a survivor (42_viterbi.md R197: "Every entry on that walk is
  defined"). Safe. -/
  | noSurvivor
deriving DecidableEq, Repr

/-- Why a step can refuse. -/
inductive Refusal
  /-- An instruction without a meaning. Raised by no arm of `exec`: every operation has its meaning. Safe. -/
  | notModelled (mnemonic : String)
  /-- The bytes at the selected trigger are no operation word. Raised by `step`; the words the ports hold always
  decode, so no state raises it. Safe. -/
  | undecodable (e : DecodeError)
deriving DecidableEq, Repr

/-- `SYS.lc` (R25): the six values that occur; `lcCode` (Ops.lean) gives the 3-bit code the host reads. -/
inductive Lifecycle
  | unconfigured
  | ready
  | running
  | draining
  | done
  | cfgError
deriving DecidableEq, Repr

/-- A path metric (R32, 42_viterbi.md): a real or +inf. -/
inductive Metric
  | fin (v : Scalar)
  | inf
deriving DecidableEq, Repr

/-- A survivor column (R32): one entry `(prev_state, input)` or `none` for each trellis state. -/
abbrev Column := List (Option (Nat × Bool))

/-- Storage whose elements may be unwritten since reset: `none` is such an element (R48, R71). -/
abbrev Buffer (α : Type) := List (Option α)

/-- CS (R27). -/
structure CsRegs where
  buf : Buffer Cpx
  fill : Nat
  phase : Scalar
  fest : Scalar
deriving DecidableEq, Repr

/-- COSTAS (R28). -/
structure CostasRegs where
  theta : Scalar
  omega : Scalar
deriving DecidableEq, Repr

/-- RSMP (R29). -/
structure RsmpRegs where
  hist : List Cpx
  nxt : Nat
deriving DecidableEq, Repr

/-- MF (R30). -/
structure MfRegs where
  dl : List Cpx
  ph : Nat
deriving DecidableEq, Repr

/-- VIT (R32). -/
structure VitRegs where
  vbuf : Buffer Cpx
  vcnt : Nat
  pm : List Metric
  sv : List Column
deriving DecidableEq, Repr

/-- CR (R35). -/
structure CrRegs where
  prevIn : Scalar
  t : Scalar
  omega : Scalar
  lastOut : Scalar
deriving DecidableEq, Repr

/-- TCORR (R36); `sr` holds `DFE_TRAIN_PLEN` bits, the newest in bit 0 (R72(b)). -/
structure TcorrRegs where
  sr : Nat
  cnt : Nat
deriving DecidableEq, Repr

/-- DFE (R37). -/
structure DfeRegs where
  wf : List Scalar
  wb : List Scalar
  u : List Scalar
  d : List Scalar
  tcnt : Nat
deriving DecidableEq, Repr

/-- FD.CORR (R40); `pos` counts modulo `2^POS_W` (93_implementation_defined.md U18, log entry 8). -/
structure FdRegs where
  sr : BitVec 16
  cnt : Nat
  pos : Nat
deriving DecidableEq, Repr

/-- FD.GATE (R41). -/
structure GateRegs where
  age : Nat
  isOpen : Bool
  hb : Buffer Bool
  hbc : Nat
deriving DecidableEq, Repr

/-- FRM (R43). -/
structure FrmRegs where
  active : Bool
  ovf : Bool
  fb : Buffer Bool
  flen : Nat
  crc : BitVec 16
deriving DecidableEq, Repr

/-- The channels between the units, one list per port of R101, the oldest token first (R45). The first `FIFO_DEPTH[port]`
tokens of a list stand in the channel; the others, if any, are the rest of one burst that the producer is still handing
over, and enter it as the consumer takes (DESIGN CHOICE, log entry 13; `inChannel`, `inHand` in Ops.lean). -/
structure Channels where
  sIn : List Cpx
  csOut : List Cpx
  k1 : List Cpx
  k2 : List Cpx
  k3 : List (List Cpx)
  vIn : List Cpx
  n1 : List Scalar
  n2 : List Scalar
  n3 : List Scalar
  n4 : List RLH
  n5 : List Scalar
  hb : List Bool
  l1 : List Bool
  l2 : List Bool
  tb : List T3
  ft : List FT2
  fd2 : List FT2
  rOut : List Rec
deriving DecidableEq, Repr

/-- What has left on the observer ports TAG_P, TAG_F and DIAG (R101), the oldest first; a reset recalls none of it
(R386). -/
structure Observed where
  tagP : List Tag
  tagF : List Tag
  diag : List Event
deriving DecidableEq, Repr

/-- One channel instance (R20): its parameters (R7), the status registers (R25), CFG (R23), the units' registers
(R27 to R43), its channels (R45) and its observer ports. ILV, SLICE and INV have no state (R31, R38, R39). -/
structure ChanInst where
  par : Params
  lc : Lifecycle
  done : Bool
  cfgErr : BitVec 4
  cfg : CfgRec
  cs : CsRegs
  costas : CostasRegs
  rsmp : RsmpRegs
  mf : MfRegs
  vit : VitRegs
  qdPrev : Cpx
  rrcDl : List Scalar
  cr : CrRegs
  tcorr : TcorrRegs
  dfe : DfeRegs
  ldPrev : Bool
  fd : FdRegs
  gate : GateRegs
  dstfOnes : Nat
  frm : FrmRegs
  ch : Channels
  obs : Observed
deriving DecidableEq, Repr

/-- A host signal pending on the signal ports of R101, with its operand. -/
inductive Signal
  | reset (t : Target)
  | load (c : Chan) (r : CfgRec)
  | start (t : Target)
  | stop (t : Target)
  | eos (t : Target)
deriving DecidableEq, Repr

/-- A request of the consumer (R321: "use only `Q.POP` and `Q.EMPTY`"). -/
inductive ConsumerReq
  | pop
  | empty
deriving DecidableEq, Repr

/-- Which agent moves (R9, R10): a unit of an instance, the controller raising its next signal, the sample source
offering (or withdrawing, 93 U22) a sample of one instance's stream, the consumer. -/
inductive Turn
  | unit (c : Chan) (u : UnitId)
  | controller
  | source (c : Chan)
  | withdraw (c : Chan)
  | consumer
deriving DecidableEq, Repr

/-- The receiver (R324). `a`, `b`, `q` are the spec's state; `qdepth` is the parameter QDEPTH (`none` = +inf); the
other fields are the model's own: what the outside agents have ready, what they received, and whose turn it is
(log entries 9 and 10). -/
structure State where
  a : ChanInst
  b : ChanInst
  q : List Rec
  qdepth : Option Nat
  signals : List Signal
  offersA : List Cpx
  offersB : List Cpx
  requests : List ConsumerReq
  popped : List Rec
  answers : List Bool
  schedule : List Turn
  robin : Nat
deriving DecidableEq, Repr

/-- How one firing of an agent ends: it waits (its trigger is absent or it is not enabled, R9, R312, R360), it
faults, or it is done. -/
inductive Fire (σ : Type)
  | wait
  | fault (f : Fault)
  | done (x : σ)
deriving DecidableEq, Repr

/-- The result of a step. -/
abbrev Outcome := Host.Outcome State Fault Refusal

/-- Every channel empty (R45). -/
def Channels.empty : Channels :=
  { sIn := [], csOut := [], k1 := [], k2 := [], k3 := [], vIn := [], n1 := [], n2 := [], n3 := [], n4 := [],
    n5 := [], hb := [], l1 := [], l2 := [], tb := [], ft := [], fd2 := [], rOut := [] }

/-- Nothing has left on the observer ports. -/
def Observed.empty : Observed := { tagP := [], tagF := [], diag := [] }

/-- CFG after reset (R48): `symbol_rate` is hard-wired to 9600; the spec gives no other field a value before
CFG.LOAD and no rule reads one, so each is 0 (DESIGN CHOICE, log entry 11). -/
def CfgRec.unloaded : CfgRec :=
  { centerOffset := 0, sampleRate := 0, decim := 0, symbolRate := 9600, fftlen := 0, coherent := false,
    designator := 0, gainMu := .rat 0, gainOmega := .rat 0, omegaRel := .rat 0, verbosity := 0, hasCoords := false, lat := 0,
    lon := 0 }

/-- An instance after SYS.RESET (R48, R380): the "reset" column of R25 and R27 to R45. The sizes of `CS.buf` and
`RSMP.hist` and the value `CR.omega = SPS` come with CFG.LOAD (log entry 12). The parameters and what has left on
the observer ports stay (R20, R386). -/
def ChanInst.reset (p : Params) (o : Observed) : ChanInst :=
  { par := p
    lc := .unconfigured
    done := false
    cfgErr := 0
    cfg := CfgRec.unloaded
    cs := { buf := [], fill := 0, phase := .rat 0, fest := .rat 0 }
    costas := { theta := .rat 0, omega := .rat 0 }
    rsmp := { hist := [], nxt := 0 }
    mf := { dl := List.replicate p.mfLen Cpx.zero, ph := 0 }
    vit := { vbuf := List.replicate p.c none, vcnt := 0, pm := List.replicate p.fsm.nstates (.fin (.rat 0)), sv := [] }
    qdPrev := Cpx.zero
    rrcDl := List.replicate p.rrcTaps.length (.rat 0)
    cr := { prevIn := .rat 0, t := p.crT0, omega := .rat 0, lastOut := .rat 0 }
    tcorr := { sr := 0, cnt := 0 }
    dfe := { wf := List.replicate p.dfeNff (.rat 0), wb := List.replicate p.dfeNfb (.rat 0), u := List.replicate p.dfeNff (.rat 0),
             d := List.replicate p.dfeNfb (.rat 0), tcnt := p.dfeTrainRef.length }
    ldPrev := false
    fd := { sr := 0, cnt := 0, pos := 0 }
    gate := { age := p.window + 1, isOpen := false, hb := List.replicate 7 none, hbc := 0 }
    dstfOnes := 0
    frm := { active := false, ovf := false, fb := List.replicate p.frameMaxBits none, flen := 0, crc := 0xFFFF }
    ch := Channels.empty
    obs := o }

/-- The machine right after power-on (R382: "the state after `SYS.RESET`"): both instances reset, Q empty (R44), no
agent has anything pending, nothing has left. The parameters are the reference ones (log entry 4). -/
def State.reset : State :=
  { a := ChanInst.reset Params.reference Observed.empty
    b := ChanInst.reset Params.reference Observed.empty
    q := []
    qdepth := none
    signals := []
    offersA := []
    offersB := []
    requests := []
    popped := []
    answers := []
    schedule := []
    robin := 0 }

end Sys2Proof.Machine
end

