-- ==== Sys2Proof/Machine/Numerics.lean ====
section
/-! DEFINITION. The arithmetic of the signal-processing units (00_scope.md R8, R13): complex arithmetic over `Scalar`,
`exp(j*t)`, `arg`, `wrap`, `|z|`, `sgn`, the lowest-index maximum and minimum, inner products and path metrics.

Every rule's value is written as its exact value and then passed through `quant` (R8: "the exact value passed through
`NUMERICS`'s own rounding"); with exact reals `quant` is the identity and every rule holds as written. -/

namespace Sys2Proof.Machine

open Sys2Proof

/-- R8: the value a rule gives, in the instance's number format. A finite format has the value 0, so 0 stays 0
(DEDUCED, log entry 2: 40_carrier_sync.md R139 and 43_demod_noncoherent.md R211, R224 state outputs of 0). It has no
infinity and no not-a-number (DESIGN CHOICE, log entry 34: R8 and 60_exceptions.md R356 leave overflow and
not-a-number to NUMERICS). -/
def quant (n : Numerics) (x : Scalar) : Scalar :=
  match n with
  | .exact => x
  | .finite f => if x = .rat 0 then .rat 0 else Config.finiteRound f x

/-- `quant` on both parts. -/
def quantC (n : Numerics) (z : Cpx) : Cpx := ⟨quant n z.re, quant n z.im⟩

/-- Complex sum. -/
def cadd (x y : Cpx) : Cpx := ⟨x.re.add y.re, x.im.add y.im⟩

/-- Complex difference. -/
def csub (x y : Cpx) : Cpx := ⟨x.re.sub y.re, x.im.sub y.im⟩

/-- Complex product. -/
def cmul (x y : Cpx) : Cpx :=
  ⟨(x.re.mul y.re).sub (x.im.mul y.im), (x.re.mul y.im).add (x.im.mul y.re)⟩

/-- `conj(z)` (R13). -/
def conj (z : Cpx) : Cpx := ⟨z.re, z.im.neg⟩

/-- `|z|^2` (42_viterbi.md R193: `|a + j*b|^2 = a*a + b*b`). -/
def normSq (z : Cpx) : Scalar := (z.re.mul z.re).add (z.im.mul z.im)

/-- `|z|` (R13). -/
def cabs (z : Cpx) : Scalar := (normSq z).sqrt

/-- `exp(j*t) = cos(t) + j*sin(t)` (R13). -/
def cexp (t : Scalar) : Cpx := ⟨t.cos, t.sin⟩

/-- `arg(z)` in `(-pi, pi]`, with `arg(0) = 0` (R13). -/
def arg (z : Cpx) : Scalar := Scalar.atan2 z.im z.re

/-- `2*pi`. -/
def twoPi : Scalar := (Scalar.rat 2).mul Scalar.pi

/-- `(-pi, pi]` holds a number congruent to any given one modulo `2*pi`. -/
theorem exists_wrap (t : Scalar) :
    ∃ r : Scalar, -Real.pi < r.val ∧ r.val ≤ Real.pi ∧ ∃ k : Int, r.val = t.val - 2 * Real.pi * k := by
  have hp := Real.pi_pos
  refine ⟨t.sub (twoPi.mul (.rat ⌈(t.val - Real.pi) / (2 * Real.pi)⌉)), ?_⟩
  have h1 := Int.le_ceil ((t.val - Real.pi) / (2 * Real.pi))
  have h2 := Int.ceil_lt_add_one ((t.val - Real.pi) / (2 * Real.pi))
  rw [div_le_iff₀ (by positivity)] at h1
  rw [← sub_lt_iff_lt_add, lt_div_iff₀ (by positivity)] at h2
  simp only [twoPi, Scalar.val_sub, Scalar.val_mul, Scalar.val_rat, Scalar.val_pi, Rat.cast_intCast, Rat.cast_ofNat]
  exact ⟨by linarith, by linarith, _, rfl⟩

/-- `wrap(t)`: "the unique value congruent to t modulo `2*pi` in `(-pi, pi]`" (R13). -/
def wrap (t : Scalar) : Scalar :=
  if t = .rat 0 then .rat 0
  else the (fun r => -Real.pi < r.val ∧ r.val ≤ Real.pi ∧ ∃ k : Int, r.val = t.val - 2 * Real.pi * k) (exists_wrap t)

/-! ### Choices and sums -/

/-- `sgn(v)`: +1 when `v >= 0`, else -1 (R13). -/
def sgn (v : Scalar) : Scalar := if v.lt (.rat 0) then .rat (-1) else .rat 1

/-- The index of the first element that no later one beats; `better x y` says that `x` strictly beats `y` (R13:
`argmin_lowest`, `argmax_lowest` return the lowest index). -/
def bestIndex {α : Type} (better : α → α → Bool) : List α → Nat
  | [] => 0
  | x :: rest => go x 0 1 rest
where
  /-- `best` at index `at_` is the first best of the elements before index `k`. -/
  go (best : α) (at_ : Nat) (k : Nat) : List α → Nat
    | [] => at_
    | y :: rest => if better y best then go y k (k + 1) rest else go best at_ (k + 1) rest

/-- `argmax_lowest` over scalars (40_carrier_sync.md R134). -/
def argmaxLowest (l : List Scalar) : Nat := bestIndex (fun x y => y.lt x) l

/-- The real inner product `sum_k w[k]*x[k]`. -/
def dot : List Scalar → List Scalar → Scalar
  | w :: ws, x :: xs => (w.mul x).add (dot ws xs)
  | _, _ => .rat 0

/-- The complex inner product `sum_k w[k]*x[k]`. -/
def cdot : List Cpx → List Cpx → Cpx
  | w :: ws, x :: xs => cadd (cmul w x) (cdot ws xs)
  | _, _ => Cpx.zero

/-- `m + v` with `+inf + v = +inf` (42_viterbi.md). -/
def metricAdd (n : Numerics) (m : Metric) (v : Scalar) : Metric :=
  match m with
  | .fin x => .fin (quant n (x.add v))
  | .inf => .inf

/-- `v < +inf` for every real, `+inf < +inf` false (42_viterbi.md). -/
def metricLt : Metric → Metric → Bool
  | .fin x, .fin y => x.lt y
  | .fin _, .inf => true
  | .inf, _ => false

/-- The normalising subtraction of 42_viterbi.md R195: "+inf stays +inf". -/
def metricSub (n : Numerics) (m mn : Metric) : Metric :=
  match m, mn with
  | .fin x, .fin y => .fin (quant n (x.sub y))
  | m, _ => m

/-- `argmin_lowest` over metrics (42_viterbi.md R197). -/
def argminMetric (l : List Metric) : Nat := bestIndex metricLt l

end Sys2Proof.Machine
end

