-- ==== Sys2Proof/Machine/Ops.lean ====
section
/-! DEFINITION. The named operations every meaning is written over: an instance of the receiver, the internal buffers
(20_memory.md R71), channels and their room (00_scope.md R9, 20_memory.md R83, R85), one firing of a unit (R9, R312),
taking a host signal (48_system_ops.md R312, R318), and raising an event.

The block has no exception entry and no return from one (60_exceptions.md R340, R346). What stands in its place is
`raise`: an event record on DIAG that changes nothing else (R342, R345); it is `raiseEvent` and `raiseAlways`. -/

namespace Sys2Proof.Machine

open Sys2Proof

/-! ### The two instances (R324) -/

/-- The instance a channel name stands for. -/
def State.inst (s : State) : Chan → ChanInst
  | .a => s.a
  | .b => s.b

/-- The receiver with one instance replaced; nothing else changes (60_exceptions.md R364). -/
def State.setInst (s : State) (c : Chan) (i : ChanInst) : State :=
  match c with
  | .a => { s with a := i }
  | .b => { s with b := i }

/-- The samples the source offers on `S_IN` of an instance, the next one first (R314). -/
def State.offers (s : State) : Chan → List Cpx
  | .a => s.offersA
  | .b => s.offersB

/-- The receiver with one instance's offered samples replaced. -/
def State.setOffers (s : State) (c : Chan) (l : List Cpx) : State :=
  match c with
  | .a => { s with offersA := l }
  | .b => { s with offersB := l }

/-- A change given to one instance or to both at once (R325). -/
def onTarget (t : Target) (f : ChanInst → ChanInst) (s : State) : State :=
  match t with
  | .chan c => s.setInst c (f (s.inst c))
  | .receiver => { s with a := f s.a, b := f s.b }

/-! ### Status registers the host reads (R25) -/

/-- The 3-bit code of `SYS.lc` (R25). -/
def lcCode : Lifecycle → BitVec 3
  | .unconfigured => 0
  | .ready => 1
  | .running => 2
  | .draining => 3
  | .done => 4
  | .cfgError => 5

/-- The host's read of `SYS.lc`, `SYS.done` and `SYS.cfg_err` (R25); it changes nothing (R74). -/
def readSys (i : ChanInst) : BitVec 3 × Bool × BitVec 4 := (lcCode i.lc, i.done, i.cfgErr)

/-- The receiver's completion: the conjunction of the two `SYS.done` bits (R325), so it stays false while one channel is
never loaded. A receiver with one instance (R324) is read as such a receiver, and its completion is the present instance's
own `SYS.done`, not this (DESIGN CHOICE, log entry 29). -/
def receiverDone (s : State) : Bool := s.a.done && s.b.done

/-! ### Internal buffers (R71) -/

/-- `MemRead(buf, i, n)`: the elements `buf[i], ..., buf[i+n-1]`; a never-written element or an index the buffer does
not have is a fault (R71, R359). -/
def memRead {α : Type} (nm : BufName) (buf : Buffer α) (i : Nat) : Nat → Except Fault (List α)
  | 0 => .ok []
  | n + 1 =>
    match buf[i]? with
    | none => .error (.outOfRange nm i)
    | some none => .error (.unwritten nm i)
    | some (some v) =>
      match memRead nm buf (i + 1) n with
      | .error f => .error f
      | .ok l => .ok (v :: l)

/-- `MemWrite(buf, i, 1, v)`. -/
def memWrite {α : Type} (nm : BufName) (buf : Buffer α) (i : Nat) (v : α) : Except Fault (Buffer α) :=
  if i < buf.length then .ok (buf.set i (some v)) else .error (.outOfRange nm i)

/-- `shift_in(dl, v)` (R71): every element moves one place up, `v` enters at 0, the last one is dropped. -/
def shiftIn {α : Type} (dl : List α) (v : α) : List α := (v :: dl).take dl.length

/-! ### Channels and firing -/

/-- The tokens of a port that stand in its channel: at most its capacity (R45). -/
def inChannel {α : Type} (depth : Nat) (port : List α) : List α := port.take depth

/-- The tokens of a port that its producer is still handing over: the rest of one burst longer than the channel, which
enters it as the consumer takes (DESIGN CHOICE, log entry 13). -/
def inHand {α : Type} (depth : Nat) (port : List α) : List α := port.drop depth

/-- R9: room for `k` more tokens on a port whose channel has the capacity `depth`. A burst longer than the whole channel
starts being handed over when the channel is empty (DESIGN CHOICE, log entry 13); until all of it has entered, `fireUnit`
lets the unit fire nothing. -/
def hasRoom {α : Type} (depth : Nat) (port : List α) (k : Nat) : Bool :=
  (inChannel depth port).length + k ≤ depth || port.isEmpty

/-- R312: unit operations are enabled in RUNNING and DRAINING, and only there. -/
def unitsEnabled (i : ChanInst) : Bool := i.lc == .running || i.lc == .draining

/-- One firing of a unit (R9): the unit is enabled and holds no part of an earlier burst in hand (until all of it has
entered the channel the unit fires no operation, not even one that emits nothing: DESIGN CHOICE, log entry 13), `sel`
accepts the token at the head of its input channel, the operation maps the token to the unit's next registers and the
tokens it emits, and the output channel has room for all of them; then the token is taken and every write happens
together (R12, R74). Otherwise the unit waits. -/
def fireUnit {τ υ ω : Type} (i : ChanInst) (inp : List τ) (sel : τ → Bool) (op : τ → Except Fault (υ × List ω))
    (depth : Nat) (port : List ω) (commit : List τ → υ → List ω → ChanInst) : Fire ChanInst :=
  if unitsEnabled i && (inHand depth port).isEmpty then
    match inp with
    | [] => .wait
    | x :: rest =>
      if sel x then
        match op x with
        | .error f => .fault f
        | .ok (u, out) => if hasRoom depth port out.length then .done (commit rest u out) else .wait
      else .wait
  else .wait

/-- The step of the receiver that one instance's firing makes; an agent that waits changes nothing. -/
def onInst (c : Chan) (f : ChanInst → Fire ChanInst) (s : State) : Outcome :=
  match f (s.inst c) with
  | .wait => .next s
  | .fault e => .fault e
  | .done i => .next (s.setInst c i)

/-- A host signal is taken when it is the next one pending; an operation whose signal is not pending does nothing.
What the signal does is `k` (which ignores it in a state without an arc, R312). -/
def takeSignal (want : Signal) (k : State → State) (s : State) : Outcome :=
  match s.signals with
  | [] => .next s
  | g :: rest => if g = want then .next (k { s with signals := rest }) else .next s

/-! ### Events (R107, R342) -/

/-- `raise EV(info)`: one event record on DIAG when `CFG.verbosity >= V_DIAG`, nothing otherwise (R14, R342). R107 gives
`info` 64 bits; a number of 2^64 or more, which an unbounded FRAME_MAX_BITS (R7, R352) allows, is taken modulo 2^64
(DESIGN CHOICE, log entry 32). -/
def raiseEvent (i : ChanInst) (code : BitVec 4) (opid : BitVec 8) (info : Nat) : List Event :=
  if i.par.vDiag ≤ i.cfg.verbosity.toNat then
    [{ code := code, designator := i.cfg.designator, opid := opid, info := BitVec.ofNat 64 info }]
  else []

/-- `raise_always EV_CFG_ERROR(info)` (R310, R342): whatever the verbosity, with the offered record's designator, as R342
says; R107 says a copy of `CFG.designator` (DEDUCED, log entry 30). -/
def raiseAlways (r : CfgRec) (code : BitVec 4) (opid : BitVec 8) (info : Nat) : List Event :=
  [{ code := code, designator := r.designator, opid := opid, info := BitVec.ofNat 64 info }]

/-- `EV_CFG_ERROR` (60_exceptions.md R341). -/
def evCfgError : BitVec 4 := 1

/-- `EV_CRC_FAIL` (R341). -/
def evCrcFail : BitVec 4 := 2

/-- `EV_FRAME_OVERRUN` (R341). -/
def evFrameOverrun : BitVec 4 := 3

/-- Event records leaving on DIAG in the order in which they are raised (R342). -/
def Observed.emitDiag (o : Observed) (l : List Event) : Observed := { o with diag := o.diag ++ l }

end Sys2Proof.Machine
end

