-- ==== Sys2Proof/Machine/Flags.lean ====
section
/-! DEFINITION. The one-bit conditions of 10_state.md R26 that are computed from bits: the two tag bits of the
correlators (45_frame_delimiter.md R251, R252), the training hit (43_demod_noncoherent.md R220), and the CRC register
with its acceptance test (47_frame_parser_crc.md R285, R287). The constants are those of 30_encoding.md R110 to R112. -/

namespace Sys2Proof.Machine

open Sys2Proof

/-- `PREAMBLE` (R110): "1010101010101010", the newest bit in bit 0. -/
def preamblePattern : BitVec 16 := 0xAAAA

/-- `FLAG` (R111): "01111110". -/
def flagPattern : BitVec 8 := 0x7E

/-- The correlators' shift register after one more bit (R251): `((sr << 1) | b) & 0xFFFF`. -/
def srNext (sr : BitVec 16) (b : Bool) : BitVec 16 := (sr <<< 1) ||| (if b then 1 else 0)

/-- The preamble tag bit `p` (R251): at least 16 bits received since reset and all sixteen equal. -/
def preambleTag (cnt : Nat) (sr : BitVec 16) : Bool := 16 ≤ cnt && sr == preamblePattern

/-- The flag tag bit `f` (R251): at least 8 bits received since reset and the newest eight equal. -/
def flagTag (cnt : Nat) (sr : BitVec 16) : Bool := 8 ≤ cnt && sr.extractLsb' 0 8 == flagPattern

/-- The training correlator's hit bit (R220): an exact match over `plen` symbols received since reset. -/
def trainHit (plen pattern cnt sr : Nat) : Bool := plen ≤ cnt && sr == pattern

/-- `CRC_POLY` (R112), the tap word of the reflected register. -/
def crcPoly : BitVec 16 := 0x8408

/-- `CRC_INIT` (R112). -/
def crcInit : BitVec 16 := 0xFFFF

/-- `CRC_GOOD` (R112). -/
def crcGood : BitVec 16 := 0xF0B8

/-- `crc_step(reg, b)` (R285): shift right with zero fill, then the taps when bit 0 differs from `b`. -/
def crcStep (reg : BitVec 16) (b : Bool) : BitVec 16 :=
  if (reg.getLsbD 0 ^^ b) then (reg >>> 1) ^^^ crcPoly else reg >>> 1

/-- The register after a sequence of bits, the first received first. -/
def crcRun (reg : BitVec 16) (bits : List Bool) : BitVec 16 := bits.foldl crcStep reg

/-- The acceptance test at EOF (R284, R287). -/
def crcAccepts (flen : Nat) (crc : BitVec 16) : Bool := 16 ≤ flen && crc == crcGood

end Sys2Proof.Machine
end

