-- ==== Sys2Proof/Machine/Operands.lean ====
section
/-! DEFINITION. The operands that are not tokens: the values derived once from CFG and the parameters (30_encoding.md
R113), the lookups in the parameter tables, and the serial form of a record (R108, R116). CFG and the parameters are
constant between CFG.LOAD and the next reset (R24, R84), so a derived value is a function of them and needs no
register. -/

namespace Sys2Proof.Machine

open Sys2Proof

/-- `FS = CFG.sample_rate / CFG.decim` (00_scope.md R6); CFG.LOAD admits exact quotients only (R311). -/
def fsOf (r : CfgRec) : Nat := r.sampleRate.toNat / r.decim.toNat

/-- `SPS = FS / RS` (R6), a rational number. -/
def spsOf (r : CfgRec) : Scalar := .rat ((fsOf r : Rat) / (Config.symbolRate : Rat))

/-- `Q*RS`, the rate the decomposition needs (41_demod_coherent.md R156). -/
def wantedRate (p : Params) : Nat := p.q * Config.symbolRate

/-- `g = gcd(Q*RS, FS)` (R156). -/
def rsmpG (p : Params) (r : CfgRec) : Nat := Nat.gcd (wantedRate p) (fsOf r)

/-- The interpolation factor `L = Q*RS/g` (R156). -/
def rsmpL (p : Params) (r : CfgRec) : Nat := wantedRate p / rsmpG p r

/-- The decimation factor `M = FS/g` (R156). -/
def rsmpM (p : Params) (r : CfgRec) : Nat := fsOf r / rsmpG p r

/-- `RSMP_H = ceil(RSMP_NT / L)` (10_state.md R29). -/
def rsmpH (p : Params) (r : CfgRec) : Nat := (p.rsmpTaps.length + rsmpL p r - 1) / rsmpL p r

/-- `den` of R151, rounded like every value with a name of its own (log entry 2). -/
def costasDen (p : Params) : Scalar :=
  quant p.numerics
    (((Scalar.rat 1).add (((Scalar.rat 2).mul p.costasDamp).mul p.costasBw)).add (p.costasBw.mul p.costasBw))

/-- The loop gain `alpha` (R151). -/
def costasAlpha (p : Params) : Scalar :=
  quant p.numerics ((((Scalar.rat 4).mul p.costasDamp).mul p.costasBw).div (costasDen p))

/-- The loop gain `beta` (R151). -/
def costasBeta (p : Params) : Scalar :=
  quant p.numerics ((((Scalar.rat 4).mul p.costasBw).mul p.costasBw).div (costasDen p))

/-- `OM_LO = SPS*(1 - orl)` (43_demod_noncoherent.md R217). -/
def omLo (p : Params) (r : CfgRec) : Scalar := quant p.numerics ((spsOf r).mul ((Scalar.rat 1).sub r.omegaRel))

/-- `OM_HI = SPS*(1 + orl)` (R217). -/
def omHi (p : Params) (r : CfgRec) : Scalar := quant p.numerics ((spsOf r).mul ((Scalar.rat 1).add r.omegaRel))

/-- `QD_GAIN` (R212): the stated real, or the reference `SPS/(pi/2)`. -/
def qdGainOf (p : Params) (r : CfgRec) : Scalar :=
  match p.qdGain with
  | .value g => g
  | .reference => quant p.numerics ((spsOf r).div (Scalar.pi.div (.rat 2)))

/-- `PD(y)` (R153). -/
def phaseDetect (p : Params) (y : Cpx) : Scalar :=
  match p.pd with
  | .reference => quant p.numerics (y.re.mul y.im)
  | .custom k => quant p.numerics (Config.customPd k y)

/-- `T[i]` (R157): the prototype tap, complex (DESIGN CHOICE, log entry 33), 0 beyond the table. -/
def rsmpTap (p : Params) (i : Nat) : Cpx := p.rsmpTaps.getD i Cpx.zero

/-- `NS[s][i]` (42_viterbi.md R191). -/
def nextState (f : Fsm) (s : Nat) (i : Bool) : Nat :=
  let e := f.ns.getD s (0, 0)
  if i then e.2 else e.1

/-- `OS[s][i]` (R191). -/
def outputOf (f : Fsm) (s : Nat) (i : Bool) : Nat :=
  let e := f.os.getD s (0, 0)
  if i then e.2 else e.1

/-- `CONST[o][0..C-1]` (R191). -/
def constVec (p : Params) (o : Nat) : List Cpx := p.const.getD o []

/-- A training symbol as a real (R222). -/
def signValue : Sign → Scalar
  | .plus => .rat 1
  | .minus => .rat (-1)

/-- The bits of a word, the most significant first. -/
def bitsMsbFirst {w : Nat} (v : BitVec w) : List Bool :=
  (List.range w).map (fun k => v.getMsbD k)

/-- The serial form of a record (R108, R116): its fields in R108's order, `nbits` before the payload. R108 gives the
order of the fields; a field's own bits stand most significant first (DESIGN CHOICE, log entry 14). -/
def serialRecord (r : Rec) : List Bool :=
  bitsMsbFirst r.designator ++ [r.crcValid] ++ bitsMsbFirst r.nbits ++ r.payload ++ [r.hasCoords]
    ++ bitsMsbFirst r.lat ++ bitsMsbFirst r.lon ++ bitsMsbFirst r.verbosity

end Sys2Proof.Machine
end

