-- ==== Sys2Proof/Machine/SystemOps.lean ====
section
/-! DEFINITION. Configuration, life cycle, host and queue operations (48_system_ops.md; SYS.RESET from
70_reset_and_hazards.md R380; OUT.PUSH from 47_frame_parser_crc.md R293): OPIDs 0x01 to 0x0A. -/

namespace Sys2Proof.Machine

open Sys2Proof

/-! ### SYS.RESET -/

/-- R380: every register, buffer and channel of one instance takes its reset value; its parameters and what has left
on the observer ports stay (R20, R386), and so does Q (R381). -/
def resetInst (i : ChanInst) : ChanInst := ChanInst.reset i.par i.obs

/-- R380, R381: one instance's reset, or the receiver's, which resets both instances and empties Q. -/
def applyReset (t : Target) (s : State) : State :=
  match t with
  | .chan c => s.setInst c (resetInst (s.inst c))
  | .receiver => { s with a := resetInst s.a, b := resetInst s.b, q := [] }

/-- SYS.RESET (R380): accepted in every state of `SYS.lc`. -/
def execSysReset (t : Target) (s : State) : Outcome := takeSignal (.reset t) (applyReset t) s

/-! ### CFG.LOAD -/

/-- `CE_RATE` (R311). -/
def rateBad (r : CfgRec) : Bool :=
  r.sampleRate == 0 || r.decim == 0 || r.sampleRate.toNat % r.decim.toNat != 0

/-- `CE_TIMING` (R311). -/
def timingBad (r : CfgRec) : Bool :=
  !r.coherent && (r.gainMu.lt (.rat 0) || r.gainOmega.lt (.rat 0) || r.omegaRel.lt (.rat 0)
    || (Scalar.rat 1).le r.omegaRel || ((spsOf r).mul ((Scalar.rat 1).sub r.omegaRel)).lt (.rat 1))

/-- `first_failed_check` (R311): the code of R343 of the first check that fails, 0 when all pass. -/
def cfgCheck (p : Params) (r : CfgRec) : BitVec 4 :=
  if r.symbolRate ≠ 9600 then 1
  else if rateBad r then 2
  else if r.fftlen = 0 then 3
  else if r.designator ≠ 0x41 ∧ r.designator ≠ 0x42 then 4
  else if !r.coherent && !p.hasNc then 5
  else if timingBad r then 6
  else if r.coherent && !p.coherentWf then 7
  else 0

/-- An accepted CFG.LOAD (R310): CFG takes the record (`symbol_rate` is hard-wired, R23) and everything that
R113 derives from it is fixed: the sizes of `CS.buf` and `RSMP.hist`, and `CR.omega = SPS` (R380, log entry 12). -/
def configure (r : CfgRec) (i : ChanInst) : ChanInst :=
  { i with
    cfg := { r with symbolRate := 9600 }
    cs := { i.cs with buf := List.replicate r.fftlen.toNat none }
    rsmp := { i.rsmp with hist := List.replicate (rsmpH i.par r) Cpx.zero }
    cr := { i.cr with omega := quant i.par.numerics (spsOf r) }
    cfgErr := 0
    lc := .ready }

/-- A refused CFG.LOAD (R310, R350): no CFG register is written. -/
def refuseConfig (e : BitVec 4) (r : CfgRec) (i : ChanInst) : ChanInst :=
  { i with cfgErr := e, lc := .cfgError, obs := i.obs.emitDiag (raiseAlways r evCfgError 0x02 e.toNat) }

/-- R310, R312: a load acts in UNCONFIGURED only and is ignored elsewhere. -/
def loadInst (r : CfgRec) (i : ChanInst) : ChanInst :=
  if i.lc = .unconfigured then
    (if cfgCheck i.par r = 0 then configure r i else refuseConfig (cfgCheck i.par r) r i)
  else i

/-- CFG.LOAD (R310): the pending `load` signal carries the record. -/
def execCfgLoad (c : Chan) (s : State) : Outcome :=
  match s.signals with
  | .load c' r :: rest =>
    if c' = c then .next ({ s with signals := rest }.setInst c (loadInst r (s.inst c))) else .next s
  | _ => .next s

/-! ### SYS.START, SYS.STOP, SRC.EOS -/

/-- R313: READY to RUNNING; it initialises nothing. -/
def startInst (i : ChanInst) : ChanInst := if i.lc = .ready then { i with lc := .running } else i

/-- R315, R317: RUNNING to DRAINING. -/
def drainInst (i : ChanInst) : ChanInst := if i.lc = .running then { i with lc := .draining } else i

/-- SYS.START (R313). -/
def execSysStart (t : Target) (s : State) : Outcome := takeSignal (.start t) (onTarget t startInst) s

/-- SYS.STOP (R317). -/
def execSysStop (t : Target) (s : State) : Outcome := takeSignal (.stop t) (onTarget t drainInst) s

/-- SRC.EOS (R315). -/
def execSrcEos (t : Target) (s : State) : Outcome := takeSignal (.eos t) (onTarget t drainInst) s

/-! ### SRC.SAMPLE -/

/-- R314: a sample is accepted in RUNNING while `S_IN` has room. -/
def sampleEnabled (i : ChanInst) : Bool := i.lc == .running && i.ch.sIn.length < i.par.depth.sIn

/-- SRC.SAMPLE (R314): the offered sample enters `S_IN`; one that is not accepted "remains the source's". -/
def execSrcSample (c : Chan) (s : State) : Outcome :=
  match s.offers c with
  | [] => .next s
  | z :: rest =>
    if sampleEnabled (s.inst c) then
      .next ((s.setOffers c rest).setInst c
        { s.inst c with ch := { (s.inst c).ch with sIn := (s.inst c).ch.sIn ++ [z] } })
    else .next s

/-! ### SYS.DRAINED -/

/-- R319: every channel `S_IN ... R_OUT` of the instance is empty. -/
def channelsEmpty (c : Channels) : Bool := c == Channels.empty

/-- R319: DRAINING to DONE, the completion flag set. -/
def drainedInst (i : ChanInst) : Fire ChanInst :=
  if i.lc = .draining ∧ channelsEmpty i.ch = true then .done { i with lc := .done, done := true } else .wait

/-- SYS.DRAINED (R319). -/
def execSysDrained (c : Chan) (s : State) : Outcome := onInst c drainedInst s

/-! ### The queue -/

/-- Q.POP (R322): waits while Q is empty; the head record is the consumer's. -/
def execQPop (s : State) : Outcome :=
  match s.requests, s.q with
  | .pop :: rest, r :: q' => .next { s with requests := rest, q := q', popped := s.popped ++ [r] }
  | _, _ => .next s

/-- Q.EMPTY (R323): answers at once and changes nothing in Q. -/
def execQEmpty (s : State) : Outcome :=
  match s.requests with
  | .empty :: rest => .next { s with requests := rest, answers := s.answers ++ [s.q.isEmpty] }
  | _ => .next s

/-- R293: `len(Q) < QDEPTH`. -/
def queueHasRoom (s : State) : Bool :=
  match s.qdepth with
  | none => true
  | some d => s.q.length < d

/-- OUT.PUSH (R293): the record at the head of `R_OUT` is appended to Q; it waits while Q is full. -/
def execOutPush (c : Chan) (s : State) : Outcome :=
  match (s.inst c).ch.rOut with
  | [] => .next s
  | r :: rest =>
    if unitsEnabled (s.inst c) && queueHasRoom s then
      .next ({ s with q := s.q ++ [r] }.setInst c
        { s.inst c with ch := { (s.inst c).ch with rOut := rest } })
    else .next s

end Sys2Proof.Machine
end

