-- ==== Sys2Proof/Machine/Carrier.lean ====
section
/-! DEFINITION. The carrier offset estimator and corrector, unit CS (40_carrier_sync.md): CS.STEP. -/

namespace Sys2Proof.Machine

open Sys2Proof

/-- R132: `s[n] = buf[n] * buf[n]`. -/
def squareBlock (n : Numerics) (blk : List Cpx) : List Cpx := blk.map (fun z => quantC n (cmul z z))

/-- The terms `n, n+1, ...` of `sum_n s[n] * exp(-j*w*n)` (R133). -/
def dftFrom (w : Scalar) : Nat → List Cpx → Cpx
  | _, [] => Cpx.zero
  | k, x :: rest => cadd (cmul x (cexp (w.mul (.rat k)).neg)) (dftFrom w (k + 1) rest)

/-- `S[m]` (R133): the forward transform of the block, not normalised, no window, rounded like every value with a name
of its own (log entry 2). -/
def dftBin (n : Numerics) (sq : List Cpx) (m : Nat) : Cpx :=
  quantC n (dftFrom ((twoPi.mul (.rat m)).div (.rat sq.length)) 0 sq)

/-- `M[m] = |S[m]|` (R133). -/
def magnitude (n : Numerics) (z : Cpx) : Scalar := quant n (cabs z)

/-- The magnitudes for `m = 0..N-1` (R133). -/
def spectrum (n : Numerics) (sq : List Cpx) : List Scalar :=
  (List.range sq.length).map (fun m => magnitude n (dftBin n sq m))

/-- The signed bin `kstar` (R135). -/
def signedBin (m n : Nat) : Int := if 2 * m < n then (m : Int) else (m : Int) - (n : Int)

/-- `f2 = kstar*FS/N` (R135), rounded like every value with a name of its own (log entry 2). -/
def squaredFreq (p : Params) (fs : Nat) (m n : Nat) : Scalar :=
  quant p.numerics (.rat (((signedBin m n : Int) : Rat) * (fs : Rat) / (n : Rat)))

/-- `fhat = estimate(mstar)` (R135), `fs` the sample rate. -/
def freqEstimate (p : Params) (fs : Nat) (m n : Nat) : Scalar :=
  quant p.numerics (((squaredFreq p fs m n).sub p.csPeakBias).div (.rat 2))

/-- The estimate of a completed block (R132 to R135). -/
def blockEstimate (p : Params) (fs : Nat) (blk : List Cpx) : Scalar :=
  freqEstimate p fs (argmaxLowest (spectrum p.numerics (squareBlock p.numerics blk))) blk.length

/-- `dphi = -2*pi*fhat/FS` (R136). -/
def phaseStep (p : Params) (fs : Nat) (fhat : Scalar) : Scalar :=
  quant p.numerics ((twoPi.mul fhat).div (.rat fs)).neg

/-- R136: each sample is rotated by the current phase, and the phase is advanced afterwards. -/
def rotateBlock (n : Numerics) (dphi : Scalar) : Scalar → List Cpx → List Cpx × Scalar
  | ph, [] => ([], ph)
  | ph, z :: rest =>
    let r := rotateBlock n dphi (quant n (wrap (ph.add dphi))) rest
    (quantC n (cmul z (cexp ph)) :: r.1, r.2)

/-- A completed block (R131): the corrected samples and the registers after it. -/
def completeBlock (p : Params) (r : CfgRec) (u : CsRegs) (buf : Buffer Cpx) (blk : List Cpx) :
    CsRegs × List Cpx :=
  let fhat := blockEstimate p (fsOf r) blk
  let rot := rotateBlock p.numerics (phaseStep p (fsOf r) fhat) u.phase blk
  ({ buf := buf, fill := 0, phase := rot.2, fest := fhat }, rot.1)

/-- CS.STEP on one token (R131). -/
def csOp (p : Params) (r : CfgRec) (u : CsRegs) (x : Cpx) : Except Fault (CsRegs × List Cpx) :=
  match memWrite .csBuf u.buf u.fill x with
  | .error f => .error f
  | .ok buf =>
    if u.fill + 1 < r.fftlen.toNat then .ok ({ u with buf := buf, fill := u.fill + 1 }, [])
    else
      match memRead .csBuf buf 0 r.fftlen.toNat with
      | .error f => .error f
      | .ok blk => .ok (completeBlock p r u buf blk)

/-- CS.STEP as a firing: takes from `S_IN`, emits on `CS_OUT` (R101). -/
def csFire (i : ChanInst) : Fire ChanInst :=
  fireUnit i i.ch.sIn (fun _ => true) (csOp i.par i.cfg i.cs) i.par.depth.csOut i.ch.csOut
    (fun rest u out => { i with cs := u, ch := { i.ch with sIn := rest, csOut := i.ch.csOut ++ out } })

/-- CS.STEP (R131). -/
def execCsStep (c : Chan) (s : State) : Outcome := onInst c csFire s

end Sys2Proof.Machine
end

