-- ==== Sys2Proof/Machine/Coherent.lean ====
section
/-! DEFINITION. The coherent demodulator's front end (41_demod_coherent.md): COSTAS.STEP, RSMP.STEP, MF.STEP,
ILV.STEP. They take tokens when `CFG.coherent` = 1 (R316). -/

namespace Sys2Proof.Machine

open Sys2Proof

/-! ### COSTAS -/

/-- `clamp(v, -COSTAS_WMAX, +COSTAS_WMAX)` (R152); the identity for `+inf`. It is applied to the rounded value, so that
the bound holds in every number format (log entry 2). -/
def clampOmega (p : Params) (v : Scalar) : Scalar :=
  match p.costasWmax with
  | none => v
  | some w => if v.lt w.neg then w.neg else if w.lt v then w else v

/-- COSTAS.STEP on one token (R152): de-rotate, detect, update the frequency, then the phase with the new
frequency. -/
def costasOp (p : Params) (u : CostasRegs) (x : Cpx) : Except Fault (CostasRegs × List Cpx) :=
  let y := quantC p.numerics (cmul x (cexp u.theta.neg))
  let e := phaseDetect p y
  let w := clampOmega p (quant p.numerics (u.omega.add ((costasBeta p).mul e)))
  .ok ({ theta := quant p.numerics (wrap ((u.theta.add w).add ((costasAlpha p).mul e))), omega := w }, [y])

/-- COSTAS.STEP as a firing: takes from `CS_OUT` when `CFG.coherent` = 1, emits on `K1`. -/
def costasFire (i : ChanInst) : Fire ChanInst :=
  fireUnit i i.ch.csOut (fun _ => i.cfg.coherent) (costasOp i.par i.costas) i.par.depth.k1 i.ch.k1
    (fun rest u out => { i with costas := u, ch := { i.ch with csOut := rest, k1 := i.ch.k1 ++ out } })

/-- COSTAS.STEP (R152). -/
def execCostasStep (c : Chan) (s : State) : Outcome := onInst c costasFire s

/-! ### RSMP -/

/-- `sum_q T[n + q*L] * hist[q]` (R158), from the entry `n` on. -/
def tapSum (p : Params) (l : Nat) : Nat → List Cpx → Cpx
  | _, [] => Cpx.zero
  | n, h :: rest => cadd (cmul (rsmpTap p n) h) (tapSum p l (n + l) rest)

/-- The loop of R158, `while n < L`: the outputs and the last `n`. `fuel` bounds the number of turns; `L` of them
are enough, since `M >= 1`. -/
def rsmpLoop (p : Params) (l m : Nat) (hist : List Cpx) : Nat → Nat → List Cpx × Nat
  | 0, n => ([], n)
  | fuel + 1, n =>
    if n < l then
      let r := rsmpLoop p l m hist fuel (n + m)
      (quantC p.numerics (tapSum p l n hist) :: r.1, r.2)
    else ([], n)

/-- RSMP.STEP on one token (R158). -/
def rsmpOp (p : Params) (r : CfgRec) (u : RsmpRegs) (x : Cpx) : Except Fault (RsmpRegs × List Cpx) :=
  let hist := shiftIn u.hist x
  let out := rsmpLoop p (rsmpL p r) (rsmpM p r) hist (rsmpL p r) u.nxt
  .ok ({ hist := hist, nxt := out.2 - rsmpL p r }, out.1)

/-- RSMP.STEP as a firing: takes from `K1`, emits on `K2`. -/
def rsmpFire (i : ChanInst) : Fire ChanInst :=
  fireUnit i i.ch.k1 (fun _ => i.cfg.coherent) (rsmpOp i.par i.cfg i.rsmp) i.par.depth.k2 i.ch.k2
    (fun rest u out => { i with rsmp := u, ch := { i.ch with k1 := rest, k2 := i.ch.k2 ++ out } })

/-- RSMP.STEP (R158). -/
def execRsmpStep (c : Chan) (s : State) : Outcome := onInst c rsmpFire s

/-! ### MF -/

/-- `z[i] = sum_t MF_TAPS[i][t] * dl[t]` for every component (R164). -/
def filterBank (p : Params) (dl : List Cpx) : List Cpx :=
  p.mfTaps.map (fun taps => quantC p.numerics (cdot taps dl))

/-- MF.STEP on one token (R164). -/
def mfOp (p : Params) (u : MfRegs) (x : Cpx) : Except Fault (MfRegs × List (List Cpx)) :=
  let dl := shiftIn u.dl x
  .ok ({ dl := dl, ph := (u.ph + 1) % p.q }, if u.ph = 0 then [filterBank p dl] else [])

/-- MF.STEP as a firing: takes from `K2`, emits on `K3`. -/
def mfFire (i : ChanInst) : Fire ChanInst :=
  fireUnit i i.ch.k2 (fun _ => i.cfg.coherent) (mfOp i.par i.mf) i.par.depth.k3 i.ch.k3
    (fun rest u out => { i with mf := u, ch := { i.ch with k2 := rest, k3 := i.ch.k3 ++ out } })

/-- MF.STEP (R164). -/
def execMfStep (c : Chan) (s : State) : Outcome := onInst c mfFire s

/-! ### ILV -/

/-- ILV.STEP as a firing (R170): takes a vector from `K3`, emits its components on `V_IN`, component 0 first. -/
def ilvFire (i : ChanInst) : Fire ChanInst :=
  fireUnit i i.ch.k3 (fun _ => i.cfg.coherent) (fun z => .ok ((), z)) i.par.depth.vIn i.ch.vIn
    (fun rest _ out => { i with ch := { i.ch with k3 := rest, vIn := i.ch.vIn ++ out } })

/-- ILV.STEP (R170). -/
def execIlvStep (c : Chan) (s : State) : Outcome := onInst c ilvFire s

end Sys2Proof.Machine
end

