-- ==== Sys2Proof/Machine/Viterbi.lean ====
section
/-! DEFINITION. The Viterbi maximum-likelihood sequence decoder, unit VIT (42_viterbi.md): VIT.STEP. Nothing but
VIT.STEP and SYS.RESET writes its registers (R200). -/

namespace Sys2Proof.Machine

open Sys2Proof

/-- `sum_c |r[c] - k[c]|^2` over the components (R193). -/
def distance : List Cpx → List Cpx → Scalar
  | x :: xs, k :: ks => (normSq (csub x k)).add (distance xs ks)
  | _, _ => .rat 0

/-- The branch metric `bm(r, s, i)` (R193). -/
def branchMetric (p : Params) (r : List Cpx) (s : Nat) (i : Bool) : Scalar :=
  quant p.numerics (distance r (constVec p (outputOf p.fsm s i)))

/-- The scan order of R192: states ascending, inputs ascending. -/
def branchList (nstates : Nat) : List (Nat × Bool) :=
  (List.range nstates).flatMap (fun s => [(s, false), (s, true)])

/-- One candidate of add-compare-select (R192, R194): the strict comparison keeps the first of equal candidates. -/
def acsStep (p : Params) (r : List Cpx) (pm : List Metric) (acc : List Metric × Column) (br : Nat × Bool) :
    List Metric × Column :=
  let cand := metricAdd p.numerics (pm.getD br.1 .inf) (branchMetric p r br.1 br.2)
  let sp := nextState p.fsm br.1 br.2
  if metricLt cand (acc.1.getD sp .inf) then (acc.1.set sp cand, acc.2.set sp (some br)) else acc

/-- Add-compare-select over all branches (R192, R194): the new metrics before normalisation, and the survivors. -/
def addCompareSelect (p : Params) (r : List Cpx) (pm : List Metric) : List Metric × Column :=
  (branchList p.fsm.nstates).foldl (acsStep p r pm)
    (List.replicate p.fsm.nstates .inf, List.replicate p.fsm.nstates none)

/-- Normalisation (R195): the least new metric is subtracted from all of them. -/
def normalise (n : Numerics) (l : List Metric) : List Metric :=
  l.map (fun m => metricSub n m (l.getD (argminMetric l) .inf))

/-- Survivor memory (R192, R196): the newest column is appended and the oldest dropped beyond `VIT_TB`. -/
def pushColumn (tb : Nat) (sv : List Column) (col : Column) : List Column :=
  if tb < (sv ++ [col]).length then (sv ++ [col]).drop 1 else sv ++ [col]

/-- The walk of R197 over the columns newest first: back through `prev_state`, and the `input` of the oldest
column's entry. -/
def traceback : List Column → Nat → Except Fault Bool
  | [], _ => .error .noSurvivor
  | col :: older, s =>
    match col.getD s none with
    | none => .error .noSurvivor
    | some e => if older.isEmpty then .ok e.2 else traceback older e.1

/-- The decision of R197: nothing until `VIT_TB` columns are held, then one bit from the best state. -/
def emitDecision (tb : Nat) (sv : List Column) (pm : List Metric) : Except Fault (List Bool) :=
  if sv.length = tb then
    match traceback sv.reverse (argminMetric pm) with
    | .error f => .error f
    | .ok b => .ok [b]
  else .ok []

/-- A completed trellis step (R192) with the received vector `r`. -/
def trellisStep (p : Params) (u : VitRegs) (vbuf : Buffer Cpx) (r : List Cpx) :
    Except Fault (VitRegs × List Bool) :=
  if p.fsm.wf && u.pm.length == p.fsm.nstates then
    let acs := addCompareSelect p r u.pm
    let pm := normalise p.numerics acs.1
    let sv := pushColumn p.vitTb u.sv acs.2
    match emitDecision p.vitTb sv pm with
    | .error f => .error f
    | .ok out => .ok ({ vbuf := vbuf, vcnt := 0, pm := pm, sv := sv }, out)
  else .error .trellisTables

/-- VIT.STEP on one token (R192). -/
def vitOp (p : Params) (u : VitRegs) (v : Cpx) : Except Fault (VitRegs × List Bool) :=
  match memWrite .vitVbuf u.vbuf u.vcnt v with
  | .error f => .error f
  | .ok vbuf =>
    if u.vcnt + 1 < p.c then .ok ({ u with vbuf := vbuf, vcnt := u.vcnt + 1 }, [])
    else
      match memRead .vitVbuf vbuf 0 p.c with
      | .error f => .error f
      | .ok r => trellisStep p u vbuf r

/-- VIT.STEP as a firing: takes from `V_IN`, emits on `HB`. -/
def vitFire (i : ChanInst) : Fire ChanInst :=
  fireUnit i i.ch.vIn (fun _ => i.cfg.coherent) (vitOp i.par i.vit) i.par.depth.hb i.ch.hb
    (fun rest u out => { i with vit := u, ch := { i.ch with vIn := rest, hb := i.ch.hb ++ out } })

/-- VIT.STEP (R192). -/
def execVitStep (c : Chan) (s : State) : Outcome := onInst c vitFire s

end Sys2Proof.Machine
end

