-- ==== Sys2Proof/Machine/NonCoherent.lean ====
section
/-! DEFINITION. The non-coherent demodulator (43_demod_noncoherent.md): QD.STEP, RRC.STEP, CR.STEP, TCORR.STEP,
DFE.STEP, DFE.RETRAIN, SLICE.STEP. Its units take tokens when `CFG.coherent` = 0 (R231, R316); TCORR and DFE are
present when HAS_DFE. CR and DFE are the spec's reference realisations (R216, R217, R223; log entry 15). -/

namespace Sys2Proof.Machine

open Sys2Proof

/-! ### QD -/

/-- QD.STEP on one token (R211): `d = QD_GAIN * arg(x * conj(QD.prev))`. -/
def qdOp (p : Params) (r : CfgRec) (prev x : Cpx) : Except Fault (Cpx × List Scalar) :=
  .ok (x, [quant p.numerics ((qdGainOf p r).mul (arg (cmul x (conj prev))))])

/-- QD.STEP as a firing: takes from `CS_OUT` when `CFG.coherent` = 0, emits on `N1`. -/
def qdFire (i : ChanInst) : Fire ChanInst :=
  fireUnit i i.ch.csOut (fun _ => !i.cfg.coherent) (qdOp i.par i.cfg i.qdPrev) i.par.depth.n1 i.ch.n1
    (fun rest u out => { i with qdPrev := u, ch := { i.ch with csOut := rest, n1 := i.ch.n1 ++ out } })

/-- QD.STEP (R211). -/
def execQdStep (c : Chan) (s : State) : Outcome := onInst c qdFire s

/-! ### RRC -/

/-- RRC.STEP on one token (R214). -/
def rrcOp (p : Params) (dl : List Scalar) (v : Scalar) : Except Fault (List Scalar × List Scalar) :=
  .ok (shiftIn dl v, [quant p.numerics (dot p.rrcTaps (shiftIn dl v))])

/-- RRC.STEP as a firing: takes from `N1`, emits on `N2`. -/
def rrcFire (i : ChanInst) : Fire ChanInst :=
  fireUnit i i.ch.n1 (fun _ => !i.cfg.coherent) (rrcOp i.par i.rrcDl) i.par.depth.n2 i.ch.n2
    (fun rest u out => { i with rrcDl := u, ch := { i.ch with n1 := rest, n2 := i.ch.n2 ++ out } })

/-- RRC.STEP (R214). -/
def execRrcStep (c : Chan) (s : State) : Outcome := onInst c rrcFire s

/-! ### CR -/

/-- A symbol instant lies between `prev_in` and `s` (R217): the interpolated output and the loop's update. -/
def crSymbol (p : Params) (r : CfgRec) (u : CrRegs) (s : Scalar) : CrRegs × List Scalar :=
  let n := p.numerics
  let out := quant n ((u.prevIn.mul ((Scalar.rat 1).sub u.t)).add (s.mul u.t))
  let mm := quant n (((sgn u.lastOut).mul out).sub ((sgn out).mul u.lastOut))
  let om := ((quant n (u.omega.add (r.gainOmega.mul mm))).max (omLo p r)).min (omHi p r)
  ({ prevIn := s, t := (quant n (((u.t.add om).add (r.gainMu.mul mm)).sub (.rat 1))).max (.rat 0), omega := om, lastOut := out }, [out])

/-- CR.STEP on one token (R217). R218 counts an output for each k with `CR_T0 + k*SPS <= n - 1`; with a fractional `SPS` or
`CR_T0` R217's pseudocode gives one for each k with `CR_T0 + k*SPS < n`, and is followed (DEDUCED, log entry 31). -/
def crOp (p : Params) (r : CfgRec) (u : CrRegs) (s : Scalar) : Except Fault (CrRegs × List Scalar) :=
  if u.t.lt (.rat 1) then .ok (crSymbol p r u s)
  else .ok ({ u with prevIn := s, t := quant p.numerics (u.t.sub (.rat 1)) }, [])

/-- CR.STEP as a firing: takes from `N2`, emits on `N3`. -/
def crFire (i : ChanInst) : Fire ChanInst :=
  fireUnit i i.ch.n2 (fun _ => !i.cfg.coherent) (crOp i.par i.cfg i.cr) i.par.depth.n3 i.ch.n3
    (fun rest u out => { i with cr := u, ch := { i.ch with n2 := rest, n3 := i.ch.n3 ++ out } })

/-- CR.STEP (R217). -/
def execCrStep (c : Chan) (s : State) : Outcome := onInst c crFire s

/-! ### TCORR -/

/-- A value's hard decision: 1 when `v >= 0` (R220, R226). -/
def hardBit (v : Scalar) : Bool := (Scalar.rat 0).le v

/-- TCORR.STEP on one token (R220). -/
def tcorrOp (p : Params) (u : TcorrRegs) (v : Scalar) : Except Fault (TcorrRegs × List RLH) :=
  let sr := (2 * u.sr + (if hardBit v then 1 else 0)) % 2 ^ p.dfeTrainPlen
  let cnt := min (u.cnt + 1) p.dfeTrainPlen
  .ok ({ sr := sr, cnt := cnt }, [{ v := v, hit := trainHit p.dfeTrainPlen p.dfeTrainPattern cnt sr }])

/-- TCORR.STEP as a firing: takes from `N3` when HAS_DFE, emits on `N4`. -/
def tcorrFire (i : ChanInst) : Fire ChanInst :=
  fireUnit i i.ch.n3 (fun _ => !i.cfg.coherent && i.par.hasDfe) (tcorrOp i.par i.tcorr) i.par.depth.n4
    i.ch.n4
    (fun rest u out => { i with tcorr := u, ch := { i.ch with n3 := rest, n4 := i.ch.n4 ++ out } })

/-- TCORR.STEP (R220). -/
def execTcorrStep (c : Chan) (s : State) : Outcome := onInst c tcorrFire s

/-! ### DFE -/

/-- `w[k] + mu*err*x[k]` for every tap (R223). -/
def adaptTaps (n : Numerics) (g : Scalar) : List Scalar → List Scalar → List Scalar
  | w :: ws, x :: xs => quant n (w.add (g.mul x)) :: adaptTaps n g ws xs
  | ws, _ => ws

/-- `body(v)` of R223: the output is formed with the taps from before the update; the reference symbol is the
training symbol while training lasts and the decision after it. -/
def dfeBody (p : Params) (u : DfeRegs) (v : Scalar) : DfeRegs × List Scalar :=
  let n := p.numerics
  let u' := shiftIn u.u v
  let q := quant n ((dot u.wf u').sub (dot u.wb u.d))
  let r := match p.dfeTrainRef[u.tcnt]? with
    | some g => signValue g
    | none => sgn q
  let tc := if u.tcnt < p.dfeTrainRef.length then u.tcnt + 1 else u.tcnt
  let err := quant n (r.sub q)
  ({ wf := adaptTaps n (p.dfeMuF.mul err) u.wf u'
     wb := adaptTaps n (p.dfeMuB.mul err).neg u.wb u.d
     u := u'
     d := shiftIn u.d r
     tcnt := tc }, [q])

/-- R224: the taps and the delay lines to zero, the training restarted. -/
def dfeCleared (u : DfeRegs) : DfeRegs :=
  { wf := List.replicate u.wf.length (.rat 0), wb := List.replicate u.wb.length (.rat 0), u := List.replicate u.u.length (.rat 0),
    d := List.replicate u.d.length (.rat 0), tcnt := 0 }

/-- An operation of DFE as a firing: takes an RLH token whose hit bit is `hit` from `N4`, emits on `N5`. -/
def dfeFire (hit : Bool) (op : ChanInst → Scalar → DfeRegs × List Scalar) (i : ChanInst) : Fire ChanInst :=
  fireUnit i i.ch.n4 (fun t => !i.cfg.coherent && i.par.hasDfe && t.hit == hit) (fun t => .ok (op i t.v))
    i.par.depth.n5 i.ch.n5
    (fun rest u out => { i with dfe := u, ch := { i.ch with n4 := rest, n5 := i.ch.n5 ++ out } })

/-- DFE.STEP (R223), selected by `hit` = 0. -/
def execDfeStep (c : Chan) (s : State) : Outcome :=
  onInst c (dfeFire false (fun i v => dfeBody i.par i.dfe v)) s

/-- DFE.RETRAIN (R224), selected by `hit` = 1: `body(v)` on the zeroed state. -/
def execDfeRetrain (c : Chan) (s : State) : Outcome :=
  onInst c (dfeFire true (fun i v => dfeBody i.par (dfeCleared i.dfe) v)) s

/-! ### SLICE -/

/-- SLICE.STEP as a firing (R227): takes from `N5` when HAS_DFE, else from `N3`; emits on `HB`. -/
def sliceFire (i : ChanInst) : Fire ChanInst :=
  if i.par.hasDfe then
    fireUnit i i.ch.n5 (fun _ => !i.cfg.coherent) (fun v => .ok ((), [hardBit v])) i.par.depth.hb i.ch.hb
      (fun rest _ out => { i with ch := { i.ch with n5 := rest, hb := i.ch.hb ++ out } })
  else
    fireUnit i i.ch.n3 (fun _ => !i.cfg.coherent) (fun v => .ok ((), [hardBit v])) i.par.depth.hb i.ch.hb
      (fun rest _ out => { i with ch := { i.ch with n3 := rest, hb := i.ch.hb ++ out } })

/-- SLICE.STEP (R227). -/
def execSliceStep (c : Chan) (s : State) : Outcome := onInst c sliceFire s

end Sys2Proof.Machine
end

