-- ==== Sys2Proof/Machine/LineDecoder.lean ====
section
/-! DEFINITION. The NRZI line decoder, unit LD (44_line_decoder.md): DIFF.STEP, INV.STEP. -/

namespace Sys2Proof.Machine

open Sys2Proof

/-- DIFF.STEP on one bit (R241): the bit becomes the previous one, and its difference from the old one leaves. -/
def diffOp (prev x : Bool) : Except Fault (Bool × List Bool) := .ok (x, [x ^^ prev])

/-- INV.STEP on one bit (R242). -/
def invBit (y : Bool) : Bool := !y

/-- DIFF.STEP as a firing on the bit `b`: takes from `HB`, emits on `L1`. -/
def diffFire (b : Bool) (i : ChanInst) : Fire ChanInst :=
  fireUnit i i.ch.hb (fun x => x == b) (diffOp i.ldPrev) i.par.depth.l1 i.ch.l1
    (fun rest u out => { i with ldPrev := u, ch := { i.ch with hb := rest, l1 := i.ch.l1 ++ out } })

/-- DIFF.STEP (R241). -/
def execDiffStep (c : Chan) (b : Bool) (s : State) : Outcome := onInst c (diffFire b) s

/-- INV.STEP as a firing on the bit `b` (R242): takes from `L1`, emits the complement on `L2`. -/
def invFire (b : Bool) (i : ChanInst) : Fire ChanInst :=
  fireUnit i i.ch.l1 (fun y => y == b) (fun y => .ok ((), [invBit y])) i.par.depth.l2 i.ch.l2
    (fun rest _ out => { i with ch := { i.ch with l1 := rest, l2 := i.ch.l2 ++ out } })

/-- INV.STEP (R242). -/
def execInvStep (c : Chan) (b : Bool) (s : State) : Outcome := onInst c (invFire b) s

end Sys2Proof.Machine
end

