-- ==== Sys2Proof/Machine/FrameDelimiter.lean ====
section
/-! DEFINITION. The HDLC frame delimiter, unit FD (45_frame_delimiter.md): CORR.STEP, GATE.DATA, GATE.PRE,
GATE.FLAG. W = `PREAMBLE_WINDOW`. -/

namespace Sys2Proof.Machine

open Sys2Proof

/-! ### CORR -/

/-- The correlators' registers after one more bit (R251); the position wraps at `2^POS_W` (U18, log entry 8). -/
def fdNext (p : Params) (u : FdRegs) (b : Bool) : FdRegs :=
  { sr := srNext u.sr b, cnt := min (u.cnt + 1) 16, pos := (u.pos + 1) % 2 ^ p.posW }

/-- The tagged bit CORR.STEP emits (R251, R252). -/
def tagBit (u : FdRegs) (b : Bool) : T3 :=
  { f := flagTag (min (u.cnt + 1) 16) (srNext u.sr b), p := preambleTag (min (u.cnt + 1) 16) (srNext u.sr b), b := b }

/-- The tags that leave on TAG_P and TAG_F (R251, R253), at the position of the bit. -/
def reportTags (o : Observed) (t : T3) (pos : Nat) : Observed :=
  { o with
    tagP := o.tagP ++ (if t.p then [{ pos := pos, name := false }] else [])
    tagF := o.tagF ++ (if t.f then [{ pos := pos, name := true }] else []) }

/-- CORR.STEP as a firing on the bit `b` (R251): takes from `L2`, emits on `TB`. -/
def corrFire (b : Bool) (i : ChanInst) : Fire ChanInst :=
  fireUnit i i.ch.l2 (fun x => x == b) (fun x => .ok (fdNext i.par i.fd x, [tagBit i.fd x])) i.par.depth.tb
    i.ch.tb
    (fun rest u out => { i with
      fd := u
      obs := reportTags i.obs (tagBit i.fd b) i.fd.pos
      ch := { i.ch with l2 := rest, tb := i.ch.tb ++ out } })

/-- CORR.STEP (R251). -/
def execCorrStep (c : Chan) (b : Bool) (s : State) : Outcome := onInst c (corrFire b) s

/-! ### GATE -/

/-- `min(GATE.age + 1, W + 1)` (R256). -/
def ageNext (p : Params) (age : Nat) : Nat := min (age + 1) (p.window + 1)

/-- `hold(b)` (R256): when a frame is open the bit enters the hold-back line, and the oldest held bit leaves it once
seven are held; when none is open the bit is dropped. -/
def hold (u : GateRegs) (b : Bool) : Except Fault (GateRegs × List FT2) :=
  if u.isOpen then
    if u.hbc = 7 then
      match memRead .gateHb u.hb 0 1 with
      | .error f => .error f
      | .ok l => .ok ({ u with hb := u.hb.drop 1 ++ [some b] }, l.map FT2.bit)
    else
      match memWrite .gateHb u.hb u.hbc b with
      | .error f => .error f
      | .ok hb => .ok ({ u with hb := hb, hbc := u.hbc + 1 }, [])
  else .ok (u, [])

/-- GATE.DATA on the bit `b` (R256). -/
def gateDataOp (p : Params) (u : GateRegs) (b : Bool) : Except Fault (GateRegs × List FT2) :=
  hold { u with age := ageNext p u.age } b

/-- GATE.PRE on the bit `b` (R257): the age starts again at 0. -/
def gatePreOp (u : GateRegs) (b : Bool) : Except Fault (GateRegs × List FT2) := hold { u with age := 0 } b

/-- The age after a flag-tagged bit (R258). -/
def flagAge (p : Params) (u : GateRegs) (preamble : Bool) : Nat := if preamble then 0 else ageNext p u.age

/-- GATE.FLAG (R258): an open frame is closed and its held bits dropped; the flag opens a frame when a preamble tag
stands at most W bits before it. -/
def gateFlagOp (p : Params) (u : GateRegs) (preamble : Bool) : Except Fault (GateRegs × List FT2) :=
  .ok ({ u with
         age := flagAge p u preamble
         isOpen := flagAge p u preamble ≤ p.window
         hbc := 0 },
       (if u.isOpen then [FT2.eof] else []) ++ (if flagAge p u preamble ≤ p.window then [FT2.sof] else []))

/-- The GATE operation a token selects (R114, R115(a)). -/
def gateOp (p : Params) (u : GateRegs) (t : T3) : Except Fault (GateRegs × List FT2) :=
  if t.f then gateFlagOp p u t.p else if t.p then gatePreOp u t.b else gateDataOp p u t.b

/-- A GATE operation as a firing on the token `tok`: takes from `TB`, emits on `FT`. -/
def gateFire (tok : T3) (op : ChanInst → Except Fault (GateRegs × List FT2)) (i : ChanInst) : Fire ChanInst :=
  fireUnit i i.ch.tb (fun t => t == tok) (fun _ => op i) i.par.depth.ft i.ch.ft
    (fun rest u out => { i with gate := u, ch := { i.ch with tb := rest, ft := i.ch.ft ++ out } })

/-- GATE.DATA (R256), selected by `f` = 0, `p` = 0. -/
def execGateData (c : Chan) (b : Bool) (s : State) : Outcome :=
  onInst c (gateFire ⟨false, false, b⟩ (fun i => gateDataOp i.par i.gate b)) s

/-- GATE.PRE (R257), selected by `f` = 0, `p` = 1. -/
def execGatePre (c : Chan) (b : Bool) (s : State) : Outcome :=
  onInst c (gateFire ⟨false, true, b⟩ (fun i => gatePreOp i.gate b)) s

/-- GATE.FLAG (R258), selected by `f` = 1 whatever `p` and `b` are (R115(a)). -/
def execGateFlag (c : Chan) (p : Bool) (b : Bool) (s : State) : Outcome :=
  onInst c (gateFire ⟨true, p, b⟩ (fun i => gateFlagOp i.par i.gate p)) s

end Sys2Proof.Machine
end

