-- ==== Sys2Proof/Machine/Destuffer.lean ====
section
/-! DEFINITION. The bit de-stuffer, unit DSTF (46_destuffer.md): DSTF.BIT, DSTF.SOF, DSTF.EOF. -/

namespace Sys2Proof.Machine

open Sys2Proof

/-- DSTF on one frame token (R266 to R268): the run length after it and the tokens it lets through. -/
def dstfStep (ones : Nat) : FT2 → Nat × List FT2
  | .bit true => (min (ones + 1) 5, [.bit true])
  | .bit false => (0, if ones = 5 then [] else [.bit false])
  | .sof => (0, [.sof])
  | .eof => (0, [.eof])

/-- A DSTF operation as a firing on the token `tok`: takes from `FT`, emits on `FD2`. -/
def dstfFire (tok : FT2) (i : ChanInst) : Fire ChanInst :=
  fireUnit i i.ch.ft (fun t => t == tok) (fun t => .ok (dstfStep i.dstfOnes t)) i.par.depth.fd2 i.ch.fd2
    (fun rest u out => { i with dstfOnes := u, ch := { i.ch with ft := rest, fd2 := i.ch.fd2 ++ out } })

/-- DSTF.BIT (R267). -/
def execDstfBit (c : Chan) (b : Bool) (s : State) : Outcome := onInst c (dstfFire (.bit b)) s

/-- DSTF.SOF (R266). -/
def execDstfSof (c : Chan) (s : State) : Outcome := onInst c (dstfFire .sof) s

/-- DSTF.EOF (R268). -/
def execDstfEof (c : Chan) (s : State) : Outcome := onInst c (dstfFire .eof) s

end Sys2Proof.Machine
end

