-- ==== Sys2Proof/Machine/FrameParser.lean ====
section
/-! DEFINITION. The frame parser and CRC validator, unit FRM (47_frame_parser_crc.md): FRM.BIT, FRM.SOF, FRM.EOF.
F = `FRAME_MAX_BITS`. OUT.PUSH is in SystemOps.lean. -/

namespace Sys2Proof.Machine

open Sys2Proof

/-- FRM.SOF (R282): a frame starts; `FRM.fb` is not cleared. -/
def frmSofRegs (u : FrmRegs) : FrmRegs := { u with active := true, ovf := false, flen := 0, crc := crcInit }

/-- A bit of an active frame that has not overrun is stored and absorbed, or finds the buffer full (R283). -/
def frmStore (i : ChanInst) (b : Bool) : Except Fault (FrmRegs × List Event) :=
  if i.frm.flen = i.par.frameMaxBits then
    .ok ({ i.frm with ovf := true }, raiseEvent i evFrameOverrun 0x29 i.par.frameMaxBits)
  else
    match memWrite .frmFb i.frm.fb i.frm.flen b with
    | .error f => .error f
    | .ok fb => .ok ({ i.frm with fb := fb, flen := i.frm.flen + 1, crc := crcStep i.frm.crc b }, [])

/-- FRM.BIT (R283): outside an active frame, or after an overrun, the bit is dropped. -/
def frmBitOp (i : ChanInst) (b : Bool) : Except Fault (FrmRegs × List Event) :=
  if i.frm.active && !i.frm.ovf then frmStore i b else .ok (i.frm, [])

/-- The record of an accepted frame (R284, R291, R292), `payload` its bits without the trailer. -/
def makeRecord (r : CfgRec) (payload : List Bool) : Rec :=
  { designator := r.designator
    crcValid := true
    nbits := BitVec.ofNat 16 payload.length
    payload := payload
    hasCoords := r.hasCoords
    lat := if r.hasCoords then r.lat else 0
    lon := if r.hasCoords then r.lon else 0
    verbosity := r.verbosity }

/-- What EOF makes of an active frame that has not overrun (R284): a record, or the event of a discarded frame. -/
def frmClose (i : ChanInst) : Except Fault (List Rec × List Event) :=
  if crcAccepts i.frm.flen i.frm.crc then
    match memRead .frmFb i.frm.fb 0 (i.frm.flen - 16) with
    | .error f => .error f
    | .ok payload => .ok ([makeRecord i.cfg payload], [])
  else .ok ([], raiseEvent i evCrcFail 0x2B i.frm.flen)

/-- FRM.EOF (R284): an EOF when no frame is active does nothing but leave `active` and `ovf` 0. -/
def frmEofOp (i : ChanInst) : Except Fault ((FrmRegs × List Event) × List Rec) :=
  if i.frm.active && !i.frm.ovf then
    match frmClose i with
    | .error f => .error f
    | .ok r => .ok (({ i.frm with active := false, ovf := false }, r.2), r.1)
  else .ok (({ i.frm with active := false, ovf := false }, []), [])

/-- FRM.BIT as a firing on the bit `b`: takes from `FD2`, emits on no channel. -/
def frmBitFire (b : Bool) (i : ChanInst) : Fire ChanInst :=
  fireUnit i i.ch.fd2 (fun t => t == FT2.bit b)
    (fun _ => (frmBitOp i b).map (fun u => (u, ([] : List Unit)))) 0 []
    (fun rest u _ => { i with frm := u.1, obs := i.obs.emitDiag u.2, ch := { i.ch with fd2 := rest } })

/-- FRM.SOF as a firing: takes from `FD2`, emits on no channel. -/
def frmSofFire (i : ChanInst) : Fire ChanInst :=
  fireUnit i i.ch.fd2 (fun t => t == FT2.sof) (fun _ => .ok (frmSofRegs i.frm, ([] : List Unit))) 0 []
    (fun rest u _ => { i with frm := u, ch := { i.ch with fd2 := rest } })

/-- FRM.EOF as a firing: takes from `FD2`, emits on `R_OUT`. -/
def frmEofFire (i : ChanInst) : Fire ChanInst :=
  fireUnit i i.ch.fd2 (fun t => t == FT2.eof) (fun _ => frmEofOp i) i.par.depth.rOut i.ch.rOut
    (fun rest u out => { i with
      frm := u.1
      obs := i.obs.emitDiag u.2
      ch := { i.ch with fd2 := rest, rOut := i.ch.rOut ++ out } })

/-- FRM.BIT (R283). -/
def execFrmBit (c : Chan) (b : Bool) (s : State) : Outcome := onInst c (frmBitFire b) s

/-- FRM.SOF (R282). -/
def execFrmSof (c : Chan) (s : State) : Outcome := onInst c frmSofFire s

/-- FRM.EOF (R284). -/
def execFrmEof (c : Chan) (s : State) : Outcome := onInst c frmEofFire s

end Sys2Proof.Machine
end

