-- ==== Sys2Proof/Machine/Stimulus.lean ====
section
/-! DEFINITION. The transmit-side functions of 30_encoding.md R118, "used to build stimuli. They are not part of the
block": no step calls them; the claims about de-stuffing, the CRC and the line code are stated with them. -/

namespace Sys2Proof.Machine

open Sys2Proof

/-- `stuff` from a running count of 1s (R118). -/
def stuffFrom : Nat → List Bool → List Bool
  | _, [] => []
  | _, false :: rest => false :: stuffFrom 0 rest
  | c, true :: rest =>
    if c + 1 = 5 then true :: false :: stuffFrom 0 rest else true :: stuffFrom (c + 1) rest

/-- `stuff(x)` (R118): a 0 after every run of five consecutive 1s. -/
def stuff (x : List Bool) : List Bool := stuffFrom 0 x

/-- The sixteen bits of a register from bit 0 to bit 15. -/
def bitsLsbFirst (v : BitVec 16) : List Bool := (List.range 16).map (fun k => v.getLsbD k)

/-- `fcs(x)` (R118, R286): the complement of the register after `x`, bit 0 first. -/
def fcs (x : List Bool) : List Bool := bitsLsbFirst (~~~ crcRun crcInit x)

/-- The flag "01111110" (R111). -/
def flagBits : List Bool := [false, true, true, true, true, true, true, false]

/-- `frame(x)` (R118). -/
def frameOf (x : List Bool) : List Bool := flagBits ++ stuff (x ++ fcs x) ++ flagBits

/-- `pre16` (R118): "1010101010101010". -/
def pre16 : List Bool :=
  [true, false, true, false, true, false, true, false, true, false, true, false, true, false, true, false]

/-- `nrzi(y, s)` (R118): the level changes on a 0 and stays on a 1. -/
def nrzi : List Bool → Bool → List Bool
  | [], _ => []
  | y :: rest, s => (if y then s else !s) :: nrzi rest (if y then s else !s)

/-- A unit fed with a sequence of tokens (00_scope.md R10: a unit's output sequence is a function of its input
sequence and its state): the registers after the last one and all the tokens emitted, in order. -/
def runOp {σ τ ω : Type} (op : σ → τ → Except Fault (σ × List ω)) : σ → List τ → Except Fault (σ × List ω)
  | u, [] => .ok (u, [])
  | u, x :: rest =>
    match op u x with
    | .error f => .error f
    | .ok (v, out) =>
      match runOp op v rest with
      | .error f => .error f
      | .ok (w, out') => .ok (w, out ++ out')

/-- The line decoder on a sequence (44_line_decoder.md R243): DIFF from the level `prev`, then INV. -/
def lineDecode (prev : Bool) (x : List Bool) : Except Fault (List Bool) :=
  (runOp diffOp prev x).map (fun r => r.2.map invBit)

/-- DSTF on a sequence of frame tokens (R266 to R268), from the run length `ones`. -/
def dstfRun (ones : Nat) (l : List FT2) : Except Fault (Nat × List FT2) :=
  runOp (fun u t => .ok (dstfStep u t)) ones l

/-- The correlators' registers after a sequence of bits (R251). -/
def fdRun (p : Params) (u : FdRegs) (l : List Bool) : FdRegs := l.foldl (fdNext p) u

end Sys2Proof.Machine
end

