-- ==== Sys2Proof/Machine/Dispatch.lean ====
section
/-! DEFINITION. One arm per operation of 30_encoding.md R114, each the call of its meaning. -/

namespace Sys2Proof.Machine

open Sys2Proof

def exec (i : Instr) (s : State) : Host.Outcome State Fault Refusal :=
  match i with
  | .sysReset t => Sys2Proof.Machine.execSysReset t s
  | .cfgLoad c => Sys2Proof.Machine.execCfgLoad c s
  | .sysStart t => Sys2Proof.Machine.execSysStart t s
  | .sysStop t => Sys2Proof.Machine.execSysStop t s
  | .srcSample c => Sys2Proof.Machine.execSrcSample c s
  | .srcEos t => Sys2Proof.Machine.execSrcEos t s
  | .sysDrained c => Sys2Proof.Machine.execSysDrained c s
  | .qPop => Sys2Proof.Machine.execQPop s
  | .qEmpty => Sys2Proof.Machine.execQEmpty s
  | .outPush c => Sys2Proof.Machine.execOutPush c s
  | .csStep c => Sys2Proof.Machine.execCsStep c s
  | .costasStep c => Sys2Proof.Machine.execCostasStep c s
  | .rsmpStep c => Sys2Proof.Machine.execRsmpStep c s
  | .mfStep c => Sys2Proof.Machine.execMfStep c s
  | .ilvStep c => Sys2Proof.Machine.execIlvStep c s
  | .vitStep c => Sys2Proof.Machine.execVitStep c s
  | .qdStep c => Sys2Proof.Machine.execQdStep c s
  | .rrcStep c => Sys2Proof.Machine.execRrcStep c s
  | .crStep c => Sys2Proof.Machine.execCrStep c s
  | .tcorrStep c => Sys2Proof.Machine.execTcorrStep c s
  | .dfeStep c => Sys2Proof.Machine.execDfeStep c s
  | .dfeRetrain c => Sys2Proof.Machine.execDfeRetrain c s
  | .sliceStep c => Sys2Proof.Machine.execSliceStep c s
  | .diffStep c b => Sys2Proof.Machine.execDiffStep c b s
  | .invStep c b => Sys2Proof.Machine.execInvStep c b s
  | .corrStep c b => Sys2Proof.Machine.execCorrStep c b s
  | .gateData c b => Sys2Proof.Machine.execGateData c b s
  | .gatePre c b => Sys2Proof.Machine.execGatePre c b s
  | .gateFlag c p b => Sys2Proof.Machine.execGateFlag c p b s
  | .dstfBit c b => Sys2Proof.Machine.execDstfBit c b s
  | .dstfSof c => Sys2Proof.Machine.execDstfSof c s
  | .dstfEof c => Sys2Proof.Machine.execDstfEof c s
  | .frmBit c b => Sys2Proof.Machine.execFrmBit c b s
  | .frmSof c => Sys2Proof.Machine.execFrmSof c s
  | .frmEof c => Sys2Proof.Machine.execFrmEof c s

end Sys2Proof.Machine
end

