-- ==== Sys2Proof/Machine/Fetch.lean ====
section
/-! DEFINITION. How the next operation is selected (30_encoding.md R100, 00_scope.md R9): whose turn it is, the
operation word that stands at that agent's trigger, and, for the host's questions about single words, how an
operation's trigger is put in place.

The spec leaves the choice of the agent open (R361(a), 93 U5: any fair choice). `State.schedule` is that choice as
data; when it is used up the agents take turns in the fixed cyclic order `turnOrder` (log entry 9). -/

namespace Sys2Proof.Machine

open Sys2Proof

/-! ### Whose turn it is -/

/-- The units of R1 in data-flow order, then SYS.DRAINED's agent. -/
def unitOrder : List UnitId :=
  [.cs, .costas, .rsmp, .mf, .ilv, .vit, .qd, .rrc, .cr, .tcorr, .dfe, .slice, .diff, .inv, .corr, .gate, .dstf,
    .frm, .out, .drain]

/-- The cyclic order of the agents. -/
def turnOrder : List Turn :=
  [.controller, .source .a, .source .b] ++ unitOrder.map (Turn.unit .a) ++ unitOrder.map (Turn.unit .b)
    ++ [.consumer]

/-- The agent that moves, and the state with the choice used up. -/
def nextTurn (s : State) : Turn × State :=
  match s.schedule with
  | t :: rest => (t, { s with schedule := rest })
  | [] => (turnOrder.getD s.robin .controller, { s with robin := (s.robin + 1) % turnOrder.length })

/-! ### The word at an agent's trigger -/

/-- The word of the token at the head of a channel; no word when the channel is empty. -/
def headWord {τ : Type} (tr : Trigger) (c : Chan) (bits : τ → Byte) : List τ → Option (List Byte)
  | [] => none
  | x :: _ => some (opWord tr (.chan c) (bits x))

/-- The word that a unit's input port holds (R101, R114, R316). -/
def unitWord (c : Chan) (i : ChanInst) : UnitId → Option (List Byte)
  | .cs => headWord .sIn c (fun _ => 0) i.ch.sIn
  | .costas => if i.cfg.coherent then headWord .csOutCostas c (fun _ => 0) i.ch.csOut else none
  | .rsmp => headWord .k1 c (fun _ => 0) i.ch.k1
  | .mf => headWord .k2 c (fun _ => 0) i.ch.k2
  | .ilv => headWord .k3 c (fun _ => 0) i.ch.k3
  | .vit => headWord .vIn c (fun _ => 0) i.ch.vIn
  | .qd => if i.cfg.coherent then none else headWord .csOutQd c (fun _ => 0) i.ch.csOut
  | .rrc => headWord .n1 c (fun _ => 0) i.ch.n1
  | .cr => headWord .n2 c (fun _ => 0) i.ch.n2
  | .tcorr => if i.par.hasDfe then headWord .n3Tcorr c (fun _ => 0) i.ch.n3 else none
  | .dfe => headWord .n4 c (fun t => bitByte t.hit) i.ch.n4
  | .slice =>
    if i.par.hasDfe then headWord .slice c (fun _ => 0) i.ch.n5 else headWord .slice c (fun _ => 0) i.ch.n3
  | .diff => headWord .hb c bitByte i.ch.hb
  | .inv => headWord .l1 c bitByte i.ch.l1
  | .corr => headWord .l2 c bitByte i.ch.l2
  | .gate => headWord .tb c t3Byte i.ch.tb
  | .dstf => headWord .ft c ft2Byte i.ch.ft
  | .frm => headWord .fd2 c ft2Byte i.ch.fd2
  | .out => headWord .rOut c (fun _ => 0) i.ch.rOut
  | .drain => if i.lc = .draining then some (opWord .drained (.chan c) 0) else none

/-- The word of a host signal. -/
def signalWord : Signal → List Byte
  | .reset t => opWord .reset t 0
  | .load c _ => opWord .load (.chan c) 0
  | .start t => opWord .start t 0
  | .stop t => opWord .stop t 0
  | .eos t => opWord .eos t 0

/-- The word of a consumer's request. -/
def requestWord : ConsumerReq → List Byte
  | .pop => opWord .pop .receiver 0
  | .empty => opWord .empty .receiver 0

/-- The operation word at the trigger of the agent whose turn it is; none when nothing triggers it. -/
def fetch (t : Turn) (s : State) : Option (List Byte) :=
  match t with
  | .unit c u => unitWord c (s.inst c) u
  | .controller => s.signals.head?.map signalWord
  | .source c => headWord .sample c (fun _ => 0) (s.offers c)
  | .withdraw _ => none
  | .consumer => s.requests.head?.map requestWord

/-- A turn that fires no operation: the source withdraws its offer (93 U22), every other agent leaves the state as
it is. -/
def idleTurn (t : Turn) (s : State) : State :=
  match t with
  | .withdraw c => s.setOffers c ((s.offers c).drop 1)
  | _ => s

/-- One move of an agent: the word at its trigger is decoded and its operation performed. -/
def runTurn (t : Turn) (s : State) : Outcome :=
  match fetch t s with
  | none => .next (idleTurn t s)
  | some w =>
    match decode w with
    | .error e => .refused (.undecodable e)
    | .ok r => exec r.1 s

/-! ### Putting an operation's trigger in place -/

/-- The agent that performs an operation. -/
def turnOf : Instr → Turn
  | .sysReset _ | .cfgLoad _ | .sysStart _ | .sysStop _ | .srcEos _ => .controller
  | .srcSample c => .source c
  | .qPop | .qEmpty => .consumer
  | .sysDrained c => .unit c .drain
  | .outPush c => .unit c .out
  | .csStep c => .unit c .cs
  | .costasStep c => .unit c .costas
  | .rsmpStep c => .unit c .rsmp
  | .mfStep c => .unit c .mf
  | .ilvStep c => .unit c .ilv
  | .vitStep c => .unit c .vit
  | .qdStep c => .unit c .qd
  | .rrcStep c => .unit c .rrc
  | .crStep c => .unit c .cr
  | .tcorrStep c => .unit c .tcorr
  | .dfeStep c => .unit c .dfe
  | .dfeRetrain c => .unit c .dfe
  | .sliceStep c => .unit c .slice
  | .diffStep c _ => .unit c .diff
  | .invStep c _ => .unit c .inv
  | .corrStep c _ => .unit c .corr
  | .gateData c _ => .unit c .gate
  | .gatePre c _ => .unit c .gate
  | .gateFlag c _ _ => .unit c .gate
  | .dstfBit c _ => .unit c .dstf
  | .dstfSof c => .unit c .dstf
  | .dstfEof c => .unit c .dstf
  | .frmBit c _ => .unit c .frm
  | .frmSof c => .unit c .frm
  | .frmEof c => .unit c .frm

/-- An instance in which unit operations are enabled (R312): as it is when it runs, else loaded with the reference
configuration and started. -/
def bringUp (i : ChanInst) : ChanInst :=
  if unitsEnabled i then i else { configure (CfgRec.reference true) i with lc := .running }

/-- `bringUp` with the demodulator that `coherent` selects (R316). -/
def bringUpPath (coherent : Bool) (i : ChanInst) : ChanInst :=
  { bringUp i with cfg := { (bringUp i).cfg with coherent := coherent } }

/-- `bringUpPath` for the units that exist when HAS_DFE (R36, R37). -/
def bringUpDfe (i : ChanInst) : ChanInst :=
  { bringUpPath false i with par := { i.par with hasDfe := true } }

/-- A record of no meaning, for OUT.PUSH and Q.POP to move. -/
def blankRecord : Rec :=
  { designator := 0x41, crcValid := true, nbits := 0, payload := [], hasCoords := false, lat := 0, lon := 0,
    verbosity := 0 }

/-- One instance changed. -/
def State.modInst (s : State) (c : Chan) (f : ChanInst → ChanInst) : State := s.setInst c (f (s.inst c))

/-- A token put at the head of a channel of a running instance. -/
def putToken (f : ChanInst → Channels → Channels) (i : ChanInst) : ChanInst := { i with ch := f i i.ch }

/-- The state in which an operation's trigger is the next one of its agent and the operation is enabled, with the
numbers of its token 0 (log entry 6). -/
def place (i : Instr) (s : State) : State :=
  match i with
  | .sysReset t => { s with signals := .reset t :: s.signals }
  | .cfgLoad c => { s with signals := .load c (CfgRec.reference true) :: s.signals }
  | .sysStart t => { s with signals := .start t :: s.signals }
  | .sysStop t => { s with signals := .stop t :: s.signals }
  | .srcEos t => { s with signals := .eos t :: s.signals }
  | .srcSample c => (s.modInst c (fun x => { bringUp x with lc := .running })).setOffers c (Cpx.zero :: s.offers c)
  | .sysDrained c => s.modInst c (fun x => { x with lc := .draining, ch := Channels.empty })
  | .qPop => { s with requests := .pop :: s.requests, q := if s.q.isEmpty then [blankRecord] else s.q }
  | .qEmpty => { s with requests := .empty :: s.requests }
  | .outPush c => s.modInst c (fun x => putToken (fun _ h => { h with rOut := blankRecord :: h.rOut }) (bringUp x))
  | .csStep c => s.modInst c (fun x => putToken (fun _ h => { h with sIn := Cpx.zero :: h.sIn }) (bringUp x))
  | .costasStep c =>
    s.modInst c (fun x => putToken (fun _ h => { h with csOut := Cpx.zero :: h.csOut }) (bringUpPath true x))
  | .rsmpStep c => s.modInst c (fun x => putToken (fun _ h => { h with k1 := Cpx.zero :: h.k1 }) (bringUpPath true x))
  | .mfStep c => s.modInst c (fun x => putToken (fun _ h => { h with k2 := Cpx.zero :: h.k2 }) (bringUpPath true x))
  | .ilvStep c =>
    s.modInst c (fun x =>
      putToken (fun y h => { h with k3 := List.replicate y.par.c Cpx.zero :: h.k3 }) (bringUpPath true x))
  | .vitStep c => s.modInst c (fun x => putToken (fun _ h => { h with vIn := Cpx.zero :: h.vIn }) (bringUpPath true x))
  | .qdStep c =>
    s.modInst c (fun x => putToken (fun _ h => { h with csOut := Cpx.zero :: h.csOut }) (bringUpPath false x))
  | .rrcStep c => s.modInst c (fun x => putToken (fun _ h => { h with n1 := .rat 0 :: h.n1 }) (bringUpPath false x))
  | .crStep c => s.modInst c (fun x => putToken (fun _ h => { h with n2 := .rat 0 :: h.n2 }) (bringUpPath false x))
  | .tcorrStep c => s.modInst c (fun x => putToken (fun _ h => { h with n3 := .rat 0 :: h.n3 }) (bringUpDfe x))
  | .dfeStep c =>
    s.modInst c (fun x => putToken (fun _ h => { h with n4 := { v := .rat 0, hit := false } :: h.n4 }) (bringUpDfe x))
  | .dfeRetrain c =>
    s.modInst c (fun x => putToken (fun _ h => { h with n4 := { v := .rat 0, hit := true } :: h.n4 }) (bringUpDfe x))
  | .sliceStep c =>
    s.modInst c (fun x =>
      putToken (fun y h => if y.par.hasDfe then { h with n5 := .rat 0 :: h.n5 } else { h with n3 := .rat 0 :: h.n3 })
        (bringUpPath false x))
  | .diffStep c b => s.modInst c (fun x => putToken (fun _ h => { h with hb := b :: h.hb }) (bringUp x))
  | .invStep c b => s.modInst c (fun x => putToken (fun _ h => { h with l1 := b :: h.l1 }) (bringUp x))
  | .corrStep c b => s.modInst c (fun x => putToken (fun _ h => { h with l2 := b :: h.l2 }) (bringUp x))
  | .gateData c b =>
    s.modInst c (fun x => putToken (fun _ h => { h with tb := ⟨false, false, b⟩ :: h.tb }) (bringUp x))
  | .gatePre c b =>
    s.modInst c (fun x => putToken (fun _ h => { h with tb := ⟨false, true, b⟩ :: h.tb }) (bringUp x))
  | .gateFlag c p b =>
    s.modInst c (fun x => putToken (fun _ h => { h with tb := ⟨true, p, b⟩ :: h.tb }) (bringUp x))
  | .dstfBit c b => s.modInst c (fun x => putToken (fun _ h => { h with ft := .bit b :: h.ft }) (bringUp x))
  | .dstfSof c => s.modInst c (fun x => putToken (fun _ h => { h with ft := .sof :: h.ft }) (bringUp x))
  | .dstfEof c => s.modInst c (fun x => putToken (fun _ h => { h with ft := .eof :: h.ft }) (bringUp x))
  | .frmBit c b => s.modInst c (fun x => putToken (fun _ h => { h with fd2 := .bit b :: h.fd2 }) (bringUp x))
  | .frmSof c => s.modInst c (fun x => putToken (fun _ h => { h with fd2 := .sof :: h.fd2 }) (bringUp x))
  | .frmEof c => s.modInst c (fun x => putToken (fun _ h => { h with fd2 := .eof :: h.fd2 }) (bringUp x))

end Sys2Proof.Machine
end

