-- ==== Sys2Proof/Machine/Step.lean ====
section
/-! DEFINITION. One step of the receiver: the agent whose turn it is moves (00_scope.md R9), by the operation that
the word at its trigger decodes to (30_encoding.md R100). -/

namespace Sys2Proof.Machine

open Sys2Proof

/-- One step: the turn is used up, then the agent moves. -/
def step (s : State) : Host.Outcome State Fault Refusal := runTurn (nextTurn s).1 (nextTurn s).2

/-- `s` with the operation of a table word in place as the next one (log entry 6); a word the decoder refuses
changes nothing. -/
def State.withFetchWord (s : State) (nbits w : Nat) : State :=
  match decodeTableWord nbits w with
  | none => s
  | some i => { place i s with schedule := turnOf i :: s.schedule }

end Sys2Proof.Machine
end

