-- ==== Sys2Proof/Laws/Numerics.lean ====
section
/-! SUPPORT. What the arithmetic of Machine/Numerics.lean gives, as real and complex numbers: every rule over exact reals
then holds as written (00_scope.md R8, R13). And the small lemmas of `quant`. -/

namespace Sys2Proof.Machine

open Sys2Proof

/-! ### Rounding (R8) -/

@[simp] theorem quant_exact (x : Scalar) : quant .exact x = x := rfl
@[simp] theorem quant_zero (n : Numerics) : quant n (.rat 0) = .rat 0 := by cases n <;> simp [quant]
@[simp] theorem quantC_exact (z : Cpx) : quantC .exact z = z := rfl
@[simp] theorem quantC_zero (n : Numerics) : quantC n Cpx.zero = Cpx.zero := by simp [quantC, Cpx.zero]

/-! ### Zero -/

@[simp] theorem add_rat_zero (a : Scalar) : a.add (.rat 0) = a := Scalar.ext (by simp)
@[simp] theorem rat_zero_add (a : Scalar) : (Scalar.rat 0).add a = a := Scalar.ext (by simp)
@[simp] theorem sub_rat_zero (a : Scalar) : a.sub (.rat 0) = a := Scalar.ext (by simp)
@[simp] theorem mul_rat_zero (a : Scalar) : a.mul (.rat 0) = .rat 0 := Scalar.ext (by simp)
@[simp] theorem rat_zero_mul (a : Scalar) : (Scalar.rat 0).mul a = .rat 0 := Scalar.ext (by simp)

/-! ### Complex numbers (R13) -/

/-- The complex number a sample stands for. -/
noncomputable def toC (z : Cpx) : ℂ := ⟨z.re.val, z.im.val⟩

@[simp] theorem toC_re (z : Cpx) : (toC z).re = z.re.val := rfl
@[simp] theorem toC_im (z : Cpx) : (toC z).im = z.im.val := rfl

/-- Equal complex numbers are equal data. -/
theorem toC_injective : Function.Injective toC := fun z w h => by
  have hr := Scalar.ext (congrArg Complex.re h)
  have hi := Scalar.ext (congrArg Complex.im h)
  cases z; cases w
  simp_all

@[simp] theorem toC_zero : toC Cpx.zero = 0 := by
  apply Complex.ext <;> simp [Cpx.zero]

@[simp] theorem toC_cadd (z w : Cpx) : toC (cadd z w) = toC z + toC w := by
  apply Complex.ext <;> simp [cadd]

@[simp] theorem toC_csub (z w : Cpx) : toC (csub z w) = toC z - toC w := by
  apply Complex.ext <;> simp [csub]

@[simp] theorem toC_cmul (z w : Cpx) : toC (cmul z w) = toC z * toC w := by
  apply Complex.ext <;> simp [cmul]

@[simp] theorem toC_conj (z : Cpx) : toC (conj z) = (starRingEnd ℂ) (toC z) := by
  apply Complex.ext <;> simp [conj]

/-- `exp(j*t)` (R13). -/
@[simp] theorem toC_cexp (t : Scalar) : toC (cexp t) = Complex.exp (t.val * Complex.I) := by
  apply Complex.ext <;> simp [cexp, Complex.exp_ofReal_mul_I_re, Complex.exp_ofReal_mul_I_im]

@[simp] theorem val_normSq (z : Cpx) : (normSq z).val = Complex.normSq (toC z) := by
  simp [normSq, Complex.normSq_apply]

/-- `|z|` (R13). -/
@[simp] theorem val_cabs (z : Cpx) : (cabs z).val = ‖toC z‖ := by
  simp [cabs, Complex.norm_def]

/-- `arg(z)` (R13). -/
@[simp] theorem val_arg (z : Cpx) : (arg z).val = Complex.arg (toC z) := by
  simp [arg, toC]

@[simp] theorem val_twoPi : twoPi.val = 2 * Real.pi := by simp [twoPi]

/-- `sgn(v)` (R13). -/
theorem val_sgn (v : Scalar) : (sgn v).val = if 0 ≤ v.val then 1 else -1 := by
  unfold sgn
  split_ifs with h h' h'
  · exact absurd ((Scalar.lt_iff _ _).1 h) (by simpa using h')
  · simp
  · simp
  · exact absurd ((Scalar.lt_iff v (.rat 0)).2 (by simpa using h')) h

/-! ### `wrap` -/

/-- R13: `wrap(t)` lies in `(-pi, pi]` and is congruent to `t` modulo `2*pi`. -/
theorem wrap_spec (t : Scalar) :
    -Real.pi < (wrap t).val ∧ (wrap t).val ≤ Real.pi ∧ ∃ k : Int, (wrap t).val = t.val - 2 * Real.pi * k := by
  unfold wrap
  split_ifs with h
  · have := Real.pi_pos
    exact ⟨by simpa using this, by simpa using this.le, 0, by simp [h]⟩
  · exact the_spec
      (fun r : Scalar => -Real.pi < r.val ∧ r.val ≤ Real.pi ∧ ∃ k : Int, r.val = t.val - 2 * Real.pi * k) _

/-- R13: it is the only such value. -/
theorem wrap_unique {t r : Scalar} (h1 : -Real.pi < r.val) (h2 : r.val ≤ Real.pi) (k : Int)
    (hk : r.val = t.val - 2 * Real.pi * k) : wrap t = r := by
  obtain ⟨w1, w2, m, hm⟩ := wrap_spec t
  have hp := Real.pi_pos
  have hmk : m = k := by
    have e : (wrap t).val - r.val = 2 * Real.pi * ((k : ℝ) - m) := by rw [hm, hk]; ring
    have a1 : (-1 : ℝ) < (k : ℝ) - m := by nlinarith
    have a2 : (k : ℝ) - m < 1 := by nlinarith
    have b1 : (-1 : Int) < k - m := by exact_mod_cast a1
    have b2 : k - m < 1 := by exact_mod_cast a2
    omega
  exact Scalar.ext (by rw [hm, hk, hmk])

/-- R13: a value of the range is its own `wrap`. -/
theorem wrap_of_range {t : Scalar} (h : -Real.pi < t.val) (h' : t.val ≤ Real.pi) : wrap t = t :=
  wrap_unique h h' 0 (by simp)

/-- R13: `exp(j*t)` has the period `2*pi`. -/
@[simp] theorem cexp_wrap (t : Scalar) : cexp (wrap t) = cexp t := by
  obtain ⟨_, _, k, hk⟩ := wrap_spec t
  apply toC_injective
  rw [toC_cexp, toC_cexp, hk, Complex.exp_eq_exp_iff_exists_int]
  exact ⟨-k, by push_cast; ring⟩

/-! ### Laws of R13's functions -/

/-- `exp(j*(s+t)) = exp(j*s)*exp(j*t)`. -/
theorem cexp_add (s t : Scalar) : cexp (s.add t) = cmul (cexp s) (cexp t) := by
  apply toC_injective
  simp [add_mul, Complex.exp_add]

/-- R138, R154: `exp(j*t)` has modulus 1. -/
theorem normSq_cexp (t : Scalar) : normSq (cexp t) = .rat 1 := by
  apply Scalar.ext
  simp [Complex.normSq_eq_norm_sq]

/-- The squared modulus of a product. -/
theorem normSq_cmul (a b : Cpx) : normSq (cmul a b) = (normSq a).mul (normSq b) := by
  apply Scalar.ext
  simp

/-- R13: `arg` lies in `(-pi, pi]`. -/
theorem arg_range (z : Cpx) : -Real.pi < (arg z).val ∧ (arg z).val ≤ Real.pi := by
  rw [val_arg]
  exact ⟨Complex.neg_pi_lt_arg _, Complex.arg_le_pi _⟩

/-- R13: `arg` gives back the angle of `exp(j*t)`. -/
theorem arg_cexp (t : Scalar) : arg (cexp t) = wrap t := by
  obtain ⟨h1, h2, _⟩ := wrap_spec t
  rw [← cexp_wrap]
  apply Scalar.ext
  rw [val_arg, toC_cexp, Complex.arg_exp_mul_I, toIocMod_eq_self]
  exact ⟨h1, by linarith⟩

/-- The angle depends on the direction alone. -/
theorem arg_cscale {r : Scalar} (h : 0 < r.val) (z : Cpx) : arg ⟨r.mul z.re, r.mul z.im⟩ = arg z := by
  apply Scalar.ext
  rw [val_arg, val_arg, ← Complex.arg_real_mul (toC z) h]
  congr 1
  apply Complex.ext <;> simp

/-- The modulus is homogeneous. -/
theorem cabs_cscale {r : Scalar} (h : 0 ≤ r.val) (z : Cpx) : cabs ⟨r.mul z.re, r.mul z.im⟩ = r.mul (cabs z) := by
  apply Scalar.ext
  have : toC ⟨r.mul z.re, r.mul z.im⟩ = (r.val : ℂ) * toC z := by apply Complex.ext <;> simp
  rw [val_cabs, this, Scalar.val_mul, val_cabs, norm_mul, Complex.norm_real, Real.norm_of_nonneg h]

theorem cexp_zero : cexp (.rat 0) = ⟨.rat 1, .rat 0⟩ := by decide +kernel

theorem cexp_pi : cexp Scalar.pi = ⟨.rat (-1), .rat 0⟩ := by
  apply toC_injective
  rw [toC_cexp, Scalar.val_pi, Complex.exp_pi_mul_I]
  apply Complex.ext <;> simp

theorem cexp_half_pi : cexp (Scalar.pi.div (.rat 2)) = ⟨.rat 0, .rat 1⟩ := by
  apply toC_injective
  have : (((Scalar.pi.div (.rat 2)).val : ℝ) : ℂ) = Real.pi / 2 := by simp
  rw [toC_cexp, this, Complex.exp_pi_div_two_mul_I]
  apply Complex.ext <;> simp

end Sys2Proof.Machine
end

