-- ==== Sys2Proof/Laws/State.lean ====
section
/-! SUPPORT. The small lemmas of the receiver's record updates: what `setInst`, `setOffers` and `onTarget` leave in
each field, so that no later proof unfolds them. -/

namespace Sys2Proof.Machine

open Sys2Proof

variable (s : State) (c d : Chan) (i : ChanInst) (l : List Cpx)

@[simp] theorem inst_a : s.inst .a = s.a := rfl
@[simp] theorem inst_b : s.inst .b = s.b := rfl
@[simp] theorem offers_a : s.offers .a = s.offersA := rfl
@[simp] theorem offers_b : s.offers .b = s.offersB := rfl

/-! ### `setInst` -/

@[simp] theorem setInst_a_a : (s.setInst .a i).a = i := rfl
@[simp] theorem setInst_a_b : (s.setInst .a i).b = s.b := rfl
@[simp] theorem setInst_b_a : (s.setInst .b i).a = s.a := rfl
@[simp] theorem setInst_b_b : (s.setInst .b i).b = i := rfl
@[simp] theorem inst_setInst_same : (s.setInst c i).inst c = i := by cases c <;> rfl
@[simp] theorem setInst_q : (s.setInst c i).q = s.q := by cases c <;> rfl
@[simp] theorem setInst_qdepth : (s.setInst c i).qdepth = s.qdepth := by cases c <;> rfl
@[simp] theorem setInst_signals : (s.setInst c i).signals = s.signals := by cases c <;> rfl
@[simp] theorem setInst_offersA : (s.setInst c i).offersA = s.offersA := by cases c <;> rfl
@[simp] theorem setInst_offersB : (s.setInst c i).offersB = s.offersB := by cases c <;> rfl
@[simp] theorem setInst_offers : (s.setInst c i).offers d = s.offers d := by cases c <;> cases d <;> rfl
@[simp] theorem setInst_requests : (s.setInst c i).requests = s.requests := by cases c <;> rfl
@[simp] theorem setInst_popped : (s.setInst c i).popped = s.popped := by cases c <;> rfl
@[simp] theorem setInst_answers : (s.setInst c i).answers = s.answers := by cases c <;> rfl
@[simp] theorem setInst_schedule : (s.setInst c i).schedule = s.schedule := by cases c <;> rfl
@[simp] theorem setInst_robin : (s.setInst c i).robin = s.robin := by cases c <;> rfl

/-- Writing one instance leaves the other (R364). -/
theorem inst_setInst_of_ne (h : d ≠ c) : (s.setInst c i).inst d = s.inst d := by
  cases c <;> cases d <;> first | rfl | exact absurd rfl h

/-- Writing an instance back changes nothing. -/
@[simp] theorem setInst_inst : s.setInst c (s.inst c) = s := by cases c <;> rfl

/-- The last write of an instance counts. -/
@[simp] theorem setInst_setInst (j : ChanInst) : (s.setInst c i).setInst c j = s.setInst c j := by cases c <;> rfl

/-- Writes of different instances commute. -/
theorem setInst_comm (j : ChanInst) (h : d ≠ c) :
    (s.setInst c i).setInst d j = (s.setInst d j).setInst c i := by
  cases c <;> cases d <;> first | rfl | exact absurd rfl h

/-! ### `setOffers` -/

@[simp] theorem setOffers_inst : (s.setOffers c l).inst d = s.inst d := by cases c <;> rfl
@[simp] theorem setOffers_q : (s.setOffers c l).q = s.q := by cases c <;> rfl
@[simp] theorem setOffers_qdepth : (s.setOffers c l).qdepth = s.qdepth := by cases c <;> rfl
@[simp] theorem setOffers_signals : (s.setOffers c l).signals = s.signals := by cases c <;> rfl
@[simp] theorem setOffers_requests : (s.setOffers c l).requests = s.requests := by cases c <;> rfl
@[simp] theorem setOffers_popped : (s.setOffers c l).popped = s.popped := by cases c <;> rfl
@[simp] theorem setOffers_answers : (s.setOffers c l).answers = s.answers := by cases c <;> rfl
@[simp] theorem offers_setOffers_same : (s.setOffers c l).offers c = l := by cases c <;> rfl

/-! ### The scheduler's fields -/

@[simp] theorem schedule_inst (t : List Turn) : ({ s with schedule := t } : State).inst c = s.inst c := by
  cases c <;> rfl
@[simp] theorem robin_inst (n : Nat) : ({ s with robin := n } : State).inst c = s.inst c := by cases c <;> rfl
@[simp] theorem signals_inst (t : List Signal) : ({ s with signals := t } : State).inst c = s.inst c := by
  cases c <;> rfl
@[simp] theorem q_inst (t : List Rec) : ({ s with q := t } : State).inst c = s.inst c := by cases c <;> rfl

/-- A used-up turn changes nothing an operation reads or writes. -/
theorem nextTurn_inst : (nextTurn s).2.inst c = s.inst c := by
  unfold nextTurn
  split <;> simp

/-- One instance after an operation given to a target (R325). -/
theorem onTarget_inst (t : Target) (f : ChanInst → ChanInst) :
    (onTarget t f s).inst c =
      match t with
      | .chan d => if c = d then f (s.inst c) else s.inst c
      | .receiver => f (s.inst c) := by
  cases t with
  | receiver => cases c <;> rfl
  | chan d => cases c <;> cases d <;> rfl

end Sys2Proof.Machine
end

