-- ==== Sys2Proof/Safety.lean ====
section
/-! DEFINITION. What a sound state of the receiver is and which operations belong to whom: the terms in which the
claims are stated. A safe run is one in which no step faults (60_exceptions.md R340); `Inv` is the invariant that
rules the faults out, put together from the ranges of 20_memory.md R78, the fill counts of 60_exceptions.md R359,
the life cycle of 48_system_ops.md R312, and the survivors of 42_viterbi.md R197. -/

namespace Sys2Proof.Machine

open Sys2Proof

/-! ### Operations and their owners -/

/-- The operations R312 calls unit operations (OPIDs 0x0A and 0x10 to 0x2B), with their instance. -/
def unitOpChan : Instr → Option Chan
  | .outPush c | .csStep c | .costasStep c | .rsmpStep c | .mfStep c | .ilvStep c | .vitStep c | .qdStep c
  | .rrcStep c | .crStep c | .tcorrStep c | .dfeStep c | .dfeRetrain c | .sliceStep c | .dstfSof c | .dstfEof c
  | .frmSof c | .frmEof c => some c
  | .diffStep c _ | .invStep c _ | .corrStep c _ | .gateData c _ | .gatePre c _ | .dstfBit c _ | .frmBit c _ =>
    some c
  | .gateFlag c _ _ => some c
  | _ => none

/-- The instance an operation belongs to; none for the receiver's own operations. -/
def ownerChan : Instr → Option Chan
  | .sysReset (.chan c) | .sysStart (.chan c) | .sysStop (.chan c) | .srcEos (.chan c) => some c
  | .cfgLoad c | .srcSample c | .sysDrained c => some c
  | i => unitOpChan i

/-- A reset that reaches an instance. -/
def resetsChan (c : Chan) : Instr → Prop
  | .sysReset (.chan c') => c' = c
  | .sysReset .receiver => True
  | _ => False

/-- The other instance. -/
def Chan.other : Chan → Chan
  | .a => .b
  | .b => .a

/-! ### Sound storage -/

/-- The elements of a buffer below `n` exist and have been written since reset (R359). -/
def WrittenBelow {α : Type} (buf : Buffer α) (n : Nat) : Prop := ∀ k, k < n → ∃ v, buf[k]? = some (some v)

/-- The written bits of a buffer among its first `n`. -/
def heldBits (fb : Buffer Bool) (n : Nat) : List Bool := (fb.take n).filterMap id

/-- Past CFG.LOAD (R312). -/
def Configured (i : ChanInst) : Prop := i.lc = .ready ∨ i.lc = .running ∨ i.lc = .draining ∨ i.lc = .done

/-- The life cycle: R25's "exactly when", R343's 0 for none, the hard-wired register of R23, the checks of R311 for
every instance past CFG.LOAD, and no token in flight where no unit operation is enabled (R312, R319). -/
structure LifecycleInv (i : ChanInst) : Prop where
  done_iff : i.done = true ↔ i.lc = .done
  err_iff : i.cfgErr ≠ 0 ↔ i.lc = .cfgError
  hardwired : i.cfg.symbolRate = 9600
  checked : Configured i → cfgCheck i.par i.cfg = 0
  quiet : unitsEnabled i = false → i.ch = Channels.empty

/-- The bit-level units: the ranges of R78, the hold-back line and frame buffer written below their counts (R359),
and the CRC register over the frame's bits (R43: "CRC register over `fb[0:flen]`"). -/
structure BitUnitsInv (i : ChanInst) : Prop where
  pos_lt : i.fd.pos < 2 ^ i.par.posW
  cnt_le : i.fd.cnt ≤ 16
  age_le : i.gate.age ≤ i.par.window + 1
  hbc_le : i.gate.hbc ≤ 7
  hb_length : i.gate.hb.length = 7
  hb_written : WrittenBelow i.gate.hb i.gate.hbc
  ones_le : i.dstfOnes ≤ 5
  flen_le : i.frm.flen ≤ i.par.frameMaxBits
  fb_length : i.frm.fb.length = i.par.frameMaxBits
  fb_written : WrittenBelow i.frm.fb i.frm.flen
  crc_over : i.frm.crc = crcRun crcInit (heldBits i.frm.fb i.frm.flen)
  ovf_active : i.frm.ovf = true → i.frm.active = true ∧ i.frm.flen = i.par.frameMaxBits

/-- The carrier estimator's block buffer (R27, R78). -/
structure CarrierInv (i : ChanInst) : Prop where
  fill_zero : i.lc = .unconfigured → i.cs.fill = 0
  buf_length : Configured i → i.cs.buf.length = i.cfg.fftlen.toNat
  fill_lt : Configured i → i.cs.fill < i.cfg.fftlen.toNat
  buf_written : Configured i → WrittenBelow i.cs.buf i.cs.fill

/-- The sequence decoder: sizes (R32), and R197's "Every entry on that walk is defined": a state with a finite metric
has a survivor in the newest column, and a survivor's state has one in the column before. -/
structure ViterbiInv (i : ChanInst) : Prop where
  vbuf_length : i.vit.vbuf.length = i.par.c
  vcnt_lt : i.vit.vcnt = 0 ∨ i.vit.vcnt < i.par.c
  vbuf_written : WrittenBelow i.vit.vbuf i.vit.vcnt
  pm_length : i.vit.pm.length = i.par.fsm.nstates
  sv_le : i.vit.sv.length ≤ i.par.vitTb
  columns : ∀ col ∈ i.vit.sv, col.length = i.par.fsm.nstates
  live : i.par.fsm.wf = true → ∃ (s : Nat) (v : Scalar), i.vit.pm[s]? = some (.fin v)
  newest : ∀ col, i.vit.sv.getLast? = some col →
    ∀ (s : Nat) (v : Scalar), i.vit.pm[s]? = some (.fin v) → ∃ e, col[s]? = some (some e)
  chain : ∀ (k : Nat) (older newer : Column), i.vit.sv[k]? = some older → i.vit.sv[k + 1]? = some newer →
    ∀ (s : Nat) (e : Nat × Bool), newer[s]? = some (some e) → ∃ e', older[e.1]? = some (some e')

/-- The sizes of the delay lines and tap arrays (R70) and the ranges of the counters beside them (R78). -/
structure StorageInv (i : ChanInst) : Prop where
  mf_length : i.mf.dl.length = i.par.mfLen
  mf_phase : i.mf.ph = 0 ∨ i.mf.ph < i.par.q
  rrc_length : i.rrcDl.length = i.par.rrcTaps.length
  rsmp_zero : i.lc = .unconfigured → i.rsmp.nxt = 0
  rsmp_length : Configured i → i.rsmp.hist.length = rsmpH i.par i.cfg
  rsmp_next : Configured i → i.rsmp.nxt < rsmpM i.par i.cfg
  tcorr_cnt : i.tcorr.cnt ≤ i.par.dfeTrainPlen
  tcorr_sr : i.tcorr.sr < 2 ^ i.par.dfeTrainPlen
  dfe_wf : i.dfe.wf.length = i.par.dfeNff
  dfe_wb : i.dfe.wb.length = i.par.dfeNfb
  dfe_u : i.dfe.u.length = i.par.dfeNff
  dfe_d : i.dfe.d.length = i.par.dfeNfb
  dfe_tcnt : i.dfe.tcnt ≤ i.par.dfeTrainRef.length

/-- A record as the parser makes it (R108, R284, R292). -/
def RecordOk (r : Rec) : Prop :=
  r.crcValid = true ∧ r.nbits = BitVec.ofNat 16 r.payload.length
    ∧ (r.hasCoords = false → r.lat = 0 ∧ r.lon = 0)

/-- A sound instance. -/
structure InstInv (i : ChanInst) : Prop where
  lifecycle : LifecycleInv i
  bits : BitUnitsInv i
  carrier : CarrierInv i
  viterbi : ViterbiInv i
  storage : StorageInv i
  records : ∀ r ∈ i.ch.rOut, RecordOk r

/-- A sound receiver. -/
structure Inv (s : State) : Prop where
  a : InstInv s.a
  b : InstInv s.b
  qdepth : qdepthOk s.qdepth = true
  queued : ∀ r ∈ s.q, RecordOk r
  delivered : ∀ r ∈ s.popped, RecordOk r

/-! ### A property named and not assumed (40_carrier_sync.md R141) -/

/-- R141's convergence property, "a property to be assumed by name, not one the rules prove": for the input `xs` of
carrier offset `f0`, from the registers `u`, after `blocks` completed blocks every estimate is within `eps` of the
offset. R141's own case has `blocks` = 1 and `eps` = `FS/(4*N)`. No statement assumes it. -/
def CarrierConverges (p : Params) (r : CfgRec) (u : CsRegs) (xs : List Cpx) (f0 eps : ℝ) (blocks : Nat) : Prop :=
  ∀ (n : Nat) (v : CsRegs) (out : List Cpx), r.fftlen.toNat * blocks ≤ n → n ≤ xs.length →
    runOp (csOp p r) u (xs.take n) = .ok (v, out) → |f0 - v.fest.val| ≤ eps

/-- A safe step: a next state, neither a fault nor a refusal (R340). -/
def StepsSafely (s : State) : Prop := ∃ t, step s = .next t

end Sys2Proof.Machine
end

