-- ==== Sys2Proof/Laws/Ops.lean ====
section
/-! SUPPORT. What each shared operation can do, said once: the buffers, the channels' room, one firing of a unit, the
taking of a signal. -/

namespace Sys2Proof.Machine

open Sys2Proof

/-! ### Buffers -/

@[simp] theorem shiftIn_length {α : Type} (dl : List α) (v : α) : (shiftIn dl v).length = dl.length := by
  simp [shiftIn]

/-- `shift_in` (R71), element by element. -/
theorem shiftIn_get {α : Type} (dl : List α) (v : α) (k : Nat) (h : k < dl.length) :
    (shiftIn dl v)[k]? = if k = 0 then some v else dl[k - 1]? := by
  cases k with
  | zero => simp [shiftIn, h]
  | succ n => simp [shiftIn, h]

/-- A write within the buffer succeeds and changes that element alone. -/
theorem memWrite_ok {α : Type} (nm : BufName) (buf : Buffer α) (i : Nat) (v : α) (h : i < buf.length) :
    memWrite nm buf i v = .ok (buf.set i (some v)) := if_pos h

/-- A write that succeeds was within the buffer. -/
theorem memWrite_inv {α : Type} {nm : BufName} {buf buf' : Buffer α} {i : Nat} {v : α}
    (h : memWrite nm buf i v = .ok buf') : i < buf.length ∧ buf' = buf.set i (some v) := by
  unfold memWrite at h
  split at h
  · exact ⟨‹_›, by simpa using h.symm⟩
  · cases h

/-- A read of written elements gives them. -/
theorem memRead_ok {α : Type} (nm : BufName) (buf : Buffer α) (vs : List α) (i : Nat)
    (h : ∀ k, k < vs.length → buf[i + k]? = (vs[k]?).map some) : memRead nm buf i vs.length = .ok vs := by
  induction vs generalizing i with
  | nil => rfl
  | cons v rest ih =>
    have h0 : buf[i]? = some (some v) := by simpa using h 0 (by simp)
    have hr : memRead nm buf (i + 1) rest.length = .ok rest := by
      apply ih
      intro k hk
      have := h (k + 1) (by simpa using hk)
      simpa [Nat.add_assoc, Nat.add_comm 1 k] using this
    simp [memRead, h0, hr]

/-- A read that answers has read the buffer's elements, all of them written. -/
theorem memRead_inv {α : Type} {nm : BufName} {buf : Buffer α} {n i : Nat} {vs : List α}
    (h : memRead nm buf i n = .ok vs) :
    vs.length = n ∧ ∀ k, k < n → buf[i + k]? = (vs[k]?).map some := by
  induction n generalizing i vs with
  | zero =>
    simp only [memRead, Except.ok.injEq] at h
    subst h
    exact ⟨rfl, fun k hk => absurd hk (Nat.not_lt_zero k)⟩
  | succ n ih =>
    simp only [memRead] at h
    split at h
    · cases h
    · cases h
    · rename_i v hv
      split at h
      · cases h
      · rename_i l hl
        cases h
        obtain ⟨hlen, hget⟩ := ih hl
        refine ⟨by simp [hlen], fun k hk => ?_⟩
        cases k with
        | zero => simpa using hv
        | succ k =>
          have := hget k (by omega)
          simpa [Nat.add_assoc, Nat.add_comm 1 k] using this

/-- Elements written below `n` can be read (R359). -/
theorem memRead_of_written {α : Type} (nm : BufName) (buf : Buffer α) (n i : Nat)
    (h : ∀ k, k < n → ∃ v, buf[i + k]? = some (some v)) : ∃ vs, memRead nm buf i n = .ok vs := by
  induction n generalizing i with
  | zero => exact ⟨[], rfl⟩
  | succ n ih =>
    obtain ⟨v, hv⟩ := h 0 (by omega)
    obtain ⟨vs, hvs⟩ := ih (i + 1) (fun k hk => by
      have := h (k + 1) (by omega)
      simpa [Nat.add_assoc, Nat.add_comm 1 k] using this)
    exact ⟨v :: vs, by simp [memRead, (by simpa using hv : buf[i]? = some (some v)), hvs]⟩

/-- One more written element. -/
theorem WrittenBelow.set {α : Type} {buf : Buffer α} {n : Nat} (h : WrittenBelow buf n) (hn : n < buf.length)
    (v : α) : WrittenBelow (buf.set n (some v)) (n + 1) := by
  intro k hk
  by_cases hkn : k = n
  · subst hkn
    exact ⟨v, by simp [hn]⟩
  · obtain ⟨w, hw⟩ := h k (by omega)
    exact ⟨w, by rw [List.getElem?_set_ne (fun e => hkn e.symm)]; exact hw⟩

/-- Nothing need be written below 0. -/
theorem writtenBelow_zero {α : Type} (buf : Buffer α) : WrittenBelow buf 0 :=
  fun k hk => absurd hk (Nat.not_lt_zero k)

/-! ### Room -/

/-- R45: no more tokens than its capacity stand in a channel. -/
theorem inChannel_length_le {α : Type} (depth : Nat) (port : List α) : (inChannel depth port).length ≤ depth := by
  simp [inChannel]

/-- A port's tokens are those in its channel, then those still in the producer's hand. -/
theorem inChannel_append_inHand {α : Type} (depth : Nat) (port : List α) :
    inChannel depth port ++ inHand depth port = port := List.take_append_drop _ _

/-- Nothing is in hand exactly when the port's tokens fit into the channel. -/
theorem inHand_isEmpty {α : Type} (depth : Nat) (port : List α) :
    (inHand depth port).isEmpty = true ↔ port.length ≤ depth := by
  simp [inHand]

/-- The unit has nothing in hand and room for `k` tokens exactly when they fit or the port is empty (R9, log
entry 13). -/
theorem fits_or_empty_iff {α : Type} (depth k : Nat) (port : List α) :
    ((inHand depth port).isEmpty = true ∧ hasRoom depth port k = true) ↔ (port.length + k ≤ depth ∨ port = []) := by
  rw [inHand_isEmpty]
  simp only [hasRoom, inChannel, List.length_take, Bool.or_eq_true, decide_eq_true_eq, List.isEmpty_iff]
  constructor
  · rintro ⟨h, h' | h'⟩
    · exact .inl (by omega)
    · exact .inr h'
  · rintro (h | rfl)
    · exact ⟨by omega, .inl (by omega)⟩
    · simp

/-- No room: at least one token too many in a channel that holds some. -/
theorem hasRoom_false {α : Type} {depth k : Nat} {port : List α} (hh : 0 < port.length) (hd : port.length ≤ depth)
    (h : depth < port.length + k) : hasRoom depth port k = false := by
  have : port.isEmpty = false := by cases port <;> simp_all
  simp only [hasRoom, inChannel, List.length_take, this, Bool.or_false, decide_eq_false_iff_not]
  omega

/-! ### Firing -/

variable {τ υ ω : Type}

/-- All a firing can do (R9, R12, R312): a firing that is done took the head token in an enabled unit, with room
for what it emits or an empty channel. -/
theorem fireUnit_done {i j : ChanInst} {inp : List τ} {sel : τ → Bool} {op : τ → Except Fault (υ × List ω)}
    {depth : Nat} {port : List ω} {commit : List τ → υ → List ω → ChanInst}
    (h : fireUnit i inp sel op depth port commit = .done j) :
    ∃ x rest u out, inp = x :: rest ∧ unitsEnabled i = true ∧ sel x = true ∧ op x = .ok (u, out)
      ∧ (port.length + out.length ≤ depth ∨ port = []) ∧ j = commit rest u out := by
  unfold fireUnit at h
  split at h
  · rename_i hen
    rw [Bool.and_eq_true] at hen
    split at h
    · cases h
    · split at h
      · split at h
        · cases h
        · split at h
          · rename_i hr
            cases h
            exact ⟨_, _, _, _, rfl, hen.1, ‹_›, ‹_›, (fits_or_empty_iff _ _ _).1 ⟨hen.2, hr⟩, rfl⟩
          · cases h
      · cases h
  · cases h

/-- A firing that faults faults in its operation. -/
theorem fireUnit_fault {i : ChanInst} {inp : List τ} {sel : τ → Bool} {op : τ → Except Fault (υ × List ω)}
    {depth : Nat} {port : List ω} {commit : List τ → υ → List ω → ChanInst} {f : Fault}
    (h : fireUnit i inp sel op depth port commit = .fault f) :
    ∃ x rest, inp = x :: rest ∧ unitsEnabled i = true ∧ sel x = true ∧ op x = .error f := by
  unfold fireUnit at h
  split at h
  · rename_i hen
    rw [Bool.and_eq_true] at hen
    split at h
    · cases h
    · split at h
      · split at h
        · cases h
          exact ⟨_, _, rfl, hen.1, ‹_›, ‹_›⟩
        · split at h <;> cases h
      · cases h
  · cases h

/-- When a unit fires. -/
theorem fireUnit_fires {i : ChanInst} {x : τ} {rest : List τ} {sel : τ → Bool} {op : τ → Except Fault (υ × List ω)}
    {depth : Nat} {port : List ω} {commit : List τ → υ → List ω → ChanInst} {u : υ} {out : List ω}
    (he : unitsEnabled i = true) (hs : sel x = true) (ho : op x = .ok (u, out))
    (hr : port.length + out.length ≤ depth ∨ port = []) :
    fireUnit i (x :: rest) sel op depth port commit = .done (commit rest u out) := by
  obtain ⟨h1, h2⟩ := (fits_or_empty_iff _ _ _).2 hr
  simp only [fireUnit, he, h1, h2, hs, ho, Bool.and_self, if_true]

/-- `fireUnit_fires` with the next state named. -/
theorem fireUnit_eq {i j : ChanInst} {inp : List τ} {sel : τ → Bool} {op : τ → Except Fault (υ × List ω)}
    {depth : Nat} {port : List ω} {commit : List τ → υ → List ω → ChanInst} {x : τ} {rest : List τ} (u : υ) (out : List ω)
    (hi : inp = x :: rest) (he : unitsEnabled i = true) (hs : sel x = true) (ho : op x = .ok (u, out))
    (hr : port.length + out.length ≤ depth ∨ port = []) (hj : commit rest u out = j) :
    fireUnit i inp sel op depth port commit = .done j := by
  subst hi hj
  exact fireUnit_fires he hs ho hr

/-- R312: a unit that is not enabled waits. -/
theorem fireUnit_disabled {i : ChanInst} {inp : List τ} {sel : τ → Bool} {op : τ → Except Fault (υ × List ω)}
    {depth : Nat} {port : List ω} {commit : List τ → υ → List ω → ChanInst} (h : unitsEnabled i = false) :
    fireUnit i inp sel op depth port commit = .wait := by simp [fireUnit, h]

/-- A unit that has no room for what it would emit waits (R9, R85). -/
theorem fireUnit_noRoom {i : ChanInst} {inp : List τ} {sel : τ → Bool} {op : τ → Except Fault (υ × List ω)}
    {depth : Nat} {port : List ω} {commit : List τ → υ → List ω → ChanInst}
    (ho : ∀ x, sel x = true →
      ∃ u out, op x = .ok (u, out) ∧ 0 < port.length ∧ depth < port.length + out.length) :
    fireUnit i inp sel op depth port commit = .wait := by
  unfold fireUnit
  split
  · rename_i hen
    rw [Bool.and_eq_true, inHand_isEmpty] at hen
    split
    · rfl
    · split
      · obtain ⟨u, o, e, h0, h1⟩ := ho _ ‹_›
        simp [e, hasRoom_false h0 hen.2 h1]
      · rfl
  · rfl

/-- While a part of a burst is in hand the unit waits (log entry 13). -/
theorem fireUnit_inHand {i : ChanInst} {inp : List τ} {sel : τ → Bool} {op : τ → Except Fault (υ × List ω)}
    {depth : Nat} {port : List ω} {commit : List τ → υ → List ω → ChanInst} (h : depth < port.length) :
    fireUnit i inp sel op depth port commit = .wait := by
  have : (inHand depth port).isEmpty = false := by
    rw [← Bool.not_eq_true, inHand_isEmpty]; omega
  simp [fireUnit, this]

/-- All a step of one instance can do. -/
theorem onInst_next {c : Chan} {f : ChanInst → Fire ChanInst} {s t : State} (h : onInst c f s = .next t) :
    (f (s.inst c) = .wait ∧ t = s) ∨ ∃ i, f (s.inst c) = .done i ∧ t = s.setInst c i := by
  unfold onInst at h
  split at h
  · cases h
    exact .inl ⟨‹_›, rfl⟩
  · cases h
  · cases h
    exact .inr ⟨_, ‹_›, rfl⟩

/-- The step of an instance whose firing is done. -/
theorem onInst_done {c : Chan} {f : ChanInst → Fire ChanInst} {s : State} {i : ChanInst}
    (h : f (s.inst c) = .done i) : onInst c f s = .next (s.setInst c i) := by simp [onInst, h]

/-- The step of an instance that waits. -/
theorem onInst_wait {c : Chan} {f : ChanInst → Fire ChanInst} {s : State} (h : f (s.inst c) = .wait) :
    onInst c f s = .next s := by simp [onInst, h]

/-- All the taking of a signal can do: it never stops, and changes nothing unless the signal is the next one. -/
theorem takeSignal_next (want : Signal) (k : State → State) (s : State) :
    (takeSignal want k s = .next s ∧ ∀ rest, s.signals ≠ want :: rest) ∨
      ∃ rest, s.signals = want :: rest ∧ takeSignal want k s = .next (k { s with signals := rest }) := by
  unfold takeSignal
  split
  · rename_i h
    exact .inl ⟨rfl, by simp [h]⟩
  · rename_i g rest h
    split
    · rename_i hg
      subst hg
      exact .inr ⟨rest, h, rfl⟩
    · rename_i hg
      exact .inl ⟨rfl, fun r hr => hg (by rw [h] at hr; exact (List.cons.inj hr).1)⟩

/-- R220, R226: a value's hard decision. -/
theorem hardBit_eq (v : Scalar) : hardBit v = decide (0 ≤ v.val) := by
  rw [Bool.eq_iff_iff, decide_eq_true_eq, hardBit, Scalar.le_iff]
  simp

/-- R342: an event raised under the verbosity gate is at most one record. -/
theorem raiseEvent_length (i : ChanInst) (code : BitVec 4) (opid : BitVec 8) (info : Nat) :
    (raiseEvent i code opid info).length ≤ 1 := by
  unfold raiseEvent
  split <;> simp

/-! ### Sequences -/

variable {σ : Type}

/-- A unit fed with one token more. -/
theorem runOp_append (op : σ → τ → Except Fault (σ × List ω)) (u v : σ) (xs ys : List τ) (out : List ω)
    (h : runOp op u xs = .ok (v, out)) :
    runOp op u (xs ++ ys) = (runOp op v ys).map (fun r => (r.1, out ++ r.2)) := by
  induction xs generalizing u out with
  | nil =>
    simp only [runOp, Except.ok.injEq, Prod.mk.injEq] at h
    obtain ⟨rfl, rfl⟩ := h
    simp only [List.nil_append]
    cases runOp op u ys <;> rfl
  | cons x xs ih =>
    simp only [runOp, List.cons_append] at h ⊢
    cases hx : op u x with
    | error f => simp [hx] at h
    | ok r =>
      obtain ⟨w, o⟩ := r
      simp only [hx] at h ⊢
      cases hr : runOp op w xs with
      | error f => simp [hr] at h
      | ok r' =>
        obtain ⟨w', o'⟩ := r'
        simp only [hr, Except.ok.injEq, Prod.mk.injEq] at h
        obtain ⟨rfl, rfl⟩ := h
        rw [ih w o' hr]
        cases runOp op w' ys with
        | error f => rfl
        | ok r'' => simp [Except.map, List.append_assoc]

/-- The CRC register over one bit more (R285). -/
theorem crcRun_snoc (r : BitVec 16) (l : List Bool) (b : Bool) : crcRun r (l ++ [b]) = crcStep (crcRun r l) b := by
  simp [crcRun]

end Sys2Proof.Machine
end

