-- ==== Sys2Proof/Laws/Frames.lean ====
section
/-! SUPPORT. The frame of every unit's firing, said once: a firing that is done changes the registers of its own unit
and the instance's channels, and nothing else of the instance (R9, R74). -/

namespace Sys2Proof.Machine

open Sys2Proof

variable {i j : ChanInst}

theorem csFire_frame (h : csFire i = .done j) :
    ∃ u h, j = { i with cs := u, ch := h } := by
  obtain ⟨_, _, _, _, _, _, _, _, _, rfl⟩ := fireUnit_done h
  exact ⟨_, _, rfl⟩

theorem costasFire_frame (h : costasFire i = .done j) :
    ∃ u h, j = { i with costas := u, ch := h } := by
  obtain ⟨_, _, _, _, _, _, _, _, _, rfl⟩ := fireUnit_done h
  exact ⟨_, _, rfl⟩

theorem rsmpFire_frame (h : rsmpFire i = .done j) :
    ∃ u h, j = { i with rsmp := u, ch := h } := by
  obtain ⟨_, _, _, _, _, _, _, _, _, rfl⟩ := fireUnit_done h
  exact ⟨_, _, rfl⟩

theorem mfFire_frame (h : mfFire i = .done j) :
    ∃ u h, j = { i with mf := u, ch := h } := by
  obtain ⟨_, _, _, _, _, _, _, _, _, rfl⟩ := fireUnit_done h
  exact ⟨_, _, rfl⟩

theorem ilvFire_frame (h : ilvFire i = .done j) :
    ∃ h, j = { i with ch := h } := by
  obtain ⟨_, _, _, _, _, _, _, _, _, rfl⟩ := fireUnit_done h
  exact ⟨_, rfl⟩

theorem vitFire_frame (h : vitFire i = .done j) :
    ∃ u h, j = { i with vit := u, ch := h } := by
  obtain ⟨_, _, _, _, _, _, _, _, _, rfl⟩ := fireUnit_done h
  exact ⟨_, _, rfl⟩

theorem qdFire_frame (h : qdFire i = .done j) :
    ∃ u h, j = { i with qdPrev := u, ch := h } := by
  obtain ⟨_, _, _, _, _, _, _, _, _, rfl⟩ := fireUnit_done h
  exact ⟨_, _, rfl⟩

theorem rrcFire_frame (h : rrcFire i = .done j) :
    ∃ u h, j = { i with rrcDl := u, ch := h } := by
  obtain ⟨_, _, _, _, _, _, _, _, _, rfl⟩ := fireUnit_done h
  exact ⟨_, _, rfl⟩

theorem crFire_frame (h : crFire i = .done j) :
    ∃ u h, j = { i with cr := u, ch := h } := by
  obtain ⟨_, _, _, _, _, _, _, _, _, rfl⟩ := fireUnit_done h
  exact ⟨_, _, rfl⟩

theorem tcorrFire_frame (h : tcorrFire i = .done j) :
    ∃ u h, j = { i with tcorr := u, ch := h } := by
  obtain ⟨_, _, _, _, _, _, _, _, _, rfl⟩ := fireUnit_done h
  exact ⟨_, _, rfl⟩

theorem dfeFire_frame {hit : Bool} {op : ChanInst → Scalar → DfeRegs × List Scalar} (h : dfeFire hit op i = .done j) :
    ∃ u h, j = { i with dfe := u, ch := h } := by
  obtain ⟨_, _, _, _, _, _, _, _, _, rfl⟩ := fireUnit_done h
  exact ⟨_, _, rfl⟩

theorem diffFire_frame {b : Bool} (h : diffFire b i = .done j) :
    ∃ u h, j = { i with ldPrev := u, ch := h } := by
  obtain ⟨_, _, _, _, _, _, _, _, _, rfl⟩ := fireUnit_done h
  exact ⟨_, _, rfl⟩

theorem invFire_frame {b : Bool} (h : invFire b i = .done j) :
    ∃ h, j = { i with ch := h } := by
  obtain ⟨_, _, _, _, _, _, _, _, _, rfl⟩ := fireUnit_done h
  exact ⟨_, rfl⟩

theorem corrFire_frame {b : Bool} (h : corrFire b i = .done j) :
    ∃ u o h, o.diag = i.obs.diag ∧ j = { i with fd := u, obs := o, ch := h } := by
  obtain ⟨_, _, _, _, _, _, _, _, _, rfl⟩ := fireUnit_done h
  exact ⟨_, reportTags i.obs (tagBit i.fd b) i.fd.pos, _, rfl, rfl⟩

theorem gateFire_frame {tok : T3} {op : ChanInst → Except Fault (GateRegs × List FT2)} (h : gateFire tok op i = .done j) :
    ∃ u h, j = { i with gate := u, ch := h } := by
  obtain ⟨_, _, _, _, _, _, _, _, _, rfl⟩ := fireUnit_done h
  exact ⟨_, _, rfl⟩

theorem dstfFire_frame {tok : FT2} (h : dstfFire tok i = .done j) :
    ∃ u h, j = { i with dstfOnes := u, ch := h } := by
  obtain ⟨_, _, _, _, _, _, _, _, _, rfl⟩ := fireUnit_done h
  exact ⟨_, _, rfl⟩

theorem frmSofFire_frame (h : frmSofFire i = .done j) :
    ∃ u h, j = { i with frm := u, ch := h } := by
  obtain ⟨_, _, _, _, _, _, _, _, _, rfl⟩ := fireUnit_done h
  exact ⟨_, _, rfl⟩

theorem sliceFire_frame (h : sliceFire i = .done j) : ∃ h', j = { i with ch := h' } := by
  unfold sliceFire at h
  split at h <;>
  · obtain ⟨_, _, _, _, _, _, _, _, _, rfl⟩ := fireUnit_done h
    exact ⟨_, rfl⟩

/-- FRM.BIT adds at most one event (R283, R352). -/
theorem frmBitOp_events {b : Bool} {u : FrmRegs} {l : List Event} (h : frmBitOp i b = .ok (u, l)) :
    l = [] ∨ l = raiseEvent i evFrameOverrun 0x29 i.par.frameMaxBits := by
  unfold frmBitOp at h
  split at h
  · unfold frmStore at h
    split at h
    · cases h
      exact .inr rfl
    · split at h
      · cases h
      · cases h
        exact .inl rfl
  · cases h
    exact .inl rfl

theorem frmBitFire_frame {b : Bool} (h : frmBitFire b i = .done j) :
    ∃ u l h', (l = [] ∨ l = raiseEvent i evFrameOverrun 0x29 i.par.frameMaxBits) ∧
      j = { i with frm := u, obs := i.obs.emitDiag l, ch := h' } := by
  obtain ⟨_, _, u, _, _, _, _, ho, _, rfl⟩ := fireUnit_done h
  obtain ⟨u, l⟩ := u
  cases hb : frmBitOp i b with
  | error f => simp [hb, Except.map] at ho
  | ok r =>
    simp only [hb, Except.map, Except.ok.injEq, Prod.mk.injEq] at ho
    obtain ⟨rfl, -⟩ := ho
    exact ⟨_, _, _, frmBitOp_events hb, rfl⟩

/-- FRM.EOF adds at most one event and hands over at most one record (R284, R351). -/
theorem frmEofOp_events {u : FrmRegs} {l : List Event} {rs : List Rec} (h : frmEofOp i = .ok ((u, l), rs)) :
    (l = [] ∨ l = raiseEvent i evCrcFail 0x2B i.frm.flen) ∧ rs.length ≤ 1 := by
  unfold frmEofOp at h
  split at h
  · unfold frmClose at h
    split at h
    · cases h
    · rename_i r hr
      cases h
      split at hr
      · split at hr
        · cases hr
        · cases hr
          exact ⟨.inl rfl, by simp⟩
      · cases hr
        exact ⟨.inr rfl, by simp⟩
  · cases h
    exact ⟨.inl rfl, by simp⟩

theorem frmEofFire_frame (h : frmEofFire i = .done j) :
    ∃ u l h', (l = [] ∨ l = raiseEvent i evCrcFail 0x2B i.frm.flen) ∧
      j = { i with frm := u, obs := i.obs.emitDiag l, ch := h' } := by
  obtain ⟨_, _, u, _, _, _, _, ho, _, rfl⟩ := fireUnit_done h
  obtain ⟨u, l⟩ := u
  exact ⟨_, _, _, (frmEofOp_events ho).1, rfl⟩

/-- SYS.DRAINED writes the life cycle alone (R319). -/
theorem drainedInst_frame (h : drainedInst i = .done j) :
    i.lc = .draining ∧ i.ch = Channels.empty ∧ j = { i with lc := .done, done := true } := by
  unfold drainedInst at h
  split at h
  · rename_i hc
    cases h
    exact ⟨hc.1, by simpa [channelsEmpty] using hc.2, rfl⟩
  · cases h

end Sys2Proof.Machine
end

