-- ==== Sys2Proof/Laws/Effects.lean ====
section
/-! SUPPORT. What an operation can do to an instance, said once over all operations (`exec_effect`): the rules over all
operations are short case analyses of it. -/

namespace Sys2Proof.Machine

open Sys2Proof

/-- What a unit operation leaves: configuration, life cycle, every other unit's signal-path registers, and the events
it may add. -/
structure UnitFrame (op : Instr) (c : Chan) (i j : ChanInst) : Prop where
  par : j.par = i.par
  cfg : j.cfg = i.cfg
  lc : j.lc = i.lc
  done : j.done = i.done
  vit : op ≠ .vitStep c → j.vit = i.vit
  costas : op ≠ .costasStep c → j.costas = i.costas
  cs : op ≠ .csStep c → j.cs = i.cs
  rsmp : op ≠ .rsmpStep c → j.rsmp = i.rsmp
  mf : op ≠ .mfStep c → j.mf = i.mf
  qd : op ≠ .qdStep c → j.qdPrev = i.qdPrev
  rrc : op ≠ .rrcStep c → j.rrcDl = i.rrcDl
  cr : op ≠ .crStep c → j.cr = i.cr
  tcorr : op ≠ .tcorrStep c → j.tcorr = i.tcorr
  dfe : op ≠ .dfeStep c → op ≠ .dfeRetrain c → j.dfe = i.dfe
  ev : ∃ l, j.obs.diag = i.obs.diag ++ l ∧ (l = [] ∨ (op = .frmEof c ∧ l = raiseEvent i evCrcFail 0x2B i.frm.flen) ∨ ((∃ b, op = .frmBit c b) ∧ l = raiseEvent i evFrameOverrun 0x29 i.par.frameMaxBits))

theorem UnitFrame.refl (op c i) : UnitFrame op c i i := by
  constructor <;> intros <;> first | rfl | exact ⟨[], by simp⟩

/-- A unit operation waits, or changes its own instance within its frame (OUT.PUSH also appends to Q). -/
theorem unit_next {op c s t} (hc : unitOpChan op = some c) (h : exec op s = .next t) :
    t = s ∨ ∃ j, UnitFrame op c (s.inst c) j ∧ (t = s.setInst c j ∨ (op = .outPush c ∧ ∃ r rest, (s.inst c).ch.rOut = r :: rest ∧ j = { s.inst c with ch := { (s.inst c).ch with rOut := rest } } ∧ t = { s with q := s.q ++ [r] }.setInst c j)) := by
  cases op <;> simp only [unitOpChan, Option.some.injEq, reduceCtorEq] at hc <;> subst hc
  case outPush c =>
    simp only [exec, execOutPush] at h
    split at h
    · cases h; exact .inl rfl
    · rename_i r rest hr
      split at h
      · cases h
        refine .inr ⟨_, ?_, .inr ⟨rfl, r, rest, hr, rfl, rfl⟩⟩
        constructor <;> intros <;> first | rfl | exact ⟨[], by simp⟩
      · cases h; exact .inl rfl
  all_goals
    simp only [exec, execCsStep, execCostasStep, execRsmpStep, execMfStep, execIlvStep, execVitStep, execQdStep, execRrcStep, execCrStep, execTcorrStep, execDfeStep, execDfeRetrain, execSliceStep, execDiffStep, execInvStep, execCorrStep, execGateData, execGatePre, execGateFlag, execDstfBit, execDstfSof, execDstfEof, execFrmBit, execFrmSof, execFrmEof] at h
    rcases onInst_next h with ⟨_, rfl⟩ | ⟨j, hj, rfl⟩
    · exact .inl rfl
    · refine .inr ⟨j, ?_, .inl rfl⟩
      first
      | obtain ⟨u, h', rfl⟩ := csFire_frame hj
      | obtain ⟨u, h', rfl⟩ := costasFire_frame hj
      | obtain ⟨u, h', rfl⟩ := rsmpFire_frame hj
      | obtain ⟨u, h', rfl⟩ := mfFire_frame hj
      | obtain ⟨h', rfl⟩ := ilvFire_frame hj
      | obtain ⟨u, h', rfl⟩ := vitFire_frame hj
      | obtain ⟨u, h', rfl⟩ := qdFire_frame hj
      | obtain ⟨u, h', rfl⟩ := rrcFire_frame hj
      | obtain ⟨u, h', rfl⟩ := crFire_frame hj
      | obtain ⟨u, h', rfl⟩ := tcorrFire_frame hj
      | obtain ⟨u, h', rfl⟩ := dfeFire_frame hj
      | obtain ⟨h', rfl⟩ := sliceFire_frame hj
      | obtain ⟨u, h', rfl⟩ := diffFire_frame hj
      | obtain ⟨h', rfl⟩ := invFire_frame hj
      | obtain ⟨u, o, h', ho, rfl⟩ := corrFire_frame hj
      | obtain ⟨u, h', rfl⟩ := gateFire_frame hj
      | obtain ⟨u, h', rfl⟩ := dstfFire_frame hj
      | obtain ⟨u, h', rfl⟩ := frmSofFire_frame hj
      | obtain ⟨u, l, h', hl, rfl⟩ := frmBitFire_frame hj
      | obtain ⟨u, l, h', hl, rfl⟩ := frmEofFire_frame hj
      constructor <;> intros <;> first
        | rfl
        | exact ⟨[], (List.append_nil _).symm, .inl rfl⟩
        | exact ⟨[], ho.trans (List.append_nil _).symm, .inl rfl⟩
        | (exact absurd rfl ‹_ ≠ _›)
        | (exact absurd rfl (by assumption))
        | (refine ⟨l, rfl, ?_⟩; rcases hl with rfl | rfl; (· exact .inl rfl); exact .inr (.inr ⟨⟨_, rfl⟩, rfl⟩))
        | (refine ⟨l, rfl, ?_⟩; rcases hl with rfl | rfl; (· exact .inl rfl); exact .inr (.inl ⟨rfl, rfl⟩))

theorem takeSignal_cases {want k s t} (h : takeSignal want k s = .next t) : t = s ∨ ∃ rest, s.signals = want :: rest ∧ t = k { s with signals := rest } := by
  rcases takeSignal_next want k s with ⟨h1, _⟩ | ⟨rest, h1, h2⟩
  · rw [h1] at h; cases h; exact .inl rfl
  · rw [h2] at h; cases h; exact .inr ⟨rest, h1, rfl⟩

/-- What one operation can do to one channel: nothing, its unit's write, or one of the system operations' changes. -/
inductive Effect (op : Instr) (c : Chan) (s t : State) : Prop
  | same (h : t.inst c = s.inst c)
  | unit (h : unitOpChan op = some c) (f : UnitFrame op c (s.inst c) (t.inst c))
  | reset (h : resetsChan c op) (f : t.inst c = resetInst (s.inst c))
  | load (h : op = .cfgLoad c) (r : CfgRec) (f : t.inst c = loadInst r (s.inst c))
  | start (h : op = .sysStart (.chan c) ∨ op = .sysStart .receiver) (f : t.inst c = startInst (s.inst c))
  | drain (h : op = .sysStop (.chan c) ∨ op = .sysStop .receiver ∨ op = .srcEos (.chan c) ∨ op = .srcEos .receiver) (f : t.inst c = drainInst (s.inst c))
  | sample (h : op = .srcSample c) (hc : Channels) (f : t.inst c = { s.inst c with ch := hc })
  | drained (h : op = .sysDrained c) (h1 : (s.inst c).lc = .draining) (f : t.inst c = { s.inst c with lc := .done, done := true })

theorem Chan.eq_other_of_ne {c d : Chan} (h : c ≠ d) : d = Chan.other c := by cases c <;> cases d <;> simp_all [Chan.other]

/-- The effect of any operation on any instance. -/
theorem exec_effect {op c s t} (h : exec op s = .next t) : Effect op c s t := by
  cases hu : unitOpChan op with
  | some d =>
    rcases unit_next hu h with rfl | ⟨j, hf, ht⟩
    · exact .same rfl
    · by_cases hcd : c = d
      · subst hcd
        rcases ht with rfl | ⟨_, r, rest, _, _, rfl⟩
        · exact .unit hu (by simpa using hf)
        · exact .unit hu (by simpa using hf)
      · refine .same ?_
        rcases ht with rfl | ⟨_, r, rest, _, _, rfl⟩
        · exact inst_setInst_of_ne _ _ _ _ hcd
        · rw [inst_setInst_of_ne _ _ _ _ hcd]; simp
  | none =>
    cases op <;> simp only [unitOpChan, reduceCtorEq] at hu
    case sysReset g =>
      rcases takeSignal_cases h with rfl | ⟨rest, _, rfl⟩
      · exact .same rfl
      · cases g with
        | receiver => exact .reset trivial (by cases c <;> rfl)
        | chan d =>
          by_cases hcd : c = d
          · subst hcd; exact .reset rfl (by simp [applyReset])
          · exact .same (by simp only [applyReset]; rw [inst_setInst_of_ne _ _ _ _ hcd]; simp)
    case cfgLoad d =>
      simp only [exec, execCfgLoad] at h
      split at h
      · split at h
        · rename_i c' r rest hs hcc
          cases h
          by_cases hcd : c = d
          · subst hcd; exact .load rfl r (by simp)
          · exact .same (by rw [inst_setInst_of_ne _ _ _ _ hcd]; simp)
        · cases h; exact .same rfl
      · cases h; exact .same rfl
    case sysStart g =>
      rcases takeSignal_cases h with rfl | ⟨rest, _, rfl⟩
      · exact .same rfl
      · cases g with
        | receiver => exact .start (.inr rfl) (by rw [onTarget_inst]; simp)
        | chan d =>
          by_cases hcd : c = d
          · subst hcd; exact .start (.inl rfl) (by rw [onTarget_inst]; simp)
          · exact .same (by rw [onTarget_inst]; simp [hcd])
    case sysStop g =>
      rcases takeSignal_cases h with rfl | ⟨rest, _, rfl⟩
      · exact .same rfl
      · cases g with
        | receiver => exact .drain (by simp) (by rw [onTarget_inst]; simp)
        | chan d =>
          by_cases hcd : c = d
          · subst hcd; exact .drain (by simp) (by rw [onTarget_inst]; simp)
          · exact .same (by rw [onTarget_inst]; simp [hcd])
    case srcEos g =>
      rcases takeSignal_cases h with rfl | ⟨rest, _, rfl⟩
      · exact .same rfl
      · cases g with
        | receiver => exact .drain (by simp) (by rw [onTarget_inst]; simp)
        | chan d =>
          by_cases hcd : c = d
          · subst hcd; exact .drain (by simp) (by rw [onTarget_inst]; simp)
          · exact .same (by rw [onTarget_inst]; simp [hcd])
    case srcSample d =>
      simp only [exec, execSrcSample] at h
      split at h
      · cases h; exact .same rfl
      · split at h
        · cases h
          by_cases hcd : c = d
          · subst hcd; exact .sample rfl _ (by simp; rfl)
          · exact .same (by rw [inst_setInst_of_ne _ _ _ _ hcd]; simp)
        · cases h; exact .same rfl
    case sysDrained d =>
      rcases onInst_next h with ⟨_, rfl⟩ | ⟨j, hj, rfl⟩
      · exact .same rfl
      · obtain ⟨h1, _, rfl⟩ := drainedInst_frame hj
        by_cases hcd : c = d
        · subst hcd; exact .drained rfl h1 (by simp)
        · exact .same (inst_setInst_of_ne _ _ _ _ hcd)
    case qPop =>
      simp only [exec, execQPop] at h
      split at h <;> cases h
      · exact .same (by cases c <;> rfl)
      · exact .same rfl
    case qEmpty =>
      simp only [exec, execQEmpty] at h
      split at h <;> cases h
      · exact .same (by cases c <;> rfl)
      · exact .same rfl

theorem loadInst_cases (r i) : loadInst r i = i ∧ i.lc ≠ .unconfigured ∨ i.lc = .unconfigured ∧ (loadInst r i = configure r i ∧ cfgCheck i.par r = 0 ∨ loadInst r i = refuseConfig (cfgCheck i.par r) r i ∧ cfgCheck i.par r ≠ 0) := by
  unfold loadInst
  by_cases h1 : i.lc = .unconfigured
  · by_cases h2 : cfgCheck i.par r = 0
    · exact .inr ⟨h1, .inl ⟨by rw [if_pos h1, if_pos h2], h2⟩⟩
    · exact .inr ⟨h1, .inr ⟨by rw [if_pos h1, if_neg h2], h2⟩⟩
  · exact .inl ⟨by rw [if_neg h1], h1⟩

theorem startInst_cases (i) : startInst i = i ∨ i.lc = .ready ∧ startInst i = { i with lc := .running } := by
  unfold startInst; split <;> simp_all
theorem drainInst_cases (i) : drainInst i = i ∨ i.lc = .running ∧ drainInst i = { i with lc := .draining } := by
  unfold drainInst; split <;> simp_all

end Sys2Proof.Machine
end

