-- ==== Sys2Proof/Laws/PerInstr.lean ====
section
/-! SUPPORT. Statements made for all operations, one lemma per operation. `EncodedWord`: an operation's word is two
bytes, the first a token of at most three bits (R103 to R105), the second with its reserved bit clear (log entry 5). -/

namespace Sys2Proof.Laws.EncodedWord

open Sys2Proof

/-- The shape of an operation word. -/
def Statement (i : Instr) : Prop :=
  ∃ w sel : Byte, encode i = [w, sel] ∧ w.toNat < 8 ∧ sel.getLsbD 5 = false

/-- Every word built by `opWord` has the shape. -/
theorem opWord_shape (tr : Trigger) (t : Target) (w : Byte) (hw : w.toNat < 8) :
    ∃ v sel : Byte, opWord tr t w = [v, sel] ∧ v.toNat < 8 ∧ sel.getLsbD 5 = false :=
  ⟨w, _, rfl, hw, by cases tr <;> rcases t with (_ | _) | _ <;> decide⟩

theorem sysReset (t : Target) : Statement (.sysReset t) := opWord_shape _ _ _ (by decide)
theorem cfgLoad (c : Chan) : Statement (.cfgLoad c) := opWord_shape _ _ _ (by decide)
theorem sysStart (t : Target) : Statement (.sysStart t) := opWord_shape _ _ _ (by decide)
theorem sysStop (t : Target) : Statement (.sysStop t) := opWord_shape _ _ _ (by decide)
theorem srcSample (c : Chan) : Statement (.srcSample c) := opWord_shape _ _ _ (by decide)
theorem srcEos (t : Target) : Statement (.srcEos t) := opWord_shape _ _ _ (by decide)
theorem sysDrained (c : Chan) : Statement (.sysDrained c) := opWord_shape _ _ _ (by decide)
theorem qPop : Statement .qPop := opWord_shape _ _ _ (by decide)
theorem qEmpty : Statement .qEmpty := opWord_shape _ _ _ (by decide)
theorem outPush (c : Chan) : Statement (.outPush c) := opWord_shape _ _ _ (by decide)
theorem csStep (c : Chan) : Statement (.csStep c) := opWord_shape _ _ _ (by decide)
theorem costasStep (c : Chan) : Statement (.costasStep c) := opWord_shape _ _ _ (by decide)
theorem rsmpStep (c : Chan) : Statement (.rsmpStep c) := opWord_shape _ _ _ (by decide)
theorem mfStep (c : Chan) : Statement (.mfStep c) := opWord_shape _ _ _ (by decide)
theorem ilvStep (c : Chan) : Statement (.ilvStep c) := opWord_shape _ _ _ (by decide)
theorem vitStep (c : Chan) : Statement (.vitStep c) := opWord_shape _ _ _ (by decide)
theorem qdStep (c : Chan) : Statement (.qdStep c) := opWord_shape _ _ _ (by decide)
theorem rrcStep (c : Chan) : Statement (.rrcStep c) := opWord_shape _ _ _ (by decide)
theorem crStep (c : Chan) : Statement (.crStep c) := opWord_shape _ _ _ (by decide)
theorem tcorrStep (c : Chan) : Statement (.tcorrStep c) := opWord_shape _ _ _ (by decide)
theorem dfeStep (c : Chan) : Statement (.dfeStep c) := opWord_shape _ _ _ (by decide)
theorem dfeRetrain (c : Chan) : Statement (.dfeRetrain c) := opWord_shape _ _ _ (by decide)
theorem sliceStep (c : Chan) : Statement (.sliceStep c) := opWord_shape _ _ _ (by decide)
theorem diffStep (c : Chan) (b : Bool) : Statement (.diffStep c b) := opWord_shape _ _ _ (by cases b <;> decide)
theorem invStep (c : Chan) (b : Bool) : Statement (.invStep c b) := opWord_shape _ _ _ (by cases b <;> decide)
theorem corrStep (c : Chan) (b : Bool) : Statement (.corrStep c b) := opWord_shape _ _ _ (by cases b <;> decide)
theorem gateData (c : Chan) (b : Bool) : Statement (.gateData c b) := opWord_shape _ _ _ (by cases b <;> decide)
theorem gatePre (c : Chan) (b : Bool) : Statement (.gatePre c b) := opWord_shape _ _ _ (by cases b <;> decide)
theorem gateFlag (c : Chan) (p : Bool) (b : Bool) : Statement (.gateFlag c p b) :=
  opWord_shape _ _ _ (by cases p <;> cases b <;> decide)
theorem dstfBit (c : Chan) (b : Bool) : Statement (.dstfBit c b) := opWord_shape _ _ _ (by cases b <;> decide)
theorem dstfSof (c : Chan) : Statement (.dstfSof c) := opWord_shape _ _ _ (by decide)
theorem dstfEof (c : Chan) : Statement (.dstfEof c) := opWord_shape _ _ _ (by decide)
theorem frmBit (c : Chan) (b : Bool) : Statement (.frmBit c b) := opWord_shape _ _ _ (by cases b <;> decide)
theorem frmSof (c : Chan) : Statement (.frmSof c) := opWord_shape _ _ _ (by decide)
theorem frmEof (c : Chan) : Statement (.frmEof c) := opWord_shape _ _ _ (by decide)

end Sys2Proof.Laws.EncodedWord
end

