-- ==== Sys2Proof/Certificates/Slice0/Obligations.lean ====
section
/-! DEFINITION. The statements for the provers, in the order of OBLIGATIONS.json. A result is stated as the exact next
state, so that it says at once that the operation completes, what it writes and that it writes nothing else.
Throughout, `i` is the instance the operation belongs to and `s.setInst c j` is the receiver with that instance
replaced by `j`. -/

open Sys2Proof Sys2Proof.Machine

/-! ### Reading operations -/

/-- R114, R104, R105: words of each kind of token decode to the operation their tag bits select. The numbers of byte 1
are the model's choice (log entry 5). -/
def Obligations.DecodeOfSpecWords : Prop :=
  decode [0b000, 0x00] = .ok (.gateData .a false, []) ∧
  decode [0b001, 0x40] = .ok (.gateData .b true, []) ∧
  decode [0b010, 0x00] = .ok (.gatePre .a false, []) ∧
  decode [0b100, 0x40] = .ok (.gateFlag .b false false, []) ∧
  decode [0b111, 0x00] = .ok (.gateFlag .a true true, []) ∧
  decode [0b01, 0x01] = .ok (.dstfBit .a true, []) ∧
  decode [0b10, 0x01] = .ok (.dstfSof .a, []) ∧
  decode [0b11, 0x41] = .ok (.dstfEof .b, []) ∧
  decode [0b00, 0x02] = .ok (.frmBit .a false, []) ∧
  decode [0b10, 0x42] = .ok (.frmSof .b, []) ∧
  decode [0b11, 0x02] = .ok (.frmEof .a, []) ∧
  decode [0b0, 0x03] = .ok (.dfeStep .a, []) ∧
  decode [0b1, 0x43] = .ok (.dfeRetrain .b, []) ∧
  decode [0b1, 0x04] = .ok (.diffStep .a true, []) ∧
  decode [0, 0x94] = .ok (.sysReset .receiver, [])

/-- R9, R100: the agent whose turn it is performs the operation its trigger's word decodes to. That the operation runs on
the state in which the turn is used up, that an agent without a trigger only uses its turn up, and that a withdrawing
source drops its first offer, are the model's choices (log entries 9, 18 and 10). -/
def Obligations.StepRunsDecodedOperation : Prop :=
  (∀ (s u : State) (t : Turn) (w rest : List Byte) (i : Instr),
    nextTurn s = (t, u) → fetch t u = some w → decode w = .ok (i, rest) → step s = exec i u) ∧
  (∀ (s u : State) (t : Turn),
    nextTurn s = (t, u) → fetch t u = none →
      step s = .next (match t with
        | .withdraw c => u.setOffers c ((u.offers c).drop 1)
        | _ => u))

/-- R9, R100: what stands at an agent's trigger always decodes, and to an operation of that agent. -/
def Obligations.AgentFetchesItsOwnOperation : Prop :=
  ∀ (t : Turn) (s : State) (w : List Byte), fetch t s = some w →
    ∃ i : Instr, decode w = .ok (i, []) ∧ turnOf i = t

/-- Decoding undoes encoding, whatever follows the word, and every word that decodes is the encoding of what it
decodes to: no bit of a word is dropped, no two operations share a word. -/
def Obligations.DecodeEncodeBothWays : Prop :=
  (∀ (i : Instr) (rest : List Byte), decode (encode i ++ rest) = .ok (i, rest)) ∧
  (∀ (bs rest : List Byte) (i : Instr), decode bs = .ok (i, rest) → bs = encode i ++ rest)

/-! ### Reset and life cycle -/

/-- R48, R382: what an instance and the receiver hold after power-on, for every choice of parameters. `CFG` other than
its hard-wired register, the elements of `RSMP.hist` and `CR.omega` are left out: R48 gives them no value before
CFG.LOAD. -/
def Obligations.ResetValues : Prop :=
  (∀ (p : Params) (o : Observed),
    let i := ChanInst.reset p o
    i.par = p ∧ i.obs = o ∧ i.lc = .unconfigured ∧ i.done = false ∧ i.cfgErr = 0 ∧ i.cfg.symbolRate = 9600 ∧
    i.cs.fill = 0 ∧ i.cs.phase = .rat 0 ∧ i.cs.fest = .rat 0 ∧ i.costas.theta = .rat 0 ∧ i.costas.omega = .rat 0 ∧
    i.rsmp.nxt = 0 ∧ i.mf.dl = List.replicate p.mfLen Cpx.zero ∧ i.mf.ph = 0 ∧
    i.vit.vcnt = 0 ∧ i.vit.pm = List.replicate p.fsm.nstates (.fin (.rat 0)) ∧ i.vit.sv = [] ∧
    i.qdPrev = Cpx.zero ∧ i.rrcDl = List.replicate p.rrcTaps.length (.rat 0) ∧
    i.cr.prevIn = .rat 0 ∧ i.cr.t = p.crT0 ∧ i.cr.lastOut = .rat 0 ∧ i.tcorr.sr = 0 ∧ i.tcorr.cnt = 0 ∧
    i.dfe.wf = List.replicate p.dfeNff (.rat 0) ∧ i.dfe.wb = List.replicate p.dfeNfb (.rat 0) ∧
    i.dfe.u = List.replicate p.dfeNff (.rat 0) ∧ i.dfe.d = List.replicate p.dfeNfb (.rat 0) ∧
    i.dfe.tcnt = p.dfeTrainRef.length ∧ i.ldPrev = false ∧ i.fd.sr = 0 ∧ i.fd.cnt = 0 ∧ i.fd.pos = 0 ∧
    i.gate.age = p.window + 1 ∧ i.gate.isOpen = false ∧ i.gate.hbc = 0 ∧ i.dstfOnes = 0 ∧
    i.frm.active = false ∧ i.frm.ovf = false ∧ i.frm.flen = 0 ∧ i.frm.crc = 0xFFFF ∧ i.ch = Channels.empty) ∧
  State.reset.a = ChanInst.reset State.reset.a.par Observed.empty ∧
  State.reset.b = ChanInst.reset State.reset.b.par Observed.empty ∧ State.reset.q = []

/-- The power-on state is sound. -/
def Obligations.ResetSatisfiesInvariant : Prop := Inv State.reset

/-- R380, R381: a reset signal is accepted in every state; an instance's reset restores that instance and leaves Q and
the other one; the receiver's reset restores both and empties Q. -/
def Obligations.ResetSignalRestores : Prop :=
  ∀ (s : State) (rest : List Signal),
    (∀ c : Chan, s.signals = .reset (.chan c) :: rest →
      exec (.sysReset (.chan c)) s =
        .next ({ s with signals := rest }.setInst c (ChanInst.reset (s.inst c).par (s.inst c).obs))) ∧
    (s.signals = .reset .receiver :: rest →
      exec (.sysReset .receiver) s =
        .next { s with signals := rest, a := ChanInst.reset s.a.par s.a.obs, b := ChanInst.reset s.b.par s.b.obs,
                       q := [] })

/-- R310, R350, R342: a load that passes the checks configures the instance, one that fails them writes no `CFG` register and
reports the code, and one outside UNCONFIGURED is ignored. That the load sizes `CS.buf` and `RSMP.hist` and sets
`CR.omega` is the model's choice (log entry 12); that the event carries the offered record's designator is R342's rule,
which the model takes against R107 (log entry 30). -/
def Obligations.LoadConfiguresOrRefuses : Prop :=
  ∀ (c : Chan) (s : State) (r : CfgRec) (rest : List Signal), s.signals = .load c r :: rest →
    let i := s.inst c
    let u : State := { s with signals := rest }
    (i.lc = .unconfigured → cfgCheck i.par r = 0 →
      exec (.cfgLoad c) s = .next (u.setInst c { i with
        cfg := r
        cs := { i.cs with buf := List.replicate r.fftlen.toNat none }
        rsmp := { i.rsmp with hist := List.replicate (rsmpH i.par r) Cpx.zero }
        cr := { i.cr with omega := quant i.par.numerics (spsOf r) }
        cfgErr := 0
        lc := .ready })) ∧
    (i.lc = .unconfigured → cfgCheck i.par r ≠ 0 →
      exec (.cfgLoad c) s = .next (u.setInst c { i with
        cfgErr := cfgCheck i.par r
        lc := .cfgError
        obs := { i.obs with diag := i.obs.diag ++
          [{ code := 1, designator := r.designator, opid := 0x02,
             info := BitVec.ofNat 64 (cfgCheck i.par r).toNat }] } })) ∧
    (i.lc ≠ .unconfigured → exec (.cfgLoad c) s = .next u)

/-- R311: the checks in their order. `listed` is what R311 lists by name for check 7; that a table of another size than R7
and R191 give it fails check 7 too, and so does a breach of the other constraints of R7 on the coherent path, is the
model's reading (log entry 20). -/
def Obligations.FirstFailedCheckInOrder : Prop :=
  ∀ (p : Params) (r : CfgRec),
    let sps : ℝ := ((r.sampleRate.toNat / r.decim.toNat : Nat) : ℝ) / 9600
    let listed := p.q < 1 ∨ p.c < 1 ∨ p.mfLen < 1 ∨ p.rsmpTaps.length < 1 ∨ p.vitTb < 1 ∨ p.fsm.nstates < 1 ∨
      p.fsm.no < 1 ∨ (∃ e ∈ p.fsm.ns, p.fsm.nstates ≤ e.1 ∨ p.fsm.nstates ≤ e.2) ∨
      (∃ e ∈ p.fsm.os, p.fsm.no ≤ e.1 ∨ p.fsm.no ≤ e.2) ∨ p.costasBw.val ≤ 0 ∨ p.costasDamp.val ≤ 0
    let sizes := p.fsm.ns.length ≠ p.fsm.nstates ∨ p.fsm.os.length ≠ p.fsm.nstates ∨
      p.mfTaps.length ≠ p.c ∨ (∃ row ∈ p.mfTaps, row.length ≠ p.mfLen) ∨
      p.const.length ≠ p.fsm.no ∨ (∃ row ∈ p.const, row.length ≠ p.c)
    let others := (∃ w, p.costasWmax = some w ∧ w.val ≤ 0) ∨ p.energyFrac.val ≤ 0 ∨ 1 < p.energyFrac.val
    let e1 := r.symbolRate ≠ 9600
    let e2 := r.sampleRate = 0 ∨ r.decim = 0 ∨ r.sampleRate.toNat % r.decim.toNat ≠ 0
    let e3 := r.fftlen = 0
    let e4 := r.designator ≠ 0x41 ∧ r.designator ≠ 0x42
    let e5 := r.coherent = false ∧ p.hasNc = false
    let e6 := r.coherent = false ∧ (r.gainMu.val < 0 ∨ r.gainOmega.val < 0 ∨ r.omegaRel.val < 0
      ∨ 1 ≤ r.omegaRel.val ∨ sps * (1 - r.omegaRel.val) < 1)
    let e7 := r.coherent = true ∧ (listed ∨ sizes ∨ others)
    (cfgCheck p r = 1 ↔ e1) ∧
    (cfgCheck p r = 2 ↔ ¬ e1 ∧ e2) ∧
    (cfgCheck p r = 3 ↔ ¬ e1 ∧ ¬ e2 ∧ e3) ∧
    (cfgCheck p r = 4 ↔ ¬ e1 ∧ ¬ e2 ∧ ¬ e3 ∧ e4) ∧
    (cfgCheck p r = 5 ↔ ¬ e1 ∧ ¬ e2 ∧ ¬ e3 ∧ ¬ e4 ∧ e5) ∧
    (cfgCheck p r = 6 ↔ ¬ e1 ∧ ¬ e2 ∧ ¬ e3 ∧ ¬ e4 ∧ ¬ e5 ∧ e6) ∧
    (cfgCheck p r = 7 ↔ ¬ e1 ∧ ¬ e2 ∧ ¬ e3 ∧ ¬ e4 ∧ ¬ e5 ∧ ¬ e6 ∧ e7) ∧
    (cfgCheck p r = 0 ↔ ¬ e1 ∧ ¬ e2 ∧ ¬ e3 ∧ ¬ e4 ∧ ¬ e5 ∧ ¬ e6 ∧ ¬ e7)

/-- R313, R315, R317: start moves a READY instance to RUNNING, stop and end of stream a RUNNING one to DRAINING, and in
every other state each is ignored; given to the receiver, each acts on both instances. -/
def Obligations.StartStopEndOfStream : Prop :=
  ∀ (s : State) (rest : List Signal),
    let go (i : ChanInst) : ChanInst := if i.lc = .ready then { i with lc := .running } else i
    let drain (i : ChanInst) : ChanInst := if i.lc = .running then { i with lc := .draining } else i
    let u : State := { s with signals := rest }
    (∀ c : Chan, s.signals = .start (.chan c) :: rest →
      exec (.sysStart (.chan c)) s = .next (u.setInst c (go (s.inst c)))) ∧
    (s.signals = .start .receiver :: rest →
      exec (.sysStart .receiver) s = .next { u with a := go s.a, b := go s.b }) ∧
    (∀ c : Chan, s.signals = .stop (.chan c) :: rest →
      exec (.sysStop (.chan c)) s = .next (u.setInst c (drain (s.inst c)))) ∧
    (s.signals = .stop .receiver :: rest →
      exec (.sysStop .receiver) s = .next { u with a := drain s.a, b := drain s.b }) ∧
    (∀ c : Chan, s.signals = .eos (.chan c) :: rest →
      exec (.srcEos (.chan c)) s = .next (u.setInst c (drain (s.inst c)))) ∧
    (s.signals = .eos .receiver :: rest →
      exec (.srcEos .receiver) s = .next { u with a := drain s.a, b := drain s.b })

/-- R314: an offered sample enters S_IN in RUNNING while there is room, and otherwise remains the source's. -/
def Obligations.SampleEntersInputChannel : Prop :=
  ∀ (c : Chan) (s : State) (z : Cpx) (rest : List Cpx), s.offers c = z :: rest →
    let i := s.inst c
    (i.lc = .running → i.ch.sIn.length < i.par.depth.sIn →
      exec (.srcSample c) s =
        .next ((s.setOffers c rest).setInst c { i with ch := { i.ch with sIn := i.ch.sIn ++ [z] } })) ∧
    (i.lc ≠ .running ∨ i.par.depth.sIn ≤ i.ch.sIn.length → exec (.srcSample c) s = .next s)

/-- R319: a DRAINING instance whose channels are all empty is DONE with its completion flag set; before that, and in
every other state, nothing happens. -/
def Obligations.DrainedSetsCompletion : Prop :=
  ∀ (c : Chan) (s : State),
    let i := s.inst c
    (i.lc = .draining → i.ch = Channels.empty →
      exec (.sysDrained c) s = .next (s.setInst c { i with lc := .done, done := true })) ∧
    (i.lc ≠ .draining ∨ i.ch ≠ Channels.empty → exec (.sysDrained c) s = .next s)

/-- R322, R323: a pop returns the head record and waits on an empty queue; the empty check answers at once and leaves
the queue. -/
def Obligations.ConsumerOperations : Prop :=
  ∀ (s : State) (rest : List ConsumerReq),
    (∀ (r : Rec) (q : List Rec), s.requests = .pop :: rest → s.q = r :: q →
      exec .qPop s = .next { s with requests := rest, q := q, popped := s.popped ++ [r] }) ∧
    (s.requests = .pop :: rest → s.q = [] → exec .qPop s = .next s) ∧
    (s.requests = .empty :: rest →
      exec .qEmpty s = .next { s with requests := rest, answers := s.answers ++ [decide (s.q = [])] })

/-- R293: the record is appended while the queue has room, and the operation waits while it is full. -/
def Obligations.PushAppendsRecord : Prop :=
  ∀ (c : Chan) (s : State) (r : Rec) (rest : List Rec),
    unitsEnabled (s.inst c) = true → (s.inst c).ch.rOut = r :: rest →
    let i := s.inst c
    ((∀ d, s.qdepth = some d → s.q.length < d) →
      exec (.outPush c) s =
        .next ({ s with q := s.q ++ [r] }.setInst c { i with ch := { i.ch with rOut := rest } })) ∧
    (∀ d, s.qdepth = some d → d ≤ s.q.length → exec (.outPush c) s = .next s)

/-! ### Carrier estimator -/

/-- R131, R192: a sample that does not complete the carrier estimator's block, or a value that does not complete the
trellis step, is stored and nothing is emitted. That a unit with a burst still in hand fires nothing, so that each case
asks that its output channel holds all its unit has emitted, is the model's choice (log entry 13). -/
def Obligations.PartialWorkIsCollected : Prop :=
  ∀ (c : Chan) (s : State) (x : Cpx) (rest : List Cpx), unitsEnabled (s.inst c) = true →
    let i := s.inst c
    (i.ch.sIn = x :: rest → i.cs.buf.length = i.cfg.fftlen.toNat → i.cs.fill + 1 < i.cfg.fftlen.toNat →
      i.ch.csOut.length ≤ i.par.depth.csOut →
      exec (.csStep c) s = .next (s.setInst c { i with
        cs := { i.cs with buf := i.cs.buf.set i.cs.fill (some x), fill := i.cs.fill + 1 }
        ch := { i.ch with sIn := rest } })) ∧
    (i.cfg.coherent = true → i.ch.vIn = x :: rest → i.vit.vbuf.length = i.par.c → i.vit.vcnt + 1 < i.par.c →
      i.ch.hb.length ≤ i.par.depth.hb →
      exec (.vitStep c) s = .next (s.setInst c { i with
        vit := { i.vit with vbuf := i.vit.vbuf.set i.vit.vcnt (some x), vcnt := i.vit.vcnt + 1 }
        ch := { i.ch with vIn := rest } }))

/-- R131 to R137: the sample that completes a block `blk` of N samples makes one estimate, from the lowest bin of greatest
magnitude, and sample k leaves rotated by the k-th phase of the oscillator. Which values are rounded in a finite format is
the model's choice (log entry 2); so is that the N samples leave into an empty channel whatever its depth (log entry
13). -/
def Obligations.CarrierBlockCorrected : Prop :=
  ∀ (c : Chan) (s : State) (x : Cpx) (rest seen : List Cpx),
    unitsEnabled (s.inst c) = true → (s.inst c).ch.sIn = x :: rest →
    (s.inst c).cs.fill = seen.length → seen.length + 1 = (s.inst c).cfg.fftlen.toNat →
    (s.inst c).cs.buf = seen.map some ++ [(s.inst c).cs.buf.getD seen.length none] →
    ((s.inst c).ch.csOut.length + (s.inst c).cfg.fftlen.toNat ≤ (s.inst c).par.depth.csOut ∨
      (s.inst c).ch.csOut = []) →
    let i := s.inst c
    let n := i.par.numerics
    let len := i.cfg.fftlen.toNat
    let fs : Scalar := .rat (fsOf i.cfg)
    let turn : Scalar := (Scalar.rat 2).mul Scalar.pi
    let blk := seen ++ [x]
    let square : Nat → Cpx := fun k =>
      let z := blk.getD k Cpx.zero
      quantC n (cmul z z)
    let bin : Nat → Cpx := fun m =>
      quantC n (((List.range len).map (fun k =>
        cmul (square k) (cexp (((turn.mul (.rat m)).mul (.rat k)).div (.rat len)).neg))).foldr cadd Cpx.zero)
    let mag : Nat → ℝ := fun m => (quant n (cabs (bin m))).val
    ∃ m, m < len ∧ (∀ k, k < len → mag k ≤ mag m) ∧ (∀ k, k < m → mag k < mag m) ∧
      let kstar : Int := if 2 * m < len then (m : Int) else (m : Int) - (len : Int)
      let fhat := quant n (((quant n (((Scalar.rat kstar).mul fs).div (.rat len))).sub i.par.csPeakBias).div (.rat 2))
      let dphi := quant n ((turn.mul fhat).div fs).neg
      let phase : Nat → Scalar := fun k => (fun ph => quant n (wrap (ph.add dphi)))^[k] i.cs.phase
      exec (.csStep c) s = .next (s.setInst c { i with
        cs := { buf := blk.map some, fill := 0, phase := phase len, fest := fhat }
        ch := { i.ch with
          sIn := rest
          csOut := i.ch.csOut ++
            (List.range len).map (fun k => quantC n (cmul (blk.getD k Cpx.zero) (cexp (phase k)))) } })

/-! ### Coherent demodulator -/

/-- R151 to R153: de-rotate, detect, update the frequency, then the phase with the new frequency.
The model's choices in the numbers (which values are rounded; a detector that is not the reference one): log entries 2
and 7. -/
def Obligations.CostasStepTracks : Prop :=
  ∀ (c : Chan) (s : State) (x : Cpx) (rest : List Cpx),
    unitsEnabled (s.inst c) = true → (s.inst c).cfg.coherent = true → (s.inst c).ch.csOut = x :: rest →
    (s.inst c).ch.k1.length + 1 ≤ (s.inst c).par.depth.k1 →
    let i := s.inst c
    let n := i.par.numerics
    let bw := i.par.costasBw
    let damp := i.par.costasDamp
    let den := quant n (((Scalar.rat 1).add (((Scalar.rat 2).mul damp).mul bw)).add (bw.mul bw))
    let alpha := quant n ((((Scalar.rat 4).mul damp).mul bw).div den)
    let beta := quant n ((((Scalar.rat 4).mul bw).mul bw).div den)
    let y := quantC n (cmul x (cexp i.costas.theta.neg))
    let e := quant n (match i.par.pd with
      | .reference => y.re.mul y.im
      | .custom k => Config.customPd k y)
    let v := quant n (i.costas.omega.add (beta.mul e))
    let w := match i.par.costasWmax with
      | none => v
      | some m => if v.lt m.neg then m.neg else if m.lt v then m else v
    exec (.costasStep c) s = .next (s.setInst c { i with
      costas := { theta := quant n (wrap ((i.costas.theta.add w).add (alpha.mul e))), omega := w }
      ch := { i.ch with csOut := rest, k1 := i.ch.k1 ++ [y] } })

/-- R156 to R158: the operation emits the outputs at the upsampled ticks `nxt, nxt + M, ...` below L, in order, each the
polyphase sum over the shifted history, and keeps how far the next one lies beyond the next input. Complex prototype
taps and which values are rounded are the model's choices (log entries 33 and 2); so is that a burst of several outputs
leaves into an empty channel whatever its depth (log entry 13). -/
def Obligations.ResamplerStepEmits : Prop :=
  ∀ (c : Chan) (s : State) (x : Cpx) (rest : List Cpx),
    unitsEnabled (s.inst c) = true → (s.inst c).cfg.coherent = true → (s.inst c).ch.k1 = x :: rest →
    let i := s.inst c
    let fs := i.cfg.sampleRate.toNat / i.cfg.decim.toNat
    let g := Nat.gcd (i.par.q * 9600) fs
    let l := i.par.q * 9600 / g
    let m := fs / g
    let hist := (x :: i.rsmp.hist).take i.rsmp.hist.length
    let k := (l - i.rsmp.nxt + m - 1) / m
    let output : Nat → Cpx := fun n =>
      quantC i.par.numerics (((List.range hist.length).map (fun q =>
        cmul (i.par.rsmpTaps.getD (n + q * l) Cpx.zero) (hist.getD q Cpx.zero))).foldr cadd Cpx.zero)
    0 < m → (i.ch.k2.length + k ≤ i.par.depth.k2 ∨ i.ch.k2 = []) →
    exec (.rsmpStep c) s = .next (s.setInst c { i with
      rsmp := { hist := hist, nxt := i.rsmp.nxt + k * m - l }
      ch := { i.ch with
        k1 := rest
        k2 := i.ch.k2 ++ (List.range k).map (fun j => output (i.rsmp.nxt + j * m)) } })

/-- R164: the sample enters the delay line, and on decimation phase 0 the C filters give one vector.
The model's choices: which values are rounded (log entry 2), and that a unit with a burst still in hand fires nothing, so
that the case in which nothing leaves asks for an empty hand (log entry 13). -/
def Obligations.MatchedFilterStep : Prop :=
  ∀ (c : Chan) (s : State) (x : Cpx) (rest : List Cpx),
    unitsEnabled (s.inst c) = true → (s.inst c).cfg.coherent = true → (s.inst c).ch.k2 = x :: rest →
    let i := s.inst c
    let dl := (x :: i.mf.dl).take i.mf.dl.length
    let ph := (i.mf.ph + 1) % i.par.q
    (i.mf.ph = 0 → i.ch.k3.length + 1 ≤ i.par.depth.k3 →
      exec (.mfStep c) s = .next (s.setInst c { i with
        mf := { dl := dl, ph := ph }
        ch := { i.ch with
          k2 := rest
          k3 := i.ch.k3 ++ [i.par.mfTaps.map (fun taps => quantC i.par.numerics (cdot taps dl))] } })) ∧
    (i.mf.ph ≠ 0 → i.ch.k3.length ≤ i.par.depth.k3 →
      exec (.mfStep c) s = .next (s.setInst c { i with
        mf := { dl := dl, ph := ph }
        ch := { i.ch with k2 := rest } }))

/-- R170: the components of a vector leave one after another, component 0 first. -/
def Obligations.InterleaverStep : Prop :=
  ∀ (c : Chan) (s : State) (z : List Cpx) (rest : List (List Cpx)),
    unitsEnabled (s.inst c) = true → (s.inst c).cfg.coherent = true → (s.inst c).ch.k3 = z :: rest →
    (s.inst c).ch.vIn.length + z.length ≤ (s.inst c).par.depth.vIn →
    let i := s.inst c
    exec (.ilvStep c) s = .next (s.setInst c { i with
      ch := { i.ch with k3 := rest, vIn := i.ch.vIn ++ z } })

/-- R192, R196, R197: the value that completes the received vector `r` advances the metrics and the survivor memory;
before VIT_TB columns are held nothing leaves, and from then on one bit does, the input found by walking back from
the best state, every entry of that walk being defined in a sound decoder. What the add-compare-select and the
normalisation give is stated by `AddCompareSelectKeepsFirstLeast` and `NormalisationKeepsOrder`.
The model's choices: which values are rounded (log entry 2), and that a unit with a burst still in hand fires nothing, so
that the case in which nothing leaves asks for an empty hand (log entry 13). -/
def Obligations.TrellisStepDecides : Prop :=
  ∀ (c : Chan) (s : State) (x : Cpx) (rest got : List Cpx),
    unitsEnabled (s.inst c) = true → (s.inst c).cfg.coherent = true → (s.inst c).ch.vIn = x :: rest →
    ViterbiInv (s.inst c) → (s.inst c).par.fsm.wf = true → 1 ≤ (s.inst c).par.vitTb →
    (s.inst c).vit.vcnt = got.length → got.length + 1 = (s.inst c).par.c →
    (s.inst c).vit.vbuf.take got.length = got.map some →
    let i := s.inst c
    let r := got ++ [x]
    let acs := addCompareSelect i.par r i.vit.pm
    let pm := normalise i.par.numerics acs.1
    let sv := if i.par.vitTb < i.vit.sv.length + 1 then (i.vit.sv ++ [acs.2]).drop 1 else i.vit.sv ++ [acs.2]
    let after : VitRegs := { vbuf := r.map some, vcnt := 0, pm := pm, sv := sv }
    (i.vit.sv.length + 1 < i.par.vitTb → i.ch.hb.length ≤ i.par.depth.hb →
      exec (.vitStep c) s = .next (s.setInst c { i with vit := after, ch := { i.ch with vIn := rest } })) ∧
    (i.par.vitTb ≤ i.vit.sv.length + 1 → i.ch.hb.length + 1 ≤ i.par.depth.hb →
      ∃ b : Bool, traceback sv.reverse (argminMetric pm) = .ok b ∧
        exec (.vitStep c) s = .next (s.setInst c { i with
          vit := after
          ch := { i.ch with vIn := rest, hb := i.ch.hb ++ [b] } }))

/-! ### Non-coherent demodulator -/

/-- R211, R212, R214: the discriminator emits the scaled angle between consecutive samples; the root-raised-cosine filter
emits the inner product of its taps with the shifted delay line.
The model's choices in the numbers (which values are rounded): log entry 2. -/
def Obligations.DiscriminatorAndFilterSteps : Prop :=
  (∀ (c : Chan) (s : State) (x : Cpx) (rest : List Cpx),
    unitsEnabled (s.inst c) = true → (s.inst c).cfg.coherent = false → (s.inst c).ch.csOut = x :: rest →
    (s.inst c).ch.n1.length + 1 ≤ (s.inst c).par.depth.n1 →
    let i := s.inst c
    let gain := match i.par.qdGain with
      | .value g => g
      | .reference => quant i.par.numerics ((spsOf i.cfg).div (Scalar.pi.div (.rat 2)))
    exec (.qdStep c) s = .next (s.setInst c { i with
      qdPrev := x
      ch := { i.ch with
        csOut := rest
        n1 := i.ch.n1 ++ [quant i.par.numerics (gain.mul (arg (cmul x ⟨i.qdPrev.re, i.qdPrev.im.neg⟩)))] } })) ∧
  (∀ (c : Chan) (s : State) (v : Scalar) (rest : List Scalar),
    unitsEnabled (s.inst c) = true → (s.inst c).cfg.coherent = false → (s.inst c).ch.n1 = v :: rest →
    (s.inst c).ch.n2.length + 1 ≤ (s.inst c).par.depth.n2 →
    let i := s.inst c
    let dl := (v :: i.rrcDl).take i.rrcDl.length
    exec (.rrcStep c) s = .next (s.setInst c { i with
      rrcDl := dl
      ch := { i.ch with n1 := rest, n2 := i.ch.n2 ++ [quant i.par.numerics (dot i.par.rrcTaps dl)] } }))

/-- R217: the reference clock recovery (R216 leaves others free, log entry 15). A symbol instant between the previous
input and this one gives an output and moves the loop; otherwise the instant comes one sample nearer.
The model's choices: which values are rounded (log entry 2), and that a unit with a burst still in hand fires nothing, so
that the case in which nothing leaves asks for an empty hand (log entry 13). -/
def Obligations.ClockRecoveryStep : Prop :=
  ∀ (c : Chan) (s : State) (x : Scalar) (rest : List Scalar),
    unitsEnabled (s.inst c) = true → (s.inst c).cfg.coherent = false → (s.inst c).ch.n2 = x :: rest →
    let i := s.inst c
    let n := i.par.numerics
    let out := quant n ((i.cr.prevIn.mul ((Scalar.rat 1).sub i.cr.t)).add (x.mul i.cr.t))
    let mm := quant n (((sgn i.cr.lastOut).mul out).sub ((sgn out).mul i.cr.lastOut))
    let lo := quant n ((spsOf i.cfg).mul ((Scalar.rat 1).sub i.cfg.omegaRel))
    let hi := quant n ((spsOf i.cfg).mul ((Scalar.rat 1).add i.cfg.omegaRel))
    let om := ((quant n (i.cr.omega.add (i.cfg.gainOmega.mul mm))).max lo).min hi
    let next := quant n (((i.cr.t.add om).add (i.cfg.gainMu.mul mm)).sub (.rat 1))
    (i.cr.t.val < 1 → i.ch.n3.length + 1 ≤ i.par.depth.n3 →
      exec (.crStep c) s = .next (s.setInst c { i with
        cr := { prevIn := x, t := next.max (.rat 0), omega := om, lastOut := out }
        ch := { i.ch with n2 := rest, n3 := i.ch.n3 ++ [out] } })) ∧
    (1 ≤ i.cr.t.val → i.ch.n3.length ≤ i.par.depth.n3 →
      exec (.crStep c) s = .next (s.setInst c { i with
        cr := { i.cr with prevIn := x, t := quant n (i.cr.t.sub (.rat 1)) }
        ch := { i.ch with n2 := rest } }))

/-- R220: the symbol enters the shift register, the value passes on unchanged, and the hit bit says that the last P
symbols received since reset are the training pattern. -/
def Obligations.TrainingCorrelatorStep : Prop :=
  ∀ (c : Chan) (s : State) (v : Scalar) (rest : List Scalar),
    unitsEnabled (s.inst c) = true → (s.inst c).cfg.coherent = false → (s.inst c).par.hasDfe = true →
    (s.inst c).ch.n3 = v :: rest → (s.inst c).ch.n4.length + 1 ≤ (s.inst c).par.depth.n4 →
    let i := s.inst c
    let b := if 0 ≤ v.val then 1 else 0
    let sr := ((i.tcorr.sr <<< 1) ||| b) &&& (2 ^ i.par.dfeTrainPlen - 1)
    let cnt := min (i.tcorr.cnt + 1) i.par.dfeTrainPlen
    exec (.tcorrStep c) s = .next (s.setInst c { i with
      tcorr := { sr := sr, cnt := cnt }
      ch := { i.ch with
        n3 := rest
        n4 := i.ch.n4 ++ [{ v := v, hit := decide (i.par.dfeTrainPlen ≤ cnt ∧ sr = i.par.dfeTrainPattern) }] } })

/-- R223: the reference equalizer on a token without a hit.
The model's choices in the numbers (which values are rounded): log entries 2 and 15. -/
def Obligations.EqualizerStep : Prop :=
  ∀ (c : Chan) (s : State) (v : Scalar) (rest : List RLH),
    unitsEnabled (s.inst c) = true → (s.inst c).cfg.coherent = false → (s.inst c).par.hasDfe = true →
    (s.inst c).ch.n4 = { v := v, hit := false } :: rest →
    (s.inst c).ch.n5.length + 1 ≤ (s.inst c).par.depth.n5 →
    let i := s.inst c
    let n := i.par.numerics
    let u := (v :: i.dfe.u).take i.dfe.u.length
    let q := quant n ((dot i.dfe.wf u).sub (dot i.dfe.wb i.dfe.d))
    let training := i.dfe.tcnt < i.par.dfeTrainRef.length
    let r := if training then signValue (i.par.dfeTrainRef.getD i.dfe.tcnt .plus) else sgn q
    let err := quant n (r.sub q)
    exec (.dfeStep c) s = .next (s.setInst c { i with
      dfe := { wf := adaptTaps n (i.par.dfeMuF.mul err) i.dfe.wf u
               wb := adaptTaps n (i.par.dfeMuB.mul err).neg i.dfe.wb i.dfe.d
               u := u
               d := (r :: i.dfe.d).take i.dfe.d.length
               tcnt := if training then i.dfe.tcnt + 1 else i.dfe.tcnt }
      ch := { i.ch with n4 := rest, n5 := i.ch.n5 ++ [q] } })

/-- R224: a hit clears the taps and the delay lines and restarts the training on that very token. Whatever stood there
before, the token emitted is 0, the first feed-forward tap becomes the step size times the error times the input and
every other tap is 0; with no training symbols the decision on 0, which is +1, takes their place.
The model's choices in the numbers (which values are rounded; 0 stays 0): log entries 2 and 15. -/
def Obligations.EqualizerRetrain : Prop :=
  ∀ (c : Chan) (s : State) (v : Scalar) (rest : List RLH),
    unitsEnabled (s.inst c) = true → (s.inst c).cfg.coherent = false → (s.inst c).par.hasDfe = true →
    (s.inst c).ch.n4 = { v := v, hit := true } :: rest → StorageInv (s.inst c) → 1 ≤ (s.inst c).par.dfeNff →
    (s.inst c).ch.n5.length + 1 ≤ (s.inst c).par.depth.n5 →
    let i := s.inst c
    let n := i.par.numerics
    let r := match i.par.dfeTrainRef with
      | [] => .rat 1
      | g :: _ => signValue g
    exec (.dfeRetrain c) s = .next (s.setInst c { i with
      dfe := { wf := quant n ((i.par.dfeMuF.mul (quant n r)).mul v) :: List.replicate (i.par.dfeNff - 1) (.rat 0)
               wb := List.replicate i.par.dfeNfb (.rat 0)
               u := v :: List.replicate (i.par.dfeNff - 1) (.rat 0)
               d := (r :: List.replicate i.par.dfeNfb (.rat 0)).take i.par.dfeNfb
               tcnt := min 1 i.par.dfeTrainRef.length }
      ch := { i.ch with n4 := rest, n5 := i.ch.n5 ++ [.rat 0] } })

/-- R227: a value that is not negative is bit 1, a negative one bit 0; the value comes from N5 when the equalizer is
present, else from N3. -/
def Obligations.SlicerStep : Prop :=
  ∀ (c : Chan) (s : State) (v : Scalar) (rest : List Scalar),
    unitsEnabled (s.inst c) = true → (s.inst c).cfg.coherent = false →
    (s.inst c).ch.hb.length + 1 ≤ (s.inst c).par.depth.hb →
    let i := s.inst c
    let b := decide (0 ≤ v.val)
    (i.par.hasDfe = true → i.ch.n5 = v :: rest →
      exec (.sliceStep c) s = .next (s.setInst c { i with
        ch := { i.ch with n5 := rest, hb := i.ch.hb ++ [b] } })) ∧
    (i.par.hasDfe = false → i.ch.n3 = v :: rest →
      exec (.sliceStep c) s = .next (s.setInst c { i with
        ch := { i.ch with n3 := rest, hb := i.ch.hb ++ [b] } }))

/-! ### Bit-level units -/

/-- R241, R242: the difference of consecutive bits, then its complement. -/
def Obligations.LineDecoderSteps : Prop :=
  ∀ (c : Chan) (s : State) (b : Bool) (rest : List Bool), unitsEnabled (s.inst c) = true →
    let i := s.inst c
    (i.ch.hb = b :: rest → i.ch.l1.length + 1 ≤ i.par.depth.l1 →
      exec (.diffStep c b) s = .next (s.setInst c { i with
        ldPrev := b
        ch := { i.ch with hb := rest, l1 := i.ch.l1 ++ [b ^^ i.ldPrev] } })) ∧
    (i.ch.l1 = b :: rest → i.ch.l2.length + 1 ≤ i.par.depth.l2 →
      exec (.invStep c b) s = .next (s.setInst c { i with
        ch := { i.ch with l1 := rest, l2 := i.ch.l2 ++ [!b] } }))

/-- R251: the correlators' registers, the tagged bit, and the tags reported at the bit's position. R251 writes the position
modulo 2^64; that its width is the parameter `POS_W`, whose reference is 64, is the model's reading (log entry 8). -/
def Obligations.CorrelatorStep : Prop :=
  ∀ (c : Chan) (s : State) (b : Bool) (rest : List Bool),
    unitsEnabled (s.inst c) = true → (s.inst c).ch.l2 = b :: rest →
    (s.inst c).ch.tb.length + 1 ≤ (s.inst c).par.depth.tb →
    let i := s.inst c
    let sr := (i.fd.sr <<< 1) ||| (if b then 1 else 0)
    let cnt := min (i.fd.cnt + 1) 16
    let p := decide (16 ≤ cnt ∧ sr = 0xAAAA)
    let f := decide (8 ≤ cnt ∧ sr.extractLsb' 0 8 = 0x7E)
    exec (.corrStep c b) s = .next (s.setInst c { i with
      fd := { sr := sr, cnt := cnt, pos := (i.fd.pos + 1) % 2 ^ i.par.posW }
      obs := { i.obs with
        tagP := i.obs.tagP ++ (if p then [{ pos := i.fd.pos, name := false }] else [])
        tagF := i.obs.tagF ++ (if f then [{ pos := i.fd.pos, name := true }] else []) }
      ch := { i.ch with l2 := rest, tb := i.ch.tb ++ [{ f := f, p := p, b := b }] } })

/-- R256, R257: while no frame is open a data bit or a preamble-tagged bit is dropped and only the age moves. That the
gate fires nothing while a burst is still in its hand is the model's choice (log entry 13). -/
def Obligations.GateDropsOutsideFrame : Prop :=
  ∀ (c : Chan) (s : State) (b : Bool) (rest : List T3),
    unitsEnabled (s.inst c) = true → (s.inst c).gate.isOpen = false →
    (s.inst c).ch.ft.length ≤ (s.inst c).par.depth.ft →
    let i := s.inst c
    (i.ch.tb = ⟨false, false, b⟩ :: rest →
      exec (.gateData c b) s = .next (s.setInst c { i with
        gate := { i.gate with age := min (i.gate.age + 1) (i.par.window + 1) }
        ch := { i.ch with tb := rest } })) ∧
    (i.ch.tb = ⟨false, true, b⟩ :: rest →
      exec (.gatePre c b) s = .next (s.setInst c { i with
        gate := { i.gate with age := 0 }
        ch := { i.ch with tb := rest } }))

/-- R256, R257: in an open frame the bit enters the hold-back line; when seven bits `h0 :: hs` are held, the oldest one
leaves as a frame bit. That the gate fires nothing while a burst is still in its hand is the model's choice (log
entry 13). -/
def Obligations.GateHoldsBackSevenBits : Prop :=
  ∀ (c : Chan) (s : State) (b : Bool) (rest : List T3),
    unitsEnabled (s.inst c) = true → (s.inst c).gate.isOpen = true →
    let i := s.inst c
    let aged := min (i.gate.age + 1) (i.par.window + 1)
    (i.gate.hbc < 7 → i.gate.hb.length = 7 → i.ch.ft.length ≤ i.par.depth.ft →
      let stored (age : Nat) : GateRegs :=
        { i.gate with age := age, hb := i.gate.hb.set i.gate.hbc (some b), hbc := i.gate.hbc + 1 }
      (i.ch.tb = ⟨false, false, b⟩ :: rest →
        exec (.gateData c b) s = .next (s.setInst c { i with
          gate := stored aged
          ch := { i.ch with tb := rest } })) ∧
      (i.ch.tb = ⟨false, true, b⟩ :: rest →
        exec (.gatePre c b) s = .next (s.setInst c { i with
          gate := stored 0
          ch := { i.ch with tb := rest } }))) ∧
    (∀ (h0 : Bool) (hs : Buffer Bool), i.gate.hbc = 7 → i.gate.hb = some h0 :: hs →
      i.ch.ft.length + 1 ≤ i.par.depth.ft →
      let shifted (age : Nat) : GateRegs := { i.gate with age := age, hb := hs ++ [some b] }
      (i.ch.tb = ⟨false, false, b⟩ :: rest →
        exec (.gateData c b) s = .next (s.setInst c { i with
          gate := shifted aged
          ch := { i.ch with tb := rest, ft := i.ch.ft ++ [.bit h0] } })) ∧
      (i.ch.tb = ⟨false, true, b⟩ :: rest →
        exec (.gatePre c b) s = .next (s.setInst c { i with
          gate := shifted 0
          ch := { i.ch with tb := rest, ft := i.ch.ft ++ [.bit h0] } })))

/-- R258: a flag closes the open frame, drops the held bits, and opens a frame when a preamble tag stands at most W bits
before it. That EOF and SOF leave together into an empty channel of depth 1 is the model's choice (log entry 13). -/
def Obligations.GateFlagClosesAndOpens : Prop :=
  ∀ (c : Chan) (s : State) (p b : Bool) (rest : List T3),
    unitsEnabled (s.inst c) = true → (s.inst c).ch.tb = ⟨true, p, b⟩ :: rest →
    let i := s.inst c
    let age := if p then 0 else min (i.gate.age + 1) (i.par.window + 1)
    let out : List FT2 := (if i.gate.isOpen then [.eof] else []) ++ (if age ≤ i.par.window then [.sof] else [])
    (i.ch.ft.length + out.length ≤ i.par.depth.ft ∨ i.ch.ft = []) →
    exec (.gateFlag c p b) s = .next (s.setInst c { i with
      gate := { i.gate with age := age, isOpen := decide (age ≤ i.par.window), hbc := 0 }
      ch := { i.ch with tb := rest, ft := i.ch.ft ++ out } })

/-- R266 to R268: SOF and EOF clear the run length and pass; a 1 counts up to five and passes; a 0 clears the count and
passes unless five 1s stand before it. That a unit with a burst still in hand fires nothing is the model's choice (log
entry 13). -/
def Obligations.DestufferSteps : Prop :=
  ∀ (c : Chan) (s : State) (rest : List FT2), unitsEnabled (s.inst c) = true →
    let i := s.inst c
    let moved (ones : Nat) (out : List FT2) : State := s.setInst c { i with
      dstfOnes := ones
      ch := { i.ch with ft := rest, fd2 := i.ch.fd2 ++ out } }
    (i.dstfOnes = 5 → i.ch.ft = .bit false :: rest → i.ch.fd2.length ≤ i.par.depth.fd2 →
      exec (.dstfBit c false) s = .next (moved 0 [])) ∧
    (i.ch.fd2.length + 1 ≤ i.par.depth.fd2 →
      (i.dstfOnes ≠ 5 → i.ch.ft = .bit false :: rest →
        exec (.dstfBit c false) s = .next (moved 0 [.bit false])) ∧
      (i.ch.ft = .bit true :: rest →
        exec (.dstfBit c true) s = .next (moved (min (i.dstfOnes + 1) 5) [.bit true])) ∧
      (i.ch.ft = .sof :: rest → exec (.dstfSof c) s = .next (moved 0 [.sof])) ∧
      (i.ch.ft = .eof :: rest → exec (.dstfEof c) s = .next (moved 0 [.eof])))

/-- R282, R283: a start of frame initialises the parser; a bit is stored and absorbed by the CRC register, or sets the
overrun bit when the buffer is full, or is dropped outside an active frame and after an overrun. The event of an overrun
is R341's, R342's and R352's, its fields R107's; that its info is FRAME_MAX_BITS modulo 2^64 is the model's choice (log
entry 32). -/
def Obligations.ParserStartAndBits : Prop :=
  ∀ (c : Chan) (s : State) (b : Bool) (rest : List FT2), unitsEnabled (s.inst c) = true →
    let i := s.inst c
    (i.ch.fd2 = .sof :: rest →
      exec (.frmSof c) s = .next (s.setInst c { i with
        frm := { i.frm with active := true, ovf := false, flen := 0, crc := 0xFFFF }
        ch := { i.ch with fd2 := rest } })) ∧
    (i.ch.fd2 = .bit b :: rest →
      (i.frm.active = true → i.frm.ovf = false → i.frm.flen < i.par.frameMaxBits →
        i.frm.fb.length = i.par.frameMaxBits →
        exec (.frmBit c b) s = .next (s.setInst c { i with
          frm := { i.frm with
            fb := i.frm.fb.set i.frm.flen (some b)
            flen := i.frm.flen + 1
            crc := if (i.frm.crc.getLsbD 0 ^^ b) then (i.frm.crc >>> 1) ^^^ 0x8408 else i.frm.crc >>> 1 }
          ch := { i.ch with fd2 := rest } })) ∧
      (i.frm.active = true → i.frm.ovf = false → i.frm.flen = i.par.frameMaxBits →
        exec (.frmBit c b) s = .next (s.setInst c { i with
          frm := { i.frm with ovf := true }
          obs := { i.obs with diag := i.obs.diag ++
            (if i.par.vDiag ≤ i.cfg.verbosity.toNat then
              [{ code := 3, designator := i.cfg.designator, opid := 0x29,
                 info := BitVec.ofNat 64 i.par.frameMaxBits }]
             else []) }
          ch := { i.ch with fd2 := rest } })) ∧
      (i.frm.active = false ∨ i.frm.ovf = true →
        exec (.frmBit c b) s = .next (s.setInst c { i with ch := { i.ch with fd2 := rest } })))

/-- R284, R351: an end of frame makes one record of an accepted frame, whose payload is the stored bits without the last
sixteen; a rejected frame is discarded with an event under the verbosity gate; an inactive or overrun one leaves
nothing. In every case `active` and `ovf` are cleared. The record's `nbits` has R108's 16 bits (log entry 17). The event
of a rejected frame carries `CFG.designator` (R342); that its info is the frame's length modulo 2^64 is the model's
choice (log entry 32), and so is that a unit with a burst still in hand fires nothing (log entry 13). -/
def Obligations.ParserEndOfFrame : Prop :=
  ∀ (c : Chan) (s : State) (rest : List FT2),
    unitsEnabled (s.inst c) = true → (s.inst c).ch.fd2 = .eof :: rest →
    (s.inst c).ch.rOut.length ≤ (s.inst c).par.depth.rOut →
    let i := s.inst c
    let after : FrmRegs := { i.frm with active := false, ovf := false }
    (∀ bits : List Bool, i.frm.active = true → i.frm.ovf = false → i.frm.flen = bits.length →
      i.frm.fb.take bits.length = bits.map some → 16 ≤ bits.length → i.frm.crc = 0xF0B8 →
      i.ch.rOut.length + 1 ≤ i.par.depth.rOut →
      exec (.frmEof c) s = .next (s.setInst c { i with
        frm := after
        ch := { i.ch with
          fd2 := rest
          rOut := i.ch.rOut ++ [{ designator := i.cfg.designator
                                  crcValid := true
                                  nbits := BitVec.ofNat 16 (bits.length - 16)
                                  payload := bits.take (bits.length - 16)
                                  hasCoords := i.cfg.hasCoords
                                  lat := if i.cfg.hasCoords then i.cfg.lat else 0
                                  lon := if i.cfg.hasCoords then i.cfg.lon else 0
                                  verbosity := i.cfg.verbosity }] } })) ∧
    (i.frm.active = true → i.frm.ovf = false → i.frm.flen < 16 ∨ i.frm.crc ≠ 0xF0B8 →
      exec (.frmEof c) s = .next (s.setInst c { i with
        frm := after
        obs := { i.obs with diag := i.obs.diag ++
          (if i.par.vDiag ≤ i.cfg.verbosity.toNat then
            [{ code := 2, designator := i.cfg.designator, opid := 0x2B, info := BitVec.ofNat 64 i.frm.flen }]
           else []) }
        ch := { i.ch with fd2 := rest } })) ∧
    (i.frm.active = false ∨ i.frm.ovf = true →
      exec (.frmEof c) s = .next (s.setInst c { i with frm := after, ch := { i.ch with fd2 := rest } }))

/-! ### Invariants -/

/-- Every step keeps the receiver sound, whatever agent moves. -/
def Obligations.StepKeepsInvariant : Prop := ∀ s t : State, Inv s → step s = .next t → Inv t

/-- R340, R359: in a sound receiver no step faults or refuses; in particular no never-written element is read. -/
def Obligations.SoundReceiverStepsSafely : Prop := ∀ s : State, Inv s → StepsSafely s

/-! ### Rules over all operations -/

/-- R312, R316, R231: a unit operation of an instance that is neither RUNNING nor DRAINING changes nothing; neither does
an operation of the demodulator that `CFG.coherent` does not select, nor one of TCORR or DFE without HAS_DFE. -/
def Obligations.UnitOperationsWaitUnlessEnabled : Prop :=
  ∀ (op : Instr) (c : Chan) (s : State),
    let i := s.inst c
    (unitOpChan op = some c → i.lc ≠ .running → i.lc ≠ .draining → exec op s = .next s) ∧
    (i.cfg.coherent = false →
      op ∈ [.costasStep c, .rsmpStep c, .mfStep c, .ilvStep c, .vitStep c] → exec op s = .next s) ∧
    (i.cfg.coherent = true →
      op ∈ [.qdStep c, .rrcStep c, .crStep c, .tcorrStep c, .dfeStep c, .dfeRetrain c, .sliceStep c] →
      exec op s = .next s) ∧
    (i.par.hasDfe = false → op ∈ [.tcorrStep c, .dfeStep c, .dfeRetrain c] → exec op s = .next s)

/-- R85, R360: a unit whose output channel is full waits, its token staying where it is; nothing is dropped. For the units
that emit at every firing no premise but the full channel is needed; the others have those under which they emit. Of a
unit whose burst may exceed what is left (CS, RSMP, ILV, GATE.FLAG) it says so for every burst that does not fit beside
what the channel holds. That ILV fires into an empty channel, and that a unit which still has a part of a burst in hand
fires no operation at all, are the model's choices (log entry 13). -/
def Obligations.FullChannelStallsProducer : Prop :=
  ∀ (c : Chan) (s : State),
    let i := s.inst c
    let d := i.par.depth
    let full (depth held : Nat) : Prop := 0 < held ∧ depth ≤ held
    let tooFew (depth held burst : Nat) : Prop := 0 < held ∧ 0 < burst ∧ depth < held + burst
    let waits (op : Instr) : Prop := exec op s = .next s
    (∀ seen : List Cpx, i.cs.fill = seen.length → seen.length + 1 = i.cfg.fftlen.toNat →
      i.cs.buf = seen.map some ++ [i.cs.buf.getD seen.length none] →
      tooFew d.csOut i.ch.csOut.length i.cfg.fftlen.toNat → waits (.csStep c)) ∧
    (full d.k1 i.ch.k1.length → waits (.costasStep c)) ∧
    (0 < rsmpM i.par i.cfg →
      tooFew d.k2 i.ch.k2.length
        ((rsmpL i.par i.cfg - i.rsmp.nxt + rsmpM i.par i.cfg - 1) / rsmpM i.par i.cfg) → waits (.rsmpStep c)) ∧
    (i.mf.ph = 0 → full d.k3 i.ch.k3.length → waits (.mfStep c)) ∧
    (∀ (z : List Cpx) (rest : List (List Cpx)), i.ch.k3 = z :: rest →
      (tooFew d.vIn i.ch.vIn.length z.length → waits (.ilvStep c)) ∧
      (unitsEnabled i = true → i.cfg.coherent = true → i.ch.vIn = [] →
        exec (.ilvStep c) s = .next (s.setInst c { i with ch := { i.ch with k3 := rest, vIn := z } }))) ∧
    (∀ got : List Cpx, ViterbiInv i → i.par.fsm.wf = true → 1 ≤ i.par.vitTb →
      i.vit.vcnt = got.length → got.length + 1 = i.par.c → i.vit.vbuf.take got.length = got.map some →
      i.par.vitTb ≤ i.vit.sv.length + 1 → full d.hb i.ch.hb.length → waits (.vitStep c)) ∧
    (full d.n1 i.ch.n1.length → waits (.qdStep c)) ∧
    (full d.n2 i.ch.n2.length → waits (.rrcStep c)) ∧
    (i.cr.t.val < 1 → full d.n3 i.ch.n3.length → waits (.crStep c)) ∧
    (full d.n4 i.ch.n4.length → waits (.tcorrStep c)) ∧
    (full d.n5 i.ch.n5.length → waits (.dfeStep c) ∧ waits (.dfeRetrain c)) ∧
    (full d.hb i.ch.hb.length → waits (.sliceStep c)) ∧
    (∀ b : Bool, full d.l1 i.ch.l1.length → waits (.diffStep c b)) ∧
    (∀ b : Bool, full d.l2 i.ch.l2.length → waits (.invStep c b)) ∧
    (∀ b : Bool, full d.tb i.ch.tb.length → waits (.corrStep c b)) ∧
    (∀ (b h0 : Bool) (hs : Buffer Bool), i.gate.isOpen = true → i.gate.hbc = 7 → i.gate.hb = some h0 :: hs →
      full d.ft i.ch.ft.length → waits (.gateData c b) ∧ waits (.gatePre c b)) ∧
    (∀ p b : Bool,
      let age := if p then 0 else min (i.gate.age + 1) (i.par.window + 1)
      tooFew d.ft i.ch.ft.length ((if i.gate.isOpen then 1 else 0) + (if age ≤ i.par.window then 1 else 0)) →
        waits (.gateFlag c p b)) ∧
    (i.dstfOnes ≠ 5 → full d.fd2 i.ch.fd2.length → waits (.dstfBit c false)) ∧
    (full d.fd2 i.ch.fd2.length → waits (.dstfBit c true) ∧ waits (.dstfSof c) ∧ waits (.dstfEof c)) ∧
    (∀ bits : List Bool, i.frm.active = true → i.frm.ovf = false → i.frm.flen = bits.length →
      i.frm.fb.take bits.length = bits.map some → 16 ≤ bits.length → i.frm.crc = 0xF0B8 →
      full d.rOut i.ch.rOut.length → waits (.frmEof c)) ∧
    (inHand d.csOut i.ch.csOut ≠ [] → waits (.csStep c)) ∧
    (inHand d.k2 i.ch.k2 ≠ [] → waits (.rsmpStep c)) ∧
    (inHand d.k3 i.ch.k3 ≠ [] → waits (.mfStep c)) ∧
    (inHand d.vIn i.ch.vIn ≠ [] → waits (.ilvStep c)) ∧
    (inHand d.hb i.ch.hb ≠ [] → waits (.vitStep c)) ∧
    (inHand d.n3 i.ch.n3 ≠ [] → waits (.crStep c)) ∧
    (inHand d.ft i.ch.ft ≠ [] →
      ∀ p b : Bool, waits (.gateData c b) ∧ waits (.gatePre c b) ∧ waits (.gateFlag c p b)) ∧
    (inHand d.fd2 i.ch.fd2 ≠ [] → waits (.dstfBit c false)) ∧
    (inHand d.rOut i.ch.rOut ≠ [] → waits (.frmEof c))

/-- R324, R364: an operation of one instance neither writes nor reads the other: replacing the other instance by any
`x` changes nothing in how the operation ends but that `x` stands there after it as before. -/
def Obligations.InstancesAreIsolated : Prop :=
  ∀ (op : Instr) (c : Chan), ownerChan op = some c → ∀ (s : State) (x : ChanInst),
    (∀ t, exec op s = .next t →
      t.inst (Chan.other c) = s.inst (Chan.other c) ∧
        exec op (s.setInst (Chan.other c) x) = .next (t.setInst (Chan.other c) x)) ∧
    (∀ f, exec op s = .fault f → exec op (s.setInst (Chan.other c) x) = .fault f) ∧
    (∀ r, exec op s ≠ .refused r)

/-- R10, R362: unit operations of the two instances commute, whatever they are, unless both push into Q. -/
def Obligations.InstancesCommute : Prop :=
  ∀ (i j : Instr) (s t u : State), unitOpChan i = some .a → unitOpChan j = some .b →
    ¬(i = .outPush .a ∧ j = .outPush .b) →
    exec i s = .next t → exec j t = .next u → ∃ t', exec j s = .next t' ∧ exec i t' = .next u

/-- R24, R84: no operation writes a parameter; CFG is written by a reset that reaches the instance and by a load while
UNCONFIGURED, and by nothing else. -/
def Obligations.ConfigurationIsImmutable : Prop :=
  ∀ (op : Instr) (c : Chan) (s t : State), exec op s = .next t →
    (t.inst c).par = (s.inst c).par ∧ t.qdepth = s.qdepth ∧
    (¬ resetsChan c op → ¬(op = .cfgLoad c ∧ (s.inst c).lc = .unconfigured) → (t.inst c).cfg = (s.inst c).cfg)

/-- R312, R347: the life cycle moves along the arcs of R312 alone; DONE and CFG_ERROR are left by a reset only. -/
def Obligations.LifecycleArcs : Prop :=
  ∀ (op : Instr) (c : Chan) (s t : State), exec op s = .next t →
    let l := (s.inst c).lc
    let l' := (t.inst c).lc
    l' = l ∨
    (resetsChan c op ∧ l' = .unconfigured) ∨
    (op = .cfgLoad c ∧ l = .unconfigured ∧ (l' = .ready ∨ l' = .cfgError)) ∨
    ((op = .sysStart (.chan c) ∨ op = .sysStart .receiver) ∧ l = .ready ∧ l' = .running) ∨
    ((op = .sysStop (.chan c) ∨ op = .sysStop .receiver ∨ op = .srcEos (.chan c) ∨ op = .srcEos .receiver) ∧
      l = .running ∧ l' = .draining) ∨
    (op = .sysDrained c ∧ l = .draining ∧ l' = .done ∧ (t.inst c).done = true)

/-- R155, R200, R392: the loops, filters and the trellis of an instance are written by their own unit's step and by a
reset that reaches the instance, and by nothing else; in particular by no frame boundary. A load writes `CR.omega`
and sizes `RSMP.hist` (log entry 12). -/
def Obligations.SignalStatePersists : Prop :=
  ∀ (op : Instr) (c : Chan) (s t : State), exec op s = .next t → ¬ resetsChan c op →
    let i := s.inst c
    let j := t.inst c
    (op ≠ .vitStep c → j.vit = i.vit) ∧
    (op ≠ .costasStep c → j.costas = i.costas) ∧
    (op ≠ .csStep c → j.cs.phase = i.cs.phase ∧ j.cs.fest = i.cs.fest ∧ j.cs.fill = i.cs.fill) ∧
    (op ≠ .rsmpStep c → j.rsmp.nxt = i.rsmp.nxt ∧ (op ≠ .cfgLoad c → j.rsmp.hist = i.rsmp.hist)) ∧
    (op ≠ .mfStep c → j.mf = i.mf) ∧
    (op ≠ .qdStep c → j.qdPrev = i.qdPrev) ∧
    (op ≠ .rrcStep c → j.rrcDl = i.rrcDl) ∧
    (op ≠ .crStep c → j.cr.prevIn = i.cr.prevIn ∧ j.cr.t = i.cr.t ∧ j.cr.lastOut = i.cr.lastOut ∧
      (op ≠ .cfgLoad c → j.cr.omega = i.cr.omega)) ∧
    (op ≠ .tcorrStep c → j.tcorr = i.tcorr) ∧
    (op ≠ .dfeStep c → op ≠ .dfeRetrain c → j.dfe = i.dfe)

/-- R80, R83, R298: the records delivered and queued, in order, change by one record appended by a push, which is the
oldest one of its instance's R_OUT, or by the receiver's reset, which empties the queue; a pop only moves the head
from one to the other. -/
def Obligations.QueueIsFirstInFirstOut : Prop :=
  ∀ (op : Instr) (s t : State), exec op s = .next t →
    t.popped ++ t.q = s.popped ++ s.q ∨
    (op = .sysReset .receiver ∧ t.q = [] ∧ t.popped = s.popped) ∨
    (∃ (c : Chan) (r : Rec) (rest : List Rec), op = .outPush c ∧ (s.inst c).ch.rOut = r :: rest ∧
      (t.inst c).ch.rOut = rest ∧ t.popped = s.popped ∧ t.q = s.q ++ [r])

/-- R341, R344: an operation adds at most one event to an instance's DIAG; which operation can add which code; the two
frame events are added under the verbosity gate only. -/
def Obligations.AtMostOneEvent : Prop :=
  ∀ (op : Instr) (c : Chan) (s t : State), exec op s = .next t →
    ∃ l : List Event, (t.inst c).obs.diag = (s.inst c).obs.diag ++ l ∧ l.length ≤ 1 ∧
      ∀ e ∈ l,
        (e.code = 1 ∧ e.opid = 0x02 ∧ op = .cfgLoad c) ∨
        ((s.inst c).par.vDiag ≤ (s.inst c).cfg.verbosity.toNat ∧ e.designator = (s.inst c).cfg.designator ∧
          ((e.code = 2 ∧ e.opid = 0x2B ∧ op = .frmEof c) ∨
            (e.code = 3 ∧ e.opid = 0x29 ∧ ∃ b, op = .frmBit c b)))

/-! ### Laws of the units -/

/-- R138: after n samples from reset CS has emitted N times the whole blocks among them, and holds the rest; with exact
arithmetic each output is its input sample times a complex number of modulus 1, in input order. -/
def Obligations.CarrierCountLaw : Prop :=
  ∀ (p : Params) (r : CfgRec) (ph fe : Scalar) (xs : List Cpx), 0 < r.fftlen.toNat →
    ∃ (u : CsRegs) (out : List Cpx),
      runOp (csOp p r) { buf := List.replicate r.fftlen.toNat none, fill := 0, phase := ph, fest := fe } xs
        = .ok (u, out) ∧
      out.length = r.fftlen.toNat * (xs.length / r.fftlen.toNat) ∧ u.fill = xs.length % r.fftlen.toNat ∧
      (p.numerics = .exact → ∀ k, k < out.length →
        ∃ x z : Cpx, xs[k]? = some x ∧ normSq z = .rat 1 ∧ out[k]? = some (cmul x z))

/-- R159, R165: after n inputs from reset the resampler has emitted ceil(n*L/M) samples and the matched-filter bank
ceil(n/Q) vectors. -/
def Obligations.RateCountLaws : Prop :=
  (∀ (p : Params) (r : CfgRec) (hist xs : List Cpx), 0 < rsmpM p r →
    ∃ (u : RsmpRegs) (out : List Cpx), runOp (rsmpOp p r) { hist := hist, nxt := 0 } xs = .ok (u, out) ∧
      out.length = (xs.length * rsmpL p r + rsmpM p r - 1) / rsmpM p r) ∧
  (∀ (p : Params) (dl xs : List Cpx), 1 ≤ p.q →
    ∃ (u : MfRegs) (out : List (List Cpx)), runOp (mfOp p) { dl := dl, ph := 0 } xs = .ok (u, out) ∧
      out.length = (xs.length + p.q - 1) / p.q ∧ u.ph = xs.length % p.q)

/-- R199, R196: after n values from reset the decoder has completed floor(n/C) trellis steps, emitted
max(0, t - VIT_TB + 1) bits, and holds the last min(t, VIT_TB) survivor columns. -/
def Obligations.TrellisCountLaw : Prop :=
  ∀ (p : Params) (xs : List Cpx), p.fsm.wf = true → 1 ≤ p.c → 1 ≤ p.vitTb →
    ∃ (u : VitRegs) (out : List Bool),
      runOp (vitOp p)
        { vbuf := List.replicate p.c none, vcnt := 0, pm := List.replicate p.fsm.nstates (.fin (.rat 0)), sv := [] } xs
        = .ok (u, out) ∧
      out.length = xs.length / p.c + 1 - p.vitTb ∧ u.vcnt = xs.length % p.c ∧
      u.sv.length = min (xs.length / p.c) p.vitTb

/-- R193, R194: the new metric of a state is the least of its candidates, each the old metric plus the squared distance of
the received vector to `CONST[OS[s][i]]`; the survivor is the pair that gives it, no earlier pair of the scan order
gives as little, and a state without a finite candidate gets +inf and no survivor.
The model's choices in the numbers (which values are rounded): log entry 2. -/
def Obligations.AddCompareSelectKeepsFirstLeast : Prop :=
  ∀ (p : Params) (r : List Cpx) (pm : List Metric) (sp : Nat), p.fsm.wf = true → sp < p.fsm.nstates →
    let ns (s : Nat) (i : Bool) : Nat := if i then (p.fsm.ns.getD s (0, 0)).2 else (p.fsm.ns.getD s (0, 0)).1
    let os (s : Nat) (i : Bool) : Nat := if i then (p.fsm.os.getD s (0, 0)).2 else (p.fsm.os.getD s (0, 0)).1
    let bm (s : Nat) (i : Bool) : Scalar := quant p.numerics
      ((List.zipWith (fun x k : Cpx =>
          ((x.re.sub k.re).mul (x.re.sub k.re)).add ((x.im.sub k.im).mul (x.im.sub k.im))) r
        (p.const.getD (os s i) [])).foldr Scalar.add (.rat 0))
    let cand (s : Nat) (i : Bool) : Metric := metricAdd p.numerics (pm.getD s .inf) (bm s i)
    let acs := addCompareSelect p r pm
    (∀ (s : Nat) (i : Bool), acs.2[sp]? = some (some (s, i)) →
      s < p.fsm.nstates ∧ ns s i = sp ∧ acs.1[sp]? = some (cand s i) ∧
      (∀ (s' : Nat) (i' : Bool), s' < p.fsm.nstates → ns s' i' = sp →
        metricLt (cand s' i') (cand s i) = false ∧
        ((s' < s ∨ (s' = s ∧ i' = false ∧ i = true)) → metricLt (cand s i) (cand s' i') = true))) ∧
    (acs.2[sp]? = some none ↔
      ∀ (s : Nat) (i : Bool), s < p.fsm.nstates → ns s i = sp → cand s i = .inf) ∧
    (acs.2[sp]? = some none → acs.1[sp]? = some .inf)

/-- R195: after normalisation the best state holds 0, +inf stays +inf, and no comparison is changed (exact
arithmetic). -/
def Obligations.NormalisationKeepsOrder : Prop :=
  ∀ (l : List Metric) (k : Nat) (v : Scalar), l[k]? = some (.fin v) →
    (normalise .exact l)[argminMetric l]? = some (.fin (.rat 0)) ∧
    (∀ a b : Nat, a < l.length → b < l.length →
      metricLt ((normalise .exact l).getD a .inf) ((normalise .exact l).getD b .inf)
        = metricLt (l.getD a .inf) (l.getD b .inf)) ∧
    (∀ a : Nat, a < l.length → ((normalise .exact l)[a]? = some .inf ↔ l[a]? = some .inf)) ∧
    argminMetric (normalise .exact l) = argminMetric l

/-- R154, R218, R211, R140: the Costas frequency stays within its bound and one sample leaves per sample; with exact
arithmetic its phase lies in `(-pi, pi]` and the sample keeps its modulus. At most one value leaves the clock recovery per
input, its period stays within its limits, and its instant is not negative: laws of the reference realisation, which is
the model's choice (log entry 15). With exact arithmetic the discriminator's output lies in `(-QD_GAIN*pi, QD_GAIN*pi]`
for a positive gain, and the carrier estimate is a multiple of `FS/(2*N)` in `[-FS/4, FS/4)`, up to half the peak bias.
Which values are rounded in a finite format is the model's choice (log entry 2). -/
def Obligations.LoopRegistersStayInRange : Prop :=
  (∀ (p : Params) (u v : CostasRegs) (x : Cpx) (out : List Cpx), costasOp p u x = .ok (v, out) →
    (∀ w : Scalar, p.costasWmax = some w → 0 < w.val → -w.val ≤ v.omega.val ∧ v.omega.val ≤ w.val) ∧
    ∃ y : Cpx, out = [y] ∧
      (p.numerics = .exact → normSq y = normSq x ∧ -Real.pi < v.theta.val ∧ v.theta.val ≤ Real.pi)) ∧
  (∀ (p : Params) (r : CfgRec) (u v : CrRegs) (x : Scalar) (out : List Scalar),
    crOp p r u x = .ok (v, out) →
    out.length ≤ 1 ∧
    ((omLo p r).val ≤ (omHi p r).val → (omLo p r).val ≤ u.omega.val → u.omega.val ≤ (omHi p r).val →
      (omLo p r).val ≤ v.omega.val ∧ v.omega.val ≤ (omHi p r).val) ∧
    (p.numerics = .exact → 0 ≤ u.t.val → 0 ≤ v.t.val)) ∧
  (∀ (p : Params) (r : CfgRec) (prev v x : Cpx) (out : List Scalar), qdOp p r prev x = .ok (v, out) →
    ∃ d : Scalar, out = [d] ∧
      (p.numerics = .exact → 0 < (qdGainOf p r).val →
        -((qdGainOf p r).val * Real.pi) < d.val ∧ d.val ≤ (qdGainOf p r).val * Real.pi)) ∧
  (∀ (p : Params) (fs m n : Nat), p.numerics = .exact → 0 < fs → m < n →
    let f : ℝ := (freqEstimate p fs m n).val + p.csPeakBias.val / 2
    (∃ k : Int, f = (k : ℝ) * ((fs : ℝ) / (2 * (n : ℝ)))) ∧ -((fs : ℝ) / 4) ≤ f ∧ f < (fs : ℝ) / 4)

/-- R243: the line decoder gives a 0 on a change of level and a 1 on none, and undoes the NRZI line code from any
starting level, up to the first bit. -/
def Obligations.LineDecoderUndoesNrzi : Prop :=
  (∀ x : List Bool, ∃ z : List Bool, lineDecode false x = .ok z ∧ z.length = x.length ∧
    ∀ n, n < x.length →
      z[n]? = some (!(x.getD n false ^^ (if n = 0 then false else x.getD (n - 1) false)))) ∧
  (∀ (y : List Bool) (s : Bool), lineDecode s (nrzi y s) = .ok y ∧
    ∃ z : List Bool, lineDecode false (nrzi y s) = .ok z ∧ z.tail = y.tail ∧
      (y ≠ [] → (z.head? = y.head? ↔ s = false)))

/-- R245: complementing every input bit complements the first output bit and no other. -/
def Obligations.LineDecoderIgnoresPolarity : Prop :=
  ∀ x z : List Bool, lineDecode false x = .ok z →
    ∃ z' : List Bool, lineDecode false (x.map (fun b => !b)) = .ok z' ∧ z'.tail = z.tail ∧
      z'.head? = z.head?.map (fun b => !b)

/-- R252, R253, R254: from reset, a bit carries the preamble tag exactly when the bits received so far end in the
preamble pattern and the flag tag exactly when they end in the flag, so no tag before 16 or 8 bits; a tagged bit is
a 0 and never has both tags; the bit's position is the number of bits before it, modulo 2^POS_W (its width: log
entry 8). -/
def Obligations.TagsExactlyOnPatterns : Prop :=
  ∀ (par : Params) (l : List Bool) (b : Bool),
    let u := fdRun par { sr := 0, cnt := 0, pos := 0 } l
    let t := tagBit u b
    (t.p = true ↔ pre16 <:+ l ++ [b]) ∧ (t.f = true ↔ flagBits <:+ l ++ [b]) ∧ t.b = b ∧
    T3.producible t = true ∧ u.pos = l.length % 2 ^ par.posW

/-- R259: between two consecutive flags the first of which opens a frame, the gate puts out SOF, the raw bits but the
last seven in order, and EOF; the second flag may open a further frame. -/
def Obligations.GateForwardsFrameBits : Prop :=
  ∀ (p : Params) (u : GateRegs) (raw : List T3) (x y : Bool),
    u.hb.length = 7 → min (u.age + 1) (p.window + 1) ≤ p.window → (∀ t ∈ raw, t.f = false) →
    ∃ (v : GateRegs) (more : List FT2),
      runOp (gateOp p) u (⟨true, false, x⟩ :: raw ++ [⟨true, false, y⟩]) = .ok (v,
        (if u.isOpen then [FT2.eof] else []) ++ [.sof] ++ (raw.take (raw.length - 7)).map (fun t => FT2.bit t.b)
          ++ [.eof] ++ more) ∧
      more = (if v.isOpen then [.sof] else [])

/-- R262: with no frame open, a flag opens one exactly when it stands at most W bits after the last preamble tag:
exactly W bits after it does, W + 1 does not. -/
def Obligations.GateWindowBoundary : Prop :=
  ∀ (p : Params) (u : GateRegs) (mid : List Bool) (x y : Bool), u.isOpen = false →
    ∃ v : GateRegs,
      runOp (gateOp p) u (⟨false, true, x⟩ :: mid.map (fun b => ⟨false, false, b⟩) ++ [⟨true, false, y⟩])
        = .ok (v, if mid.length + 1 ≤ p.window then [.sof] else []) ∧
      v.isOpen = decide (mid.length + 1 ≤ p.window)

/-- R270: de-stuffing undoes stuffing, whatever run length stood before the frame. -/
def Obligations.DestuffingUndoesStuffing : Prop :=
  ∀ (ones : Nat) (x : List Bool),
    dstfRun ones (.sof :: (stuff x).map FT2.bit ++ [.eof]) = .ok (0, .sof :: x.map FT2.bit ++ [.eof])

/-- R287: a frame of at least 16 bits is accepted exactly when its last 16 bits are the checksum of the others; a
shorter one never is (R288). -/
def Obligations.CrcAcceptsExactlyTheTrailer : Prop :=
  ∀ y : List Bool,
    (16 ≤ y.length →
      (crcAccepts y.length (crcRun crcInit y) = true ↔ y.drop (y.length - 16) = fcs (y.take (y.length - 16)))) ∧
    (y.length < 16 → crcAccepts y.length (crcRun crcInit y) = false)

/-- R290: an accepted frame with one bit flipped, in payload or trailer, is rejected. -/
def Obligations.SingleBitErrorRejected : Prop :=
  ∀ (y : List Bool) (k : Nat), k < y.length → crcAccepts y.length (crcRun crcInit y) = true →
    crcAccepts y.length (crcRun crcInit (y.set k (!(y.getD k false)))) = false
end

