-- ==== Sys2Proof/Tests/Slice0.lean ====
section
/-! SUPPORT. Small tests of the model. Expected values come from the spec's own encodings (30_encoding.md R103 to R105,
R114) and vectors (95_test_vectors.md; the vector's name stands in the docstring), or from hand calculation by the
rule named. The last part gives, for every statement that has hypotheses, a concrete case that meets them. -/

namespace Sys2Proof.Tests

/- The tests are checked one after another: side by side their threads take more memory than a check may use. -/
set_option Elab.async false

open Sys2Proof Sys2Proof.Machine

/-- A complex number with rational parts. -/
def cx (re im : Rat) : Cpx := ⟨.rat re, .rat im⟩

/-! ### WellFormed refuses ill-formed terms -/

theorem test_wf_reference : Params.reference.wf = true := by decide +kernel

theorem test_wf_flag_on_one : (Instr.gateFlag .a false true).wf = false := by decide

theorem test_wf_both_tags : (Instr.gateFlag .a true false).wf = false := by decide

theorem test_wf_preamble_on_one : (Instr.gatePre .b true).wf = false := by decide

theorem test_wf_produced_tokens :
    (Instr.gateFlag .a false false).wf ∧ (Instr.gatePre .a false).wf ∧ (Instr.gateData .a true).wf := by decide

theorem test_wf_fsm_state_out_of_range :
    Fsm.wf { Fsm.fourPhase with ns := [(4, 1), (0, 2), (1, 3), (2, 0)] } = false := by decide

theorem test_wf_fsm_output_out_of_range :
    Fsm.wf { Fsm.fourPhase with os := [(3, 1), (0, 2), (1, 3), (2, 4)] } = false := by decide

theorem test_wf_fsm_table_length : Fsm.wf { Fsm.fourPhase with ns := [(3, 1)] } = false := by decide

theorem test_wf_fsm_output_length : Fsm.wf { Fsm.fourPhase with os := [(3, 1)] } = false := by decide

theorem test_wf_fsm_no_state : Fsm.wf { Fsm.fourPhase with nstates := 0, ns := [], os := [] } = false := by decide

theorem test_wf_fsm_no_output : Fsm.wf { Fsm.fourPhase with no := 0 } = false := by decide

theorem test_wf_depth_zero : Depths.wf { Depths.ones with ft := 0 } = false := by decide

theorem test_wf_wmax_zero : wmaxOk (some (.rat 0)) = false := by decide +kernel

theorem test_wf_qdepth_zero : qdepthOk (some 0) = false ∧ qdepthOk (some 1) = true ∧ qdepthOk none = true := by decide

/-- Every check of the coherent path's tables refuses its ill-formed table. -/
theorem test_wf_coherent :
    [({ Params.reference with q := 0 } : Params), { Params.reference with c := 0 },
      { Params.reference with mfLen := 0 }, { Params.reference with rsmpTaps := [] },
      { Params.reference with vitTb := 0 }, { Params.reference with fsm := { Fsm.fourPhase with ns := [] } },
      { Params.reference with mfTaps := [] }, { Params.reference with mfTaps := [[]] },
      { Params.reference with const := [] }, { Params.reference with const := [[], [], [], []] },
      { Params.reference with costasBw := .rat 0 }, { Params.reference with costasDamp := .rat 0 },
      { Params.reference with costasWmax := some (.rat (-1)) }, { Params.reference with energyFrac := .rat 0 },
      { Params.reference with energyFrac := .rat 2 }].all (fun p => !p.coherentWf) = true := by decide +kernel

/-- Every check of the non-coherent path's constants refuses its ill-formed constant. -/
theorem test_wf_nonCoherent :
    [({ Params.reference with rrcTaps := [] } : Params), { Params.reference with crT0 := .rat (-1) },
      { Params.reference with crT0 := .rat 1 }, { Params.reference with dfeNff := 0 },
      { Params.reference with dfeMuF := .rat (-1) }, { Params.reference with dfeMuB := .rat (-1) },
      { Params.reference with dfeTrainPlen := 0 },
      { Params.reference with dfeTrainPattern := 2 }].all (fun p => !p.nonCoherentWf) = true := by decide +kernel

/-- Every remaining check of the parameters. -/
theorem test_wf_params :
    [({ Params.reference with hasNc := false, hasDfe := true } : Params), { Params.reference with window := 0 },
      { Params.reference with frameMaxBits := 15 }, { Params.reference with vDiag := 0 },
      { Params.reference with depth := { Depths.ones with l1 := 0 } }, { Params.reference with q := 0 },
      { Params.reference with dfeNff := 0 }].all (fun p => !p.wf) = true := by decide +kernel

/-! ### Decoding: every operation's word, written out

Byte 0 is the token as R103 to R105 and R114's mask/match column have it (0 where the token has no bits). Byte 1 is
the model's own (log entry 5). -/

theorem test_decode_sysReset : decode [0b0, 0b00_0_10100] = .ok (.sysReset (.chan .a), []) := by decide
theorem test_decode_cfgLoad : decode [0b0, 0b01_0_10101] = .ok (.cfgLoad .b, []) := by decide
theorem test_decode_sysStart : decode [0b0, 0b10_0_10110] = .ok (.sysStart .receiver, []) := by decide
theorem test_decode_sysStop : decode [0b0, 0b00_0_10111] = .ok (.sysStop (.chan .a), []) := by decide
theorem test_decode_srcSample : decode [0b0, 0b01_0_11000] = .ok (.srcSample .b, []) := by decide
theorem test_decode_srcEos : decode [0b0, 0b10_0_11001] = .ok (.srcEos .receiver, []) := by decide
theorem test_decode_sysDrained : decode [0b0, 0b00_0_10011] = .ok (.sysDrained .a, []) := by decide
theorem test_decode_qPop : decode [0b0, 0b10_0_11010] = .ok (.qPop, []) := by decide
theorem test_decode_qEmpty : decode [0b0, 0b10_0_11011] = .ok (.qEmpty, []) := by decide
theorem test_decode_outPush : decode [0b0, 0b01_0_10010] = .ok (.outPush .b, []) := by decide
theorem test_decode_csStep : decode [0b0, 0b00_0_00111] = .ok (.csStep .a, []) := by decide
theorem test_decode_costasStep : decode [0b0, 0b01_0_01000] = .ok (.costasStep .b, []) := by decide
theorem test_decode_rsmpStep : decode [0b0, 0b00_0_01001] = .ok (.rsmpStep .a, []) := by decide
theorem test_decode_mfStep : decode [0b0, 0b01_0_01010] = .ok (.mfStep .b, []) := by decide
theorem test_decode_ilvStep : decode [0b0, 0b00_0_01011] = .ok (.ilvStep .a, []) := by decide
theorem test_decode_vitStep : decode [0b0, 0b01_0_01100] = .ok (.vitStep .b, []) := by decide
theorem test_decode_qdStep : decode [0b0, 0b00_0_01101] = .ok (.qdStep .a, []) := by decide
theorem test_decode_rrcStep : decode [0b0, 0b01_0_01110] = .ok (.rrcStep .b, []) := by decide
theorem test_decode_crStep : decode [0b0, 0b00_0_01111] = .ok (.crStep .a, []) := by decide
theorem test_decode_tcorrStep : decode [0b0, 0b01_0_10000] = .ok (.tcorrStep .b, []) := by decide
theorem test_decode_dfeStep : decode [0b0, 0b00_0_00011] = .ok (.dfeStep .a, []) := by decide
theorem test_decode_dfeRetrain : decode [0b1, 0b01_0_00011] = .ok (.dfeRetrain .b, []) := by decide
theorem test_decode_sliceStep : decode [0b0, 0b00_0_10001] = .ok (.sliceStep .a, []) := by decide
theorem test_decode_diffStep : decode [0b1, 0b01_0_00100] = .ok (.diffStep .b true, []) := by decide
theorem test_decode_invStep : decode [0b0, 0b00_0_00101] = .ok (.invStep .a false, []) := by decide
theorem test_decode_corrStep : decode [0b1, 0b01_0_00110] = .ok (.corrStep .b true, []) := by decide
theorem test_decode_gateData : decode [0b001, 0b00_0_00000] = .ok (.gateData .a true, []) := by decide
theorem test_decode_gatePre : decode [0b010, 0b01_0_00000] = .ok (.gatePre .b false, []) := by decide
theorem test_decode_gateFlag : decode [0b100, 0b00_0_00000] = .ok (.gateFlag .a false false, []) := by decide
theorem test_decode_dstfBit : decode [0b01, 0b01_0_00001] = .ok (.dstfBit .b true, []) := by decide
theorem test_decode_dstfSof : decode [0b10, 0b00_0_00001] = .ok (.dstfSof .a, []) := by decide
theorem test_decode_dstfEof : decode [0b11, 0b01_0_00001] = .ok (.dstfEof .b, []) := by decide
theorem test_decode_frmBit : decode [0b00, 0b00_0_00010] = .ok (.frmBit .a false, []) := by decide
theorem test_decode_frmSof : decode [0b10, 0b01_0_00010] = .ok (.frmSof .b, []) := by decide
theorem test_decode_frmEof : decode [0b11, 0b00_0_00010] = .ok (.frmEof .a, []) := by decide

/-- R115(a): the four codes that no producer makes still select by `f`, then by `p`. -/
theorem test_decode_unproduced_codes :
    decode [0b011, 0] = .ok (.gatePre .a true, []) ∧ decode [0b101, 0] = .ok (.gateFlag .a false true, []) ∧
    decode [0b110, 0] = .ok (.gateFlag .a true false, []) ∧ decode [0b111, 0] = .ok (.gateFlag .a true true, []) := by
  decide

/-- Bytes that are no operation word are refused by name. -/
theorem test_decode_refusals :
    decode [] = .error .truncated ∧ decode [0b001] = .error .truncated ∧
    decode [0, 0b00_1_00000] = .error .reservedBit ∧ decode [0, 0b00_0_11111] = .error .badTrigger ∧
    decode [0, 0b11_0_00000] = .error .badTarget ∧ decode [0, 0b10_0_00000] = .error .badTarget ∧
    decode [0, 0b00_0_11010] = .error .badTarget ∧ decode [0b1000, 0b00_0_00000] = .error .badToken ∧
    decode [0b100, 0b00_0_00001] = .error .badToken ∧ decode [1, 0b00_0_00111] = .error .badToken := by decide

/-- A table row's token bits stand on port TB of channel A (log entry 6). -/
theorem test_decodeTableWord : decodeTableWord 8 0b010 = some (.gatePre .a false) := by decide

/-! ### Bit-level units against the vectors -/

/-- Reads "1010" as bits, the first one received first (R11). -/
def bits (l : List Nat) : List Bool := l.map (fun n => n == 1)

/-- LD5. -/
theorem test_diff_inv_LD5 :
    lineDecode false (bits [0, 1, 1, 0, 0, 0, 1]) = .ok (bits [1, 0, 1, 0, 1, 1, 0]) := by decide

/-- LD4: the trace of `L1` and `LD.prev`. -/
theorem test_diff_LD4 : runOp diffOp false (bits [1, 1, 1, 1]) = .ok (true, bits [1, 0, 0, 0]) := by decide

/-- The correlators' registers after reset (R40). -/
def fd0 : FdRegs := { sr := 0, cnt := 0, pos := 0 }

/-- CO1 and CO2: the warm-up guard withholds the flag tag at seven bits. -/
theorem test_corr_CO1_CO2 :
    (tagBit (fdRun Params.reference fd0 (bits [1, 1, 1, 1, 1, 1])) false).f = false ∧
    (tagBit (fdRun Params.reference fd0 (bits [0, 1, 1, 1, 1, 1, 1])) false).f = true := by decide

/-- U18: the position wraps at `2^POS_W`. -/
theorem test_corr_position_wraps :
    (fdRun { Params.reference with posW := 2 } fd0 (bits [1, 0, 1, 1, 0])).pos = 1 := by decide

/-- CO5 and CO9: the preamble tag stands on the sixteenth bit, and the registers one bit later. -/
theorem test_corr_CO5_CO9 :
    (tagBit (fdRun Params.reference fd0 (pre16.take 15)) false).p = true ∧
    fdRun Params.reference fd0 (pre16 ++ [false]) = { sr := 0x5554, cnt := 16, pos := 17 } := by decide

/-- The tagged bits of a hard-bit string. -/
def tagAll : FdRegs → List Bool → List T3
  | _, [] => []
  | u, b :: rest => tagBit u b :: tagAll (fdNext Params.reference u b) rest

/-- GATE after reset (R41). -/
def gate0 : GateRegs := { age := 33, isOpen := false, hb := List.replicate 7 none, hbc := 0 }

/-- GA4: runs of flags give empty frames, and the last flag leaves a frame open. -/
theorem test_gate_GA4 :
    (runOp (gateOp Params.reference) gate0 (tagAll fd0 (pre16 ++ flagBits ++ flagBits))).map
      (fun r => (r.2, r.1.isOpen, r.1.age)) = .ok ([.sof, .eof, .sof], true, 16) := by decide +kernel

/-- GA6: a frame never closed; seven bits stay in the hold-back line. -/
theorem test_gate_GA6 :
    (runOp (gateOp Params.reference) gate0
      (tagAll fd0 (bits [0, 1, 0, 1, 0, 1, 0, 1] ++ pre16.drop 15 ++ (pre16.take 15) ++ flagBits
        ++ bits [1, 0, 1, 1, 0, 0, 1, 1, 1, 0, 0, 0, 1, 0, 0, 1]))).map
      (fun r => (r.2.length, r.1.hbc, heldBits r.1.hb 7)) = .ok (10, 7, bits [0, 0, 0, 1, 0, 0, 1]) := by
  decide +kernel

/-- DS6 and DS8. -/
theorem test_stuff_DS6_DS8 :
    stuff (List.replicate 10 true) = bits [1, 1, 1, 1, 1, 0, 1, 1, 1, 1, 1, 0] ∧
    stuff (bits [1, 1, 1, 1, 0, 1, 1, 1, 1, 1, 0]) = bits [1, 1, 1, 1, 0, 1, 1, 1, 1, 1, 0, 0] := by decide

/-- The input of section 3.4 that no `stuff` makes: the count saturates at five. -/
theorem test_dstf_saturates :
    dstfRun 0 (.sof :: (bits [1, 1, 1, 1, 1, 1, 0]).map FT2.bit ++ [.eof])
      = .ok (0, .sof :: (bits [1, 1, 1, 1, 1, 1]).map FT2.bit ++ [.eof]) := by decide

/-- CR2, CR3 and CR7. -/
theorem test_crc_CR2_CR3_CR7 :
    crcRun crcInit [true] = 0x7FFF ∧ crcRun crcInit [false] = 0xFBF7 ∧
    crcRun crcInit (bits [1, 1, 1, 1, 1, 0, 1, 1, 1, 1, 1, 0, 0, 1, 1, 0]) = 0x3BF2 := by decide +kernel

/-- CR4: the trailer of Z, and the register over Z and its trailer. -/
theorem test_fcs_CR4 :
    let z := bits [1, 0, 1, 1, 0, 0, 1, 1]
    fcs z = bits [1, 0, 0, 0, 1, 0, 0, 1, 1, 0, 1, 1, 0, 1, 1, 1] ∧ crcRun crcInit (z ++ fcs z) = 0xF0B8 := by
  decide +kernel

/-! ### Signal-path units against the vectors -/

/-- CS1, CS2 and CS4: the estimate from the bin of the maximum. -/
theorem test_cs_estimate :
    freqEstimate Params.reference 48000 1 8 = .rat 3000 ∧ freqEstimate Params.reference 48000 7 8 = .rat (-3000) ∧
    freqEstimate { Params.reference with csPeakBias := .rat 4800 } 48000 1 10 = .rat 0 ∧
    freqEstimate { Params.reference with csPeakBias := .rat 4800 } 48000 0 10 = .rat (-2400) := by decide +kernel

/-- R13: moduli; `|1 + j|` is the root of 2. -/
theorem test_cabs :
    cabs (cx 3 4) = .rat 5 ∧ cabs (cx (-3 / 7) (4 / 7)) = .rat (5 / 7) ∧ cabs Cpx.zero = .rat 0 ∧
    (cabs (cx 1 1)).val = √2 := by
  refine ⟨by decide +kernel, by decide +kernel, by decide +kernel, ?_⟩
  have : (normSq (cx 1 1)).val = 2 := by norm_num [normSq, cx]
  rw [cabs, Scalar.val_sqrt, this]

/-- R13: `exp(0)`, `exp(j*pi/2)` and `exp(j*pi)`; `Re(exp(j*pi/3))` is 1/2. -/
theorem test_cexp :
    cexp (.rat 0) = cx 1 0 ∧ cexp (Scalar.pi.div (.rat 2)) = cx 0 1 ∧ cexp Scalar.pi = cx (-1) 0 ∧
    (cexp (Scalar.pi.div (.rat 3))).re = .rat (1 / 2) :=
  ⟨cexp_zero, cexp_half_pi, cexp_pi, Scalar.ext (by simp [cexp])⟩

/-- R13: `arg(1 + j) = pi/4`. -/
theorem test_arg : arg (cx 1 1) = Scalar.pi.div (.rat 4) := by
  have hp := Real.pi_pos
  have h : arg (cexp (Scalar.pi.div (.rat 4))) = Scalar.pi.div (.rat 4) := by
    rw [arg_cexp, wrap_of_range] <;> simp <;> linarith
  rw [← h, ← arg_cscale (r := (Scalar.rat 2).sqrt) (by simp) (cexp _)]
  have e : √(2 : ℝ) * (√2 / 2) = 1 := by rw [mul_div_assoc', Real.mul_self_sqrt] <;> norm_num
  congr 1
  simp only [cx, cexp, Cpx.mk.injEq]
  exact ⟨Scalar.ext (by simp [e]), Scalar.ext (by simp [e])⟩

/-- R139, CS3: a block of zeros has magnitudes 0, in every number format, so its peak is bin 0. -/
theorem test_cs_zero_block (n : Numerics) :
    Machine.spectrum n (squareBlock n (List.replicate 2 Cpx.zero)) = [.rat 0, .rat 0] := by
  have h : cmul Cpx.zero Cpx.zero = Cpx.zero := by decide +kernel
  have hb (m : Nat) : magnitude n (dftBin n [Cpx.zero, Cpx.zero] m) = .rat 0 := by
    have hs (z : Cpx) : cmul Cpx.zero z = Cpx.zero := toC_injective (by simp)
    have ha : cadd Cpx.zero Cpx.zero = Cpx.zero := by decide +kernel
    have hz : cabs Cpx.zero = .rat 0 := by decide +kernel
    simp only [dftBin, dftFrom, hs, ha, quantC_zero, magnitude, hz, quant_zero]
  simp [squareBlock, Machine.spectrum, List.replicate, h, hb, List.range_succ]

/-- CS1, CS3: equal maxima go to the lowest index. -/
theorem test_cs_argmax : argmaxLowest ([0, 8, 0, 8].map .rat) = 1 ∧
    argmaxLowest ([0, 0, 0, 0].map .rat) = 0 := by decide +kernel

/-- `exp(j*pi*n/8)`, the tone of 3000 Hz at 48000 samples per second of CS1. -/
def tone (n : Nat) : Cpx := cexp (Scalar.pi.mul (.rat (n / 8)))

theorem toC_tone (n : Nat) : toC (tone n) = Complex.exp (Real.pi / 8 * Complex.I) ^ n := by
  rw [tone, toC_cexp, ← Complex.exp_nat_mul]
  congr 1; simp; ring

/-- The magnitudes of that tone: all of it in bin 1. -/
theorem cs1_spectrum :
    Machine.spectrum .exact (squareBlock .exact ((List.range 8).map tone))
      = [0, 8, 0, 0, 0, 0, 0, 0].map .rat := by
  have key (m : Nat) (hm : m < 8) :
      magnitude .exact (dftBin .exact (squareBlock .exact ((List.range 8).map tone)) m)
        = .rat (if m = 1 then 8 else 0) := by
    apply Scalar.ext
    rw [magnitude, quant_exact, val_cabs]
    set ζ := Complex.exp ((1 - m) * (Real.pi / 4) * Complex.I) with hζ
    have hterm (n : Nat) : toC (cmul (cmul (tone n) (tone n))
        (cexp (((twoPi.mul (.rat m)).div (.rat (8 : Nat))).mul (.rat n)).neg)) = ζ ^ n := by
      rw [toC_cmul, toC_cmul, toC_tone, toC_cexp, hζ, ← Complex.exp_nat_mul, ← Complex.exp_nat_mul, ← Complex.exp_add,
        ← Complex.exp_add]
      congr 1; simp; ring
    have hsum : toC (dftBin .exact (squareBlock .exact ((List.range 8).map tone)) m)
        = ζ ^ 0 + (ζ ^ 1 + (ζ ^ 2 + (ζ ^ 3 + (ζ ^ 4 + (ζ ^ 5 + (ζ ^ 6 + (ζ ^ 7 + 0))))))) := by
      simp only [← hterm, ← toC_cadd, ← toC_zero]
      rfl
    rw [hsum]
    split_ifs with h
    · have : ζ = 1 := by simp [hζ, h]
      rw [this]; norm_num
    · have h8 : ζ ^ 8 = 1 := by
        rw [hζ, ← Complex.exp_nat_mul, Complex.exp_eq_one_iff]
        exact ⟨1 - m, by push_cast; ring⟩
      have h1 : ζ ≠ 1 := by
        rw [hζ, Ne, Complex.exp_eq_one_iff]
        rintro ⟨k, hk⟩
        have hp : (Real.pi : ℂ) * Complex.I ≠ 0 := by simp [Real.pi_ne_zero]
        have e : (1 - (m : ℂ)) = 8 * k := by
          apply mul_right_cancel₀ hp
          linear_combination 4 * hk
        have : (1 - (m : ℤ)) = 8 * k := by exact_mod_cast e
        omega
      have h0 : (ζ - 1) * (ζ ^ 0 + (ζ ^ 1 + (ζ ^ 2 + (ζ ^ 3 + (ζ ^ 4 + (ζ ^ 5 + (ζ ^ 6 + (ζ ^ 7 + 0)))))))) = 0 := by
        linear_combination h8
      rcases mul_eq_zero.1 h0 with h | h
      · exact absurd (sub_eq_zero.1 h) h1
      · rw [h]; simp
  have hl : (squareBlock .exact ((List.range 8).map tone)).length = 8 := by simp [squareBlock]
  rw [Machine.spectrum, hl]
  exact (List.map_congr_left fun m hm => key m (List.mem_range.1 hm)).trans (by decide +kernel)

/-- CS1: the estimate is 3000, the eight outputs are 1, and the oscillator ends at `pi`. -/
theorem test_cs_CS1 :
    let fhat := blockEstimate Params.reference 48000 ((List.range 8).map tone)
    fhat = .rat 3000 ∧
    rotateBlock .exact (phaseStep Params.reference 48000 fhat) (.rat 0) ((List.range 8).map tone)
      = (List.replicate 8 ⟨.rat 1, .rat 0⟩, Scalar.pi) := by
  have hp := Real.pi_pos
  have hf : blockEstimate Params.reference 48000 ((List.range 8).map tone) = .rat 3000 := by
    rw [blockEstimate, show Params.reference.numerics = .exact from rfl, cs1_spectrum]
    simp only [List.length_map, List.length_range]
    decide +kernel
  let ph (k : Nat) : Scalar := Scalar.pi.mul (.rat (-k / 8))
  have hd : phaseStep Params.reference 48000 (.rat 3000) = ph 1 := by
    apply Scalar.ext
    simp [phaseStep, Params.reference, ph]; ring
  have hstep (k : Nat) (hk : k < 7) : wrap ((ph k).add (ph 1)) = ph (k + 1) := by
    have e : (ph k).add (ph 1) = ph (k + 1) := by
      apply Scalar.ext; simp [ph]; ring
    have hk' : (k : ℝ) < 7 := by exact_mod_cast hk
    rw [e, wrap_of_range] <;> simp [ph] <;> nlinarith
  have hlast : wrap ((ph 7).add (ph 1)) = Scalar.pi :=
    wrap_unique (by simp; linarith) (by simp) (-1) (by simp [ph]; ring)
  have hout (k : Nat) : cmul (tone k) (cexp (ph k)) = ⟨.rat 1, .rat 0⟩ := by
    rw [tone, ← cexp_add, ← cexp_zero]
    congr 1
    apply Scalar.ext; simp [ph]; ring
  have h0 : Scalar.rat 0 = ph 0 := by
    apply Scalar.ext; change ((0 : Rat) : ℝ) = (Scalar.pi.mul (.rat (-((0 : Nat) : Rat) / 8))).val; simp
  refine ⟨hf, ?_⟩
  rw [hf, hd, h0]
  simp [List.range_succ, rotateBlock, hstep, hlast, hout, List.replicate]
  exact h0

/-- CL1: an irrational damping gives the table's gains to seven places. -/
theorem test_costas_CL1 :
    let p := { Params.reference with costasDamp := (Scalar.rat (1 / 2)).sqrt }
    |(costasDen p).val - 1.0732107| < 5e-8 ∧ |(costasAlpha p).val - 0.1317741| < 5e-8 ∧
      |(costasBeta p).val - 0.0093178| < 5e-8 := by
  have h2 : Real.sqrt ((1 / 2 : Rat) : ℝ) ^ 2 = 1 / 2 := by rw [Real.sq_sqrt] <;> norm_num
  have h0 := Real.sqrt_nonneg ((1 / 2 : Rat) : ℝ)
  set s := Real.sqrt ((1 / 2 : Rat) : ℝ) with hs
  have hl : 0.70710678 < s := by nlinarith
  have hu : s < 0.70710679 := by nlinarith
  have hd : (costasDen { Params.reference with costasDamp := (Scalar.rat (1 / 2)).sqrt }).val
      = 1 + 2 * s * (1 / 20) + (1 / 20) * (1 / 20) := by
    simp [costasDen, Params.reference, hs]
  have hp : 0 < 1 + 2 * s * (1 / 20) + (1 / 20) * (1 / 20) := by positivity
  refine ⟨?_, ?_, ?_⟩
  · rw [hd, abs_lt]; constructor <;> norm_num <;> linarith
  · have : (costasAlpha { Params.reference with costasDamp := (Scalar.rat (1 / 2)).sqrt }).val
        = 4 * s * (1 / 20) / (1 + 2 * s * (1 / 20) + (1 / 20) * (1 / 20)) := by
      rw [← hd]; simp [costasAlpha, Params.reference, hs]
    rw [this, abs_sub_lt_iff, sub_lt_iff_lt_add, div_lt_iff₀ hp, sub_lt_comm, lt_div_iff₀ hp]
    constructor <;> norm_num <;> linarith
  · have : (costasBeta { Params.reference with costasDamp := (Scalar.rat (1 / 2)).sqrt }).val
        = 4 * (1 / 20) * (1 / 20) / (1 + 2 * s * (1 / 20) + (1 / 20) * (1 / 20)) := by
      rw [← hd]; simp [costasBeta, Params.reference]
    rw [this, abs_sub_lt_iff, sub_lt_iff_lt_add, div_lt_iff₀ hp, sub_lt_comm, lt_div_iff₀ hp]
    constructor <;> norm_num <;> linarith

/-- CL2, step 1: the phase detector; and the bound of R152. -/
theorem test_costas_parts :
    phaseDetect Params.reference (cx 1 (1 / 2)) = .rat (1 / 2) ∧
    clampOmega { Params.reference with costasWmax := some (.rat 1) } (.rat (-3)) = .rat (-1) := by decide +kernel

/-- RS1: the resampler's factors. -/
theorem test_rsmp_RS1 :
    (rsmpL { Params.reference with q := 4 } (CfgRec.reference true),
      rsmpM { Params.reference with q := 4 } (CfgRec.reference true)) = (4, 5) ∧
    (rsmpL { Params.reference with q := 5 } (CfgRec.reference true),
      rsmpM { Params.reference with q := 5 } (CfgRec.reference true)) = (1, 1) := by decide

/-- RS2: with L = 4 and M = 5 five inputs give four outputs, the first the first input. -/
theorem test_rsmp_RS2 :
    (runOp (rsmpOp { Params.reference with q := 4 } (CfgRec.reference true)) { hist := [Cpx.zero], nxt := 0 }
      [cx 7 0, cx 1 0, cx 2 0, cx 3 0, cx 4 0]).map (fun r => (r.2, r.1.nxt))
      = .ok ([cx 7 0, cx 0 0, cx 0 0, cx 0 0], 0) := by decide +kernel

/-- MF1. -/
theorem test_mf_MF1 :
    runOp (mfOp { Params.reference with q := 2, mfLen := 2, mfTaps := [[cx 1 0, cx 1 0]] })
      { dl := [Cpx.zero, Cpx.zero], ph := 0 } [cx 1 0, cx 2 0, cx 3 0, cx 4 0]
      = .ok ({ dl := [cx 4 0, cx 3 0], ph := 0 }, [[cx 1 0], [cx 5 0]]) := by decide +kernel

/-- VIT after reset with the reference tables. -/
def vit0 : VitRegs := { vbuf := [none], vcnt := 0, pm := List.replicate 4 (.fin (.rat 0)), sv := [] }

/-- VI4: the metrics after the first and after the second input, and no bit yet after the first. -/
theorem test_vit_VI4 :
    (runOp (vitOp { Params.reference with vitTb := 2 }) vit0 [cx 0 1]).map (fun r => (r.1.pm, r.2))
      = .ok ([.fin (.rat 2), .fin (.rat 0), .fin (.rat 2), .fin (.rat 4)], []) ∧
    (runOp (vitOp { Params.reference with vitTb := 2 }) vit0 [cx 0 1, cx (-1) 0]).map (fun r => r.1.pm)
      = .ok [.fin (.rat 4), .fin (.rat 4), .fin (.rat 0), .fin (.rat 4)] := by decide +kernel

/-- VI6: two states tie, the lower one is walked back from. -/
theorem test_vit_VI6 :
    (vitOp { Params.reference with vitTb := 1 } vit0 (cx 1 1)).map (fun r => (r.1.pm, r.2))
      = .ok ([.fin (.rat 0), .fin (.rat 0), .fin (.rat 4), .fin (.rat 4)], [false]) ∧
    (addCompareSelect Params.reference [cx 0 1] vit0.pm).2
      = [some (1, false), some (0, true), some (1, true), some (0, false)] := by decide +kernel

/-- QD1: the first sample gives 0. -/
theorem test_qd_QD1 :
    (qdOp { Params.reference with qdGain := .value (.rat 3) } (CfgRec.reference false) Cpx.zero (cx 1 0)).map
      (fun r => r.2) = .ok [.rat 0] := by decide +kernel

/-- QD2, and the angle of `1 + j`: with the reference gain, `SPS` = 5, an advance of `t` gives `10/pi*t`. -/
theorem test_qd_QD2 :
    (qdOp Params.reference (CfgRec.reference false) (cx 1 0) (cexp (Scalar.pi.div (.rat 10)))).map (fun r => r.2)
      = .ok [.rat 1] ∧
    (qdOp Params.reference (CfgRec.reference false) (cx 1 0) (cx 1 1)).map (fun r => r.2)
      = .ok [.rat (5 / 2)] := by
  have hp := Real.pi_pos
  have hx (z : Cpx) : cmul z (conj (cx 1 0)) = z := toC_injective (by
    have : toC (cx 1 0) = 1 := by apply Complex.ext <;> simp [cx]
    simp [this])
  have hg : (qdGainOf Params.reference (CfgRec.reference false)).val = 5 / (Real.pi / 2) := by
    have : spsOf (CfgRec.reference false) = .rat 5 := by decide +kernel
    simp [qdGainOf, Params.reference, quant, this]
  have hn : Params.reference.numerics = .exact := rfl
  have ha : arg (cexp (Scalar.pi.div (.rat 10))) = Scalar.pi.div (.rat 10) := by
    rw [arg_cexp, wrap_of_range] <;> simp <;> linarith
  simp only [qdOp, Except.map, hx, hn, quant, ha, test_arg]
  constructor <;> congr 2 <;> apply Scalar.ext <;> simp [hg] <;> field_simp <;> norm_num

/-- RR1. -/
theorem test_rrc_RR1 :
    (runOp (rrcOp { Params.reference with rrcTaps := [1 / 4, 1 / 2, 1 / 4].map .rat }) ([0, 0, 0].map .rat)
      ([4, 0, 0, 8].map .rat)).map (fun r => r.2) = .ok ([1, 2, 1, 2].map .rat) := by decide +kernel

/-- R217 with a fractional `SPS` of 4.5: two outputs from five inputs (log entry 31). -/
theorem test_cr_fractional :
    (runOp (crOp Params.reference { CfgRec.reference false with sampleRate := 43200 })
      { prevIn := .rat 0, t := .rat 0, omega := .rat (9 / 2), lastOut := .rat 0 }
      ([10, 11, 12, 13, 14].map .rat)).map (fun r => r.2.length)
      = .ok 2 := by decide +kernel

/-- CK1 with `SPS` = 5: outputs at the inputs 0 and 5 only. -/
theorem test_cr_CK1 :
    (runOp (crOp Params.reference (CfgRec.reference false))
      { prevIn := .rat 0, t := .rat 0, omega := .rat 5, lastOut := .rat 0 }
      ([10, 11, 12, 13, 14, 15, 16].map .rat)).map (fun r => (r.2, r.1.t)) = .ok ([.rat 0, .rat 14], .rat 3) := by decide +kernel

/-- TC1. -/
theorem test_tcorr_TC1 :
    (runOp (tcorrOp { Params.reference with dfeTrainPlen := 4, dfeTrainPattern := 0b0011 }) { sr := 0, cnt := 0 }
      ([-1, -1, 1, 1].map .rat)).map (fun r => r.2.map (fun t => t.hit)) = .ok [false, false, false, true] := by
  decide +kernel

/-- DF1. -/
theorem test_dfe_DF1 :
    dfeBody { Params.reference with dfeMuF := .rat (1 / 2) } 
      { wf := [.rat 1], wb := [], u := [.rat 0], d := [], tcnt := 0 } (.rat (1 / 2))
      = ({ wf := [.rat (9 / 8)], wb := [], u := [.rat (1 / 2)], d := [], tcnt := 0 }, [.rat (1 / 2)]) := by decide +kernel

/-- DF2: whatever taps stood there before. -/
theorem test_dfe_DF2 :
    dfeBody { Params.reference with dfeMuF := .rat (1 / 2), dfeTrainRef := [.plus, .minus] }
      (dfeCleared { wf := [.rat 7], wb := [], u := [.rat 5], d := [], tcnt := 2 }) (.rat 2)
      = ({ wf := [.rat 1], wb := [], u := [.rat 2], d := [], tcnt := 1 }, [.rat 0]) := by decide +kernel

/-- SL1. -/
theorem test_slice_SL1 : ([7 / 10, -1 / 5, 0, -3].map Scalar.rat).map hardBit = [true, false, true, false] := by
  decide +kernel

/-! ### One operation of the receiver -/

/-- An observation of the state an operation answers. -/
def after {α : Type} (f : State → α) : Outcome → Option α
  | .next s => some (f s)
  | _ => none

/-- Both channels brought up with the chosen demodulator; nothing in flight. -/
def up (coherent : Bool) : State :=
  { State.reset with a := bringUpPath coherent State.reset.a, b := bringUpPath coherent State.reset.b }

/-- The receiver with one host signal pending. -/
def withSignal (g : Signal) : State := { State.reset with signals := [g] }

/-- SY1, SY2, SY3 and SY8. -/
theorem test_load_codes :
    after (fun s => (s.a.lc, s.a.cfgErr)) (exec (.cfgLoad .a) (withSignal (.load .a (CfgRec.reference true))))
      = some (.ready, 0) ∧
    after (fun s => (s.a.lc, s.a.cfgErr, s.a.obs.diag))
        (exec (.cfgLoad .a) (withSignal (.load .a { CfgRec.reference true with fftlen := 0, verbosity := 0 })))
      = some (.cfgError, 3, [{ code := 1, designator := 0x41, opid := 0x02, info := 3 }]) ∧
    cfgCheck Params.reference { CfgRec.reference true with symbolRate := 4800, fftlen := 0 } = 1 := by decide +kernel

/-- SY4, SY5 (its event carries the offered record's designator), SY6 and SY7. -/
theorem test_load_checks :
    cfgCheck Params.reference { CfgRec.reference true with decim := 7 } = 2 ∧
    after (fun s => (s.a.lc, s.a.cfgErr, s.a.obs.diag))
        (exec (.cfgLoad .a) (withSignal (.load .a { CfgRec.reference true with designator := 0x43 })))
      = some (.cfgError, 4, [{ code := 1, designator := 0x43, opid := 0x02, info := 4 }]) ∧
    cfgCheck Params.reference { CfgRec.reference false with omegaRel := .rat 1 } = 6 ∧
    cfgCheck { Params.reference with hasNc := false } (CfgRec.reference false) = 5 := by decide +kernel

/-- SY9 and SY11: `start` is ignored in UNCONFIGURED, `eos` outside RUNNING. -/
theorem test_signals_ignored :
    after (fun s => (s.a.lc, s.signals)) (exec (.sysStart (.chan .a)) (withSignal (.start (.chan .a))))
      = some (.unconfigured, []) ∧
    after (fun s => (s.a.lc, s.signals)) (exec (.srcEos .receiver) (withSignal (.eos .receiver)))
      = some (.unconfigured, []) := by decide +kernel

/-- SY12: `stop` drains, and an instance with nothing in flight is then done. -/
theorem test_stop_and_drained :
    after (fun s => (s.a.lc, s.b.lc)) (exec (.sysStop (.chan .a)) { up true with signals := [.stop (.chan .a)] })
      = some (.draining, .running) ∧
    after (fun s => (s.b.lc, s.b.done)) (exec (.sysDrained .b) (place (.sysDrained .b) State.reset))
      = some (.done, true) := by decide +kernel

/-- SY14: a reset clears what a run left. -/
theorem test_reset :
    after (fun s => (s.a.lc, s.a.cs.fill, s.b.lc, s.q.length))
      (exec (.sysReset .receiver) { place (.outPush .a) (up true) with signals := [.reset .receiver] })
      = some (.unconfigured, 0, .unconfigured, 0) := by decide +kernel

/-- CS6: a sample before the last of a block only fills the buffer. -/
theorem test_csStep :
    after (fun s => (s.a.cs.fill, s.a.ch.sIn, s.a.ch.csOut)) (exec (.csStep .a) (place (.csStep .a) State.reset))
      = some (1, [], []) := by decide +kernel

/-- IL1. -/
theorem test_ilvStep :
    after (fun s => (s.a.ch.k3, s.a.ch.vIn)) (exec (.ilvStep .a)
      { up true with a := putToken (fun _ h => { h with k3 := [[cx 1 0, cx 2 0]] }) (up true).a })
      = some ([], [cx 1 0, cx 2 0]) := by decide +kernel

/-- R360: with `FT` full the gate waits on a flag that would open a frame, and fires once there is room. -/
theorem test_gate_backpressure :
    let s := place (.gateFlag .a false false) (up true)
    let armed (ft : List FT2) : State :=
      s.modInst .a (fun i => { i with gate := { i.gate with age := 3 }, ch := { i.ch with ft := ft } })
    after (fun t => (t.a.ch.tb.length, t.a.ch.ft)) (exec (.gateFlag .a false false) (armed [.eof]))
      = some (1, [.eof]) ∧
    after (fun t => (t.a.ch.tb.length, t.a.ch.ft)) (exec (.gateFlag .a false false) (armed []))
      = some (0, [.sof]) := by decide +kernel

/-- FR3: sixteen zeros are the empty frame and its trailer. -/
theorem test_frmEof_FR3 :
    after (fun t => t.a.ch.rOut.map (fun r => (r.nbits, r.payload)))
      (exec (.frmEof .a) ((place (.frmEof .a) (up true)).modInst .a (fun i =>
        { i with frm := { active := true, ovf := false, flen := 16, crc := crcRun crcInit (List.replicate 16 false),
                          fb := List.replicate 1024 (some false) } })))
      = some [(0, [])] := by decide +kernel

/-- FR2: three bits are no frame; the event carries their number, and verbosity 0 silences it. -/
theorem test_frmEof_FR2 :
    let s (v : BitVec 8) : State := (place (.frmEof .a) (up true)).modInst .a (fun i =>
      { i with
        cfg := { i.cfg with verbosity := v }
        frm := { active := true, ovf := false, flen := 3, crc := 0x5DFB, fb := List.replicate 1024 none } })
    after (fun t => t.a.obs.diag) (exec (.frmEof .a) (s 1))
      = some [{ code := 2, designator := 0x41, opid := 0x2B, info := 3 }] ∧
    after (fun t => t.a.obs.diag) (exec (.frmEof .a) (s 0)) = some [] := by decide +kernel

/-- P4: the bit after the last of a full buffer overruns the frame. -/
theorem test_frmBit_P4 :
    after (fun t => (t.a.frm.ovf, t.a.frm.flen, t.a.obs.diag))
      (exec (.frmBit .a true) ((place (.frmBit .a true) (up true)).modInst .a (fun i =>
        { i with frm := { active := true, ovf := false, flen := 1024, crc := 0, fb := List.replicate 1024 none } })))
      = some (true, 1024, [{ code := 3, designator := 0x41, opid := 0x29, info := 1024 }]) := by decide +kernel

/-- QU1: a pop returns the head, the empty check answers, and a pop on an empty queue waits. -/
theorem test_queue_QU1 :
    after (fun t => (t.popped, t.q)) (exec .qPop (place .qPop State.reset)) = some ([blankRecord], []) ∧
    after (fun t => t.answers) (exec .qEmpty (place .qEmpty State.reset)) = some [true] ∧
    after (fun t => t.requests) (exec .qPop { State.reset with requests := [.pop] }) = some [.pop] := by decide +kernel

/-- R108, R116: the serial form's length, `nbits` before the payload. -/
theorem test_serialRecord :
    (serialRecord { blankRecord with nbits := 2, payload := [true, false] }).length = 8 + 1 + 16 + 2 + 1 + 32 + 32 + 8 := by
  decide

/-! ### The statements' hypotheses are met

One theorem for each statement that has hypotheses, named after it. Each clause has its case, at a boundary of its range
where it has one. -/

/-- Channel A of `up` with its channels, parameters and registers changed. -/
def upA (coherent : Bool) (f : ChanInst → ChanInst) : State := (up coherent).modInst .a f

/-- Channel A of `up` with its channels changed. -/
def upCh (coherent : Bool) (f : Channels → Channels) : State := upA coherent (fun i => { i with ch := f i.ch })

theorem witness_StepRunsDecodedOperation :
    (∃ (s u : State) (t : Turn) (w rest : List Byte) (i : Instr),
      nextTurn s = (t, u) ∧ fetch t u = some w ∧ decode w = .ok (i, rest)) ∧
    (∃ (s u : State) (t : Turn), nextTurn s = (t, u) ∧ fetch t u = none) :=
  ⟨⟨{ place (.frmSof .a) State.reset with schedule := [.unit .a .frm] }, place (.frmSof .a) State.reset, .unit .a .frm,
      [2, 2], [], .frmSof .a, rfl, rfl, rfl⟩,
    ⟨State.reset, { State.reset with robin := 1 }, .controller, rfl, rfl⟩⟩

theorem witness_AgentFetchesItsOwnOperation :
    ∃ (t : Turn) (s : State) (w : List Byte), fetch t s = some w :=
  ⟨.unit .b .gate, place (.gatePre .b false) State.reset, [2, 64], rfl⟩

theorem witness_DecodeEncodeBothWays :
    ∃ (bs rest : List Byte) (i : Instr), decode bs = .ok (i, rest) := ⟨[4, 0, 9], [9], .gateFlag .a false false, rfl⟩

theorem witness_ResetSignalRestores :
    (withSignal (.reset (.chan .b))).signals = .reset (.chan .b) :: [] ∧
    (withSignal (.reset .receiver)).signals = .reset .receiver :: [] := ⟨rfl, rfl⟩

theorem witness_LoadConfiguresOrRefuses :
    let good := CfgRec.reference true
    let bad := { good with fftlen := 0 }
    ((withSignal (.load .a good)).signals = [.load .a good] ∧ State.reset.a.lc = .unconfigured ∧
      cfgCheck State.reset.a.par good = 0) ∧
    ((withSignal (.load .b bad)).signals = [.load .b bad] ∧ cfgCheck State.reset.b.par bad ≠ 0) ∧
    ({ up true with signals := [.load .a good] } : State).a.lc ≠ .unconfigured := by decide +kernel

theorem witness_StartStopEndOfStream :
    (withSignal (.start (.chan .a))).signals = [.start (.chan .a)] ∧
    (withSignal (.start .receiver)).signals = [.start .receiver] ∧
    (withSignal (.stop (.chan .b))).signals = [.stop (.chan .b)] ∧
    (withSignal (.stop .receiver)).signals = [.stop .receiver] ∧
    (withSignal (.eos (.chan .a))).signals = [.eos (.chan .a)] ∧
    (withSignal (.eos .receiver)).signals = [.eos .receiver] := ⟨rfl, rfl, rfl, rfl, rfl, rfl⟩

theorem witness_SampleEntersInputChannel :
    let s (held : List Cpx) : State := { upCh true (fun h => { h with sIn := held }) with offersA := [cx 1 0] }
    ((s []).offers .a = [cx 1 0] ∧ (s []).a.lc = .running ∧ (s []).a.ch.sIn.length + 1 = (s []).a.par.depth.sIn) ∧
    ((s [cx 2 0]).offers .a = [cx 1 0] ∧ (s [cx 2 0]).a.par.depth.sIn = (s [cx 2 0]).a.ch.sIn.length) ∧
    ({ State.reset with offersB := [Cpx.zero] } : State).offers .b = [Cpx.zero] ∧ State.reset.b.lc ≠ .running := by
  decide +kernel

theorem witness_DrainedSetsCompletion :
    let s := place (.sysDrained .a) State.reset
    (s.a.lc = .draining ∧ s.a.ch = Channels.empty) ∧
    ({ s.a with ch := { s.a.ch with hb := [true] } } : ChanInst).ch ≠ Channels.empty ∧
    State.reset.a.lc ≠ .draining := by decide +kernel

theorem witness_ConsumerOperations :
    ((place .qPop State.reset).requests = [.pop] ∧ (place .qPop State.reset).q = [blankRecord]) ∧
    (({ State.reset with requests := [.pop] } : State).requests = [.pop] ∧ State.reset.q = []) ∧
    (place .qEmpty State.reset).requests = [.empty] := by decide +kernel

theorem witness_PushAppendsRecord :
    let s (d : Option Nat) (q : List Rec) : State := { place (.outPush .a) State.reset with qdepth := d, q := q }
    (unitsEnabled ((s none []).inst .a) = true ∧ ((s none []).inst .a).ch.rOut = [blankRecord]) ∧
    ((s (some 1) []).qdepth = some 1 ∧ (s (some 1) []).q.length < 1) ∧
    ((s (some 1) [blankRecord]).qdepth = some 1 ∧ 1 ≤ (s (some 1) [blankRecord]).q.length) := by decide +kernel

theorem witness_PartialWorkIsCollected :
    let s := upCh true (fun h => { h with sIn := [cx 1 0] })
    let s6 := s.modInst .a (fun i => { i with cs := { i.cs with fill := 6 } })
    let v := (upCh true (fun h => { h with vIn := [cx 1 0] })).modInst .a (fun i =>
      { i with par := { i.par with c := 2 }, vit := { i.vit with vbuf := [none, none] } })
    (unitsEnabled s6.a = true ∧ s6.a.ch.sIn = [cx 1 0] ∧ s6.a.cs.buf.length = s6.a.cfg.fftlen.toNat ∧
      s6.a.cs.fill + 2 = s6.a.cfg.fftlen.toNat ∧
      (s6.modInst .a (fun i => { i with ch := { i.ch with csOut := [cx 1 0] } })).a.ch.csOut.length
        = s6.a.par.depth.csOut) ∧
    (unitsEnabled v.a = true ∧ v.a.cfg.coherent = true ∧ v.a.ch.vIn = [cx 1 0] ∧ v.a.vit.vbuf.length = v.a.par.c ∧
      v.a.vit.vcnt + 2 = v.a.par.c ∧
      (v.modInst .a (fun i => { i with ch := { i.ch with hb := [true] } })).a.ch.hb.length = v.a.par.depth.hb) := by decide +kernel

theorem witness_CarrierBlockCorrected :
    let s := (upCh true (fun h => { h with sIn := [cx 1 0] })).modInst .a (fun i =>
      { i with
        par := { i.par with depth := { Depths.ones with csOut := 2 } }
        cfg := { i.cfg with fftlen := 2 }
        cs := { i.cs with buf := [some (cx 3 0), none], fill := 1 } })
    let seen : List Cpx := [cx 3 0]
    unitsEnabled (s.inst .a) = true ∧ (s.inst .a).ch.sIn = [cx 1 0] ∧ (s.inst .a).cs.fill = seen.length ∧
    seen.length + 1 = (s.inst .a).cfg.fftlen.toNat ∧
    (s.inst .a).cs.buf = seen.map some ++ [(s.inst .a).cs.buf.getD seen.length none] ∧
    (s.inst .a).ch.csOut.length + (s.inst .a).cfg.fftlen.toNat = (s.inst .a).par.depth.csOut ∧
    ((s.modInst .a (fun i => { i with par := { i.par with depth := Depths.ones } })).inst .a).ch.csOut = [] := by
  decide +kernel

theorem witness_CostasStepTracks :
    let s := place (.costasStep .a) State.reset
    unitsEnabled (s.inst .a) = true ∧ (s.inst .a).cfg.coherent = true ∧ (s.inst .a).ch.csOut = [Cpx.zero] ∧
    (s.inst .a).ch.k1.length + 1 = (s.inst .a).par.depth.k1 := by decide +kernel

theorem witness_ResamplerStepEmits :
    let s := place (.rsmpStep .b) State.reset
    let i := s.inst .b
    let fs := i.cfg.sampleRate.toNat / i.cfg.decim.toNat
    let g := Nat.gcd (i.par.q * 9600) fs
    unitsEnabled i = true ∧ i.cfg.coherent = true ∧ i.ch.k1 = [Cpx.zero] ∧ 0 < fs / g ∧
    i.ch.k2.length + (i.par.q * 9600 / g - i.rsmp.nxt + fs / g - 1) / (fs / g) = i.par.depth.k2 ∧ i.ch.k2 = [] := by
  decide +kernel

theorem witness_MatchedFilterStep :
    let s := place (.mfStep .a) State.reset
    (unitsEnabled (s.inst .a) = true ∧ (s.inst .a).cfg.coherent = true ∧ (s.inst .a).ch.k2 = [Cpx.zero] ∧
      (s.inst .a).mf.ph = 0 ∧ (s.inst .a).ch.k3.length + 1 = (s.inst .a).par.depth.k3) ∧
    let t := (s.modInst .a (fun i => { i with par := { i.par with q := 2 }, mf := { i.mf with ph := 1 } })).inst .a
    t.mf.ph ≠ 0 ∧ t.ch.k3.length ≤ t.par.depth.k3 := by decide +kernel

theorem witness_InterleaverStep :
    let s := place (.ilvStep .a) State.reset
    unitsEnabled (s.inst .a) = true ∧ (s.inst .a).cfg.coherent = true ∧ (s.inst .a).ch.k3 = [[Cpx.zero]] ∧
    (s.inst .a).ch.vIn.length + [Cpx.zero].length = (s.inst .a).par.depth.vIn := by decide +kernel

/-- A decoder that holds no survivors and no metric but 0 is sound. -/
theorem viterbiInv_fresh (i : ChanInst) (hv : i.vit.vbuf.length = i.par.c) (hc : i.vit.vcnt = 0)
    (hp : i.vit.pm = List.replicate i.par.fsm.nstates (.fin (.rat 0))) (hs : i.vit.sv = []) : ViterbiInv i where
  vbuf_length := hv
  vcnt_lt := .inl hc
  vbuf_written := by rw [hc]; exact writtenBelow_zero _
  pm_length := by simp [hp]
  sv_le := by simp [hs]
  columns := by simp [hs]
  live := by
    intro hw
    have h : 0 < i.par.fsm.nstates := by
      simp [Fsm.wf] at hw; omega
    exact ⟨0, .rat 0, by simp [hp, h]⟩
  newest := by simp [hs]
  chain := by simp [hs]

/-- `VIT_TB` = 1: the first step already decides; `VIT_TB` = 2: it is the last one that does not. -/
def vitAt (tb : Nat) : State := (place (.vitStep .a) State.reset).modInst .a (fun i =>
  { i with par := { i.par with vitTb := tb } })

theorem witness_TrellisStepDecides : ∀ tb : Nat, tb = 1 ∨ tb = 2 →
    let i := (vitAt tb).inst .a
    unitsEnabled i = true ∧ i.cfg.coherent = true ∧ i.ch.vIn = [Cpx.zero] ∧ ViterbiInv i ∧ i.par.fsm.wf = true ∧
    1 ≤ i.par.vitTb ∧ i.vit.vcnt = ([] : List Cpx).length ∧ ([] : List Cpx).length + 1 = i.par.c ∧
    i.vit.vbuf.take 0 = ([] : List Cpx).map some ∧ i.ch.hb.length + 1 ≤ i.par.depth.hb ∧
    (tb = 1 → i.par.vitTb = i.vit.sv.length + 1) ∧ (tb = 2 → i.vit.sv.length + 1 < i.par.vitTb) := by
  rintro tb (rfl | rfl) <;>
    exact ⟨rfl, rfl, rfl, viterbiInv_fresh _ rfl rfl rfl rfl, rfl, by decide, rfl, rfl, rfl, by decide, by decide,
      by decide⟩

theorem witness_DiscriminatorAndFilterSteps :
    let s := place (.qdStep .a) State.reset
    let t := place (.rrcStep .b) State.reset
    (unitsEnabled (s.inst .a) = true ∧ (s.inst .a).cfg.coherent = false ∧ (s.inst .a).ch.csOut = [Cpx.zero] ∧
      (s.inst .a).ch.n1.length + 1 = (s.inst .a).par.depth.n1) ∧
    (unitsEnabled (t.inst .b) = true ∧ (t.inst .b).cfg.coherent = false ∧ (t.inst .b).ch.n1 = [.rat 0] ∧
      (t.inst .b).ch.n2.length + 1 = (t.inst .b).par.depth.n2) := by decide +kernel

theorem witness_ClockRecoveryStep :
    let s := place (.crStep .a) State.reset
    let late := s.modInst .a (fun i => { i with cr := { i.cr with t := .rat 1 } })
    (unitsEnabled (s.inst .a) = true ∧ (s.inst .a).cfg.coherent = false ∧ (s.inst .a).ch.n2 = [.rat 0] ∧
      (s.inst .a).ch.n3.length + 1 = (s.inst .a).par.depth.n3 ∧ (s.inst .a).cr.t.val < 1) ∧
    (unitsEnabled (late.inst .a) = true ∧ (late.inst .a).ch.n2 = [.rat 0] ∧
      (late.inst .a).ch.n3.length ≤ (late.inst .a).par.depth.n3 ∧ 1 ≤ (late.inst .a).cr.t.val) :=
  ⟨⟨rfl, rfl, rfl, rfl, by show (Scalar.rat 0).val < 1; simp⟩, rfl, rfl, by decide, by show 1 ≤ (Scalar.rat 1).val; simp⟩

theorem witness_TrainingCorrelatorStep :
    let s := place (.tcorrStep .a) State.reset
    unitsEnabled (s.inst .a) = true ∧ (s.inst .a).cfg.coherent = false ∧ (s.inst .a).par.hasDfe = true ∧
    (s.inst .a).ch.n3 = [.rat 0] ∧ (s.inst .a).ch.n4.length + 1 = (s.inst .a).par.depth.n4 := by decide +kernel

theorem witness_EqualizerStep :
    let s := place (.dfeStep .a) State.reset
    unitsEnabled (s.inst .a) = true ∧ (s.inst .a).cfg.coherent = false ∧ (s.inst .a).par.hasDfe = true ∧
    (s.inst .a).ch.n4 = [{ v := .rat 0, hit := false }] ∧
    (s.inst .a).ch.n5.length + 1 = (s.inst .a).par.depth.n5 := by decide +kernel

/-- The storage of the instance in the next case is sound. -/
theorem storageInv_retrain : StorageInv ((place (.dfeRetrain .a) State.reset).inst .a) := by
  constructor <;> intros <;> decide +kernel

theorem witness_EqualizerRetrain :
    let s := place (.dfeRetrain .a) State.reset
    unitsEnabled (s.inst .a) = true ∧ (s.inst .a).cfg.coherent = false ∧ (s.inst .a).par.hasDfe = true ∧
    (s.inst .a).ch.n4 = [{ v := .rat 0, hit := true }] ∧ StorageInv (s.inst .a) ∧ 1 = (s.inst .a).par.dfeNff ∧
    (s.inst .a).ch.n5.length + 1 = (s.inst .a).par.depth.n5 :=
  ⟨rfl, rfl, rfl, rfl, storageInv_retrain, rfl, rfl⟩

theorem witness_SlicerStep :
    let s := place (.sliceStep .a) State.reset
    let e := (place (.dfeStep .a) State.reset).modInst .a (fun i => { i with ch := { Channels.empty with n5 := [.rat (-1)] } })
    (unitsEnabled (s.inst .a) = true ∧ (s.inst .a).cfg.coherent = false ∧
      (s.inst .a).ch.hb.length + 1 = (s.inst .a).par.depth.hb ∧ (s.inst .a).par.hasDfe = false ∧
      (s.inst .a).ch.n3 = [.rat 0]) ∧
    (unitsEnabled (e.inst .a) = true ∧ (e.inst .a).cfg.coherent = false ∧
      (e.inst .a).ch.hb.length + 1 = (e.inst .a).par.depth.hb ∧ (e.inst .a).par.hasDfe = true ∧
      (e.inst .a).ch.n5 = [.rat (-1)]) := by decide +kernel

theorem witness_LineDecoderSteps :
    let s := place (.diffStep .a true) State.reset
    let t := place (.invStep .b false) State.reset
    (unitsEnabled (s.inst .a) = true ∧ (s.inst .a).ch.hb = [true] ∧
      (s.inst .a).ch.l1.length + 1 = (s.inst .a).par.depth.l1) ∧
    (unitsEnabled (t.inst .b) = true ∧ (t.inst .b).ch.l1 = [false] ∧
      (t.inst .b).ch.l2.length + 1 = (t.inst .b).par.depth.l2) := by decide +kernel

theorem witness_CorrelatorStep :
    let s := place (.corrStep .a true) State.reset
    unitsEnabled (s.inst .a) = true ∧ (s.inst .a).ch.l2 = [true] ∧
    (s.inst .a).ch.tb.length + 1 = (s.inst .a).par.depth.tb := by decide +kernel

theorem witness_GateDropsOutsideFrame :
    let s := place (.gateData .a true) State.reset
    let t := place (.gatePre .b false) State.reset
    (unitsEnabled (s.inst .a) = true ∧ (s.inst .a).gate.isOpen = false ∧ (s.inst .a).ch.tb = [⟨false, false, true⟩] ∧
      (s.inst .a).ch.ft.length ≤ (s.inst .a).par.depth.ft) ∧
    (unitsEnabled (t.inst .b) = true ∧ (t.inst .b).gate.isOpen = false ∧
      (t.inst .b).ch.tb = [⟨false, true, false⟩] ∧ (t.inst .b).ch.ft.length ≤ (t.inst .b).par.depth.ft) := by
  decide +kernel

/-- Channel A with a frame open and `n` bits held back. -/
def held (n : Nat) (i : Instr) : State := (place i State.reset).modInst .a (fun x =>
  { x with gate := { x.gate with isOpen := true, hbc := n, hb := List.replicate n (some true) ++ List.replicate (7 - n) none } })

theorem witness_GateHoldsBackSevenBits :
    let s (n : Nat) := held n (.gateData .a true)
    let t (n : Nat) := held n (.gatePre .a false)
    (unitsEnabled ((s 6).inst .a) = true ∧ ((s 6).inst .a).gate.isOpen = true ∧ ((s 6).inst .a).gate.hbc = 6 ∧
      ((s 6).inst .a).gate.hb.length = 7 ∧ ((s 6).inst .a).ch.tb = [⟨false, false, true⟩] ∧
      ((s 6).inst .a).ch.ft.length ≤ ((s 6).inst .a).par.depth.ft) ∧
    (((t 0).inst .a).gate.hbc < 7 ∧ ((t 0).inst .a).gate.hb.length = 7 ∧
      ((t 0).inst .a).ch.tb = [⟨false, true, false⟩]) ∧
    (((s 7).inst .a).gate.hbc = 7 ∧ ((s 7).inst .a).gate.hb = some true :: List.replicate 6 (some true) ∧
      ((s 7).inst .a).ch.ft.length + 1 = ((s 7).inst .a).par.depth.ft ∧
      ((s 7).inst .a).ch.tb = [⟨false, false, true⟩]) ∧
    (((t 7).inst .a).gate.hbc = 7 ∧ ((t 7).inst .a).ch.ft.length + 1 = ((t 7).inst .a).par.depth.ft ∧
      ((t 7).inst .a).ch.tb = [⟨false, true, false⟩]) := by decide +kernel

/-- A frame is open and the window armed: EOF and SOF need two places. -/
theorem witness_GateFlagClosesAndOpens :
    let s := (held 0 (.gateFlag .a false false)).modInst .a (fun i =>
      { i with gate := { i.gate with age := 31 }, par := { i.par with depth := { Depths.ones with ft := 2 } } })
    unitsEnabled (s.inst .a) = true ∧ (s.inst .a).ch.tb = [⟨true, false, false⟩] ∧
    min ((s.inst .a).gate.age + 1) ((s.inst .a).par.window + 1) = (s.inst .a).par.window ∧
    (s.inst .a).ch.ft.length + 2 = (s.inst .a).par.depth.ft ∧ (s.inst .a).ch.ft = [] := by decide +kernel

theorem witness_DestufferSteps :
    let s (n : Nat) (i : Instr) := (place i State.reset).modInst .a (fun x => { x with dstfOnes := n })
    (unitsEnabled ((s 5 (.dstfBit .a false)).inst .a) = true ∧ ((s 5 (.dstfBit .a false)).inst .a).dstfOnes = 5 ∧
      ((s 5 (.dstfBit .a false)).inst .a).ch.ft = [.bit false] ∧
      ((s 5 (.dstfBit .a false)).inst .a).ch.fd2.length ≤ ((s 5 (.dstfBit .a false)).inst .a).par.depth.fd2) ∧
    (((s 4 (.dstfBit .a false)).inst .a).dstfOnes ≠ 5 ∧
      ((s 4 (.dstfBit .a false)).inst .a).ch.fd2.length + 1 = ((s 4 (.dstfBit .a false)).inst .a).par.depth.fd2 ∧
      ((s 4 (.dstfBit .a false)).inst .a).ch.ft = [.bit false]) ∧
    ((s 5 (.dstfBit .a true)).inst .a).ch.ft = [.bit true] ∧ ((s 3 (.dstfSof .a)).inst .a).ch.ft = [.sof] ∧
    ((s 5 (.dstfEof .a)).inst .a).ch.ft = [.eof] := by decide +kernel

/-- Channel A with an open frame of `n` zeros in a buffer of sixteen bits. -/
def frameOfZeros (n : Nat) (ovf : Bool) (i : Instr) : State := (place i State.reset).modInst .a (fun x =>
  { x with
    par := { x.par with frameMaxBits := 16 }
    frm := { active := true, ovf := ovf, fb := List.replicate n (some false) ++ List.replicate (16 - n) none, flen := n,
             crc := crcRun crcInit (List.replicate n false) } })

theorem witness_ParserStartAndBits :
    let s (n : Nat) (o : Bool) := (frameOfZeros n o (.frmBit .a true)).inst .a
    (unitsEnabled ((place (.frmSof .a) State.reset).inst .a) = true ∧
      ((place (.frmSof .a) State.reset).inst .a).ch.fd2 = [.sof]) ∧
    (unitsEnabled (s 15 false) = true ∧ (s 15 false).ch.fd2 = [.bit true] ∧ (s 15 false).frm.active = true ∧
      (s 15 false).frm.ovf = false ∧ (s 15 false).frm.flen + 1 = (s 15 false).par.frameMaxBits ∧
      (s 15 false).frm.fb.length = (s 15 false).par.frameMaxBits) ∧
    ((s 16 false).ch.fd2 = [.bit true] ∧ (s 16 false).frm.flen = (s 16 false).par.frameMaxBits) ∧
    ((s 16 true).frm.ovf = true ∧ ((place (.frmBit .a true) State.reset).inst .a).frm.active = false) := by
  decide +kernel

theorem witness_ParserEndOfFrame :
    let s (n : Nat) (o : Bool) := (frameOfZeros n o (.frmEof .a)).inst .a
    let bits := List.replicate 16 false
    (unitsEnabled (s 16 false) = true ∧ (s 16 false).ch.fd2 = [.eof] ∧ (s 16 false).frm.active = true ∧
      (s 16 false).frm.ovf = false ∧ (s 16 false).frm.flen = bits.length ∧
      (s 16 false).frm.fb.take bits.length = bits.map some ∧ 16 = bits.length ∧ (s 16 false).frm.crc = 0xF0B8 ∧
      (s 16 false).ch.rOut.length + 1 = (s 16 false).par.depth.rOut) ∧
    ((s 15 false).ch.fd2 = [.eof] ∧ (s 15 false).frm.ovf = false ∧ (s 15 false).frm.flen + 1 = 16 ∧
      (s 15 false).ch.rOut.length ≤ (s 15 false).par.depth.rOut) ∧
    ((s 16 true).frm.ovf = true ∧ ((place (.frmEof .a) State.reset).inst .a).frm.active = false) := by decide +kernel

/-- A running instance with a sample in flight. -/
def busyInst : ChanInst := { bringUpPath true State.reset.a with ch := { Channels.empty with sIn := [cx 1 0] } }

/-- A receiver of two such instances. -/
def busy : State := { State.reset with a := busyInst, b := busyInst }

theorem busyInst_inv : InstInv busyInst where
  lifecycle := by constructor <;> intros <;> first | decide +kernel | exact absurd ‹_› (by decide +kernel)
  bits :=
    { pos_lt := by decide +kernel
      cnt_le := by decide +kernel
      age_le := by decide +kernel
      hbc_le := by decide +kernel
      hb_length := by decide +kernel
      hb_written := writtenBelow_zero _
      ones_le := by decide +kernel
      flen_le := by decide +kernel
      fb_length := by decide +kernel
      fb_written := writtenBelow_zero _
      crc_over := by decide +kernel
      ovf_active := by decide +kernel }
  carrier :=
    { fill_zero := by decide +kernel
      buf_length := fun _ => by decide +kernel
      fill_lt := fun _ => by decide +kernel
      buf_written := fun _ => writtenBelow_zero _ }
  viterbi := viterbiInv_fresh _ rfl rfl rfl rfl
  storage := by constructor <;> intros <;> decide +kernel
  records := by intro r hm; cases hm

theorem busy_inv : Inv busy where
  a := busyInst_inv
  b := busyInst_inv
  qdepth := rfl
  queued := by intro r hm; cases hm
  delivered := by intro r hm; cases hm

theorem witness_StepKeepsInvariant : ∃ s t : State, Inv s ∧ step s = .next t :=
  ⟨busy, { busy with robin := 1 }, busy_inv, rfl⟩

theorem witness_SoundReceiverStepsSafely : ∃ s : State, Inv s := ⟨busy, busy_inv⟩

theorem witness_UnitOperationsWaitUnlessEnabled :
    (unitOpChan (.corrStep .b true) = some .b ∧ (State.reset.inst .b).lc ≠ .running ∧
      (State.reset.inst .b).lc ≠ .draining) ∧
    (((up false).inst .a).cfg.coherent = false ∧
      Instr.vitStep .a ∈ [Instr.costasStep .a, .rsmpStep .a, .mfStep .a, .ilvStep .a, .vitStep .a]) ∧
    (((up true).inst .a).cfg.coherent = true ∧
      Instr.sliceStep .a ∈ [Instr.qdStep .a, .rrcStep .a, .crStep .a, .tcorrStep .a, .dfeStep .a, .dfeRetrain .a,
        .sliceStep .a]) ∧
    (((up false).inst .a).par.hasDfe = false ∧
      Instr.dfeRetrain .a ∈ [Instr.tcorrStep .a, .dfeStep .a, .dfeRetrain .a]) := by decide +kernel

/-- Every channel holds one token, which is all it has room for. -/
def full (coherent : Bool) : State := upCh coherent (fun _ =>
  { sIn := [cx 1 0], csOut := [cx 1 0], k1 := [cx 1 0], k2 := [cx 1 0], k3 := [[cx 1 0]], vIn := [cx 1 0], n1 := [.rat 1],
    n2 := [.rat 1], n3 := [.rat 1], n4 := [{ v := .rat 1, hit := false }], n5 := [.rat 1], hb := [true], l1 := [true], l2 := [true],
    tb := [⟨false, false, true⟩], ft := [.sof], fd2 := [.sof], rOut := [blankRecord] })

/-- `full` with the registers of the units whose operations emit on some tokens only at the point where they do. -/
def fullDue (i : ChanInst) : ChanInst :=
  { i with
    cs := { i.cs with buf := List.replicate 7 (some (cx 1 0)) ++ [none], fill := 7 }
    gate := { i.gate with age := 31, isOpen := true, hbc := 7, hb := List.replicate 7 (some true) }
    par := { i.par with vitTb := 1 }
    frm := { i.frm with active := true, flen := 16, crc := crcRun crcInit (List.replicate 16 false),
                        fb := List.replicate 1024 (some false) } }

theorem witness_FullChannelStallsProducer :
    let i := ((full true).modInst .a fullDue).inst .a
    let e := (place (.ilvStep .a) State.reset).inst .a
    let seen : List Cpx := List.replicate 7 (cx 1 0)
    let frame := List.replicate 16 false
    [i.ch.csOut.length, i.ch.k1.length, i.ch.k2.length, i.ch.k3.length, i.ch.vIn.length, i.ch.n1.length,
      i.ch.n2.length, i.ch.n3.length, i.ch.n4.length, i.ch.n5.length, i.ch.hb.length, i.ch.l1.length, i.ch.l2.length,
      i.ch.tb.length, i.ch.ft.length, i.ch.fd2.length, i.ch.rOut.length].all (fun n => n == 1) = true ∧
    i.par.depth = Depths.ones ∧
    (i.cs.fill = seen.length ∧ seen.length + 1 = i.cfg.fftlen.toNat ∧
      i.cs.buf = seen.map some ++ [i.cs.buf.getD seen.length none]) ∧
    (0 < rsmpM i.par i.cfg ∧
      0 < (rsmpL i.par i.cfg - i.rsmp.nxt + rsmpM i.par i.cfg - 1) / rsmpM i.par i.cfg) ∧
    i.mf.ph = 0 ∧ i.ch.k3 = [[cx 1 0]] ∧
    (e.ch.k3 = [[Cpx.zero]] ∧ unitsEnabled e = true ∧ e.cfg.coherent = true ∧ e.ch.vIn = []) ∧
    (i.par.fsm.wf = true ∧ i.par.vitTb = 1 ∧ i.vit.vcnt = 0 ∧ i.par.c = 1 ∧ i.vit.sv = []) ∧ i.cr.t = .rat 0 ∧
    (i.gate.isOpen = true ∧ i.gate.hbc = 7 ∧ i.gate.hb = some true :: List.replicate 6 (some true) ∧
      min (i.gate.age + 1) (i.par.window + 1) = i.par.window) ∧
    i.dstfOnes ≠ 5 ∧
    (i.frm.active = true ∧ i.frm.ovf = false ∧ i.frm.flen = frame.length ∧
      i.frm.fb.take frame.length = frame.map some ∧ 16 = frame.length ∧ i.frm.crc = 0xF0B8) := by decide +kernel

/-- The instant of the case before is one that gives an output. -/
theorem witness_FullChannelStallsProducer_instant : (((full true).modInst .a fullDue).inst .a).cr.t.val < 1 := by
  show (Scalar.rat 0).val < 1
  simp

/-- A part of a burst in hand: two tokens on each port whose unit may emit nothing, with room for one. -/
theorem witness_FullChannelStallsProducer_inHand :
    let i := ((upCh true (fun h => { h with
      csOut := [cx 1 0, cx 2 0], k2 := [cx 1 0, cx 2 0], k3 := [[cx 1 0], [cx 2 0]], vIn := [cx 1 0, cx 2 0],
      hb := [true, true], n3 := [.rat 1, .rat 2], ft := [.eof, .sof], fd2 := [.sof, .eof],
      rOut := [blankRecord, blankRecord] })).inst .a)
    let d := i.par.depth
    inHand d.csOut i.ch.csOut ≠ [] ∧ inHand d.k2 i.ch.k2 ≠ [] ∧ inHand d.k3 i.ch.k3 ≠ [] ∧
    inHand d.vIn i.ch.vIn ≠ [] ∧ inHand d.hb i.ch.hb ≠ [] ∧ inHand d.n3 i.ch.n3 ≠ [] ∧ inHand d.ft i.ch.ft ≠ [] ∧
    inHand d.fd2 i.ch.fd2 ≠ [] ∧ inHand d.rOut i.ch.rOut ≠ [] := by decide +kernel

/-- The decoder of the case before is sound. -/
theorem witness_FullChannelStallsProducer_viterbi : ViterbiInv (((full true).modInst .a fullDue).inst .a) :=
  viterbiInv_fresh _ rfl rfl rfl rfl

theorem witness_InstancesAreIsolated :
    (ownerChan (.csStep .a) = some .a ∧ ∃ t, exec (.csStep .a) busy = .next t) ∧
    (∃ f, exec (.csStep .a) (busy.modInst .a (fun i => { i with cs := { i.cs with buf := [] } })) = .fault f) :=
  ⟨⟨rfl, _, rfl⟩, _, rfl⟩

theorem witness_InstancesCommute :
    unitOpChan (.csStep .a) = some .a ∧ unitOpChan (.frmSof .b) = some .b ∧
    ∃ t u, exec (.csStep .a) (place (.frmSof .b) busy) = .next t ∧ exec (.frmSof .b) t = .next u :=
  ⟨rfl, rfl, _, _, rfl, rfl⟩

theorem witness_ConfigurationIsImmutable :
    ∃ t, exec (.csStep .a) busy = .next t ∧ ¬ resetsChan .a (.csStep .a) ∧
      ¬((Instr.csStep .a) = .cfgLoad .a ∧ (busy.inst .a).lc = .unconfigured) :=
  ⟨_, rfl, id, fun h => by cases h.1⟩

theorem witness_LifecycleArcs : ∃ t, exec (.sysStop .receiver) { busy with signals := [.stop .receiver] } = .next t :=
  ⟨_, rfl⟩

theorem witness_SignalStatePersists :
    ∃ t, exec (.frmSof .a) (place (.frmSof .a) busy) = .next t ∧ ¬ resetsChan .a (.frmSof .a) := ⟨_, rfl, id⟩

theorem witness_QueueIsFirstInFirstOut : ∃ t, exec (.outPush .a) (place (.outPush .a) busy) = .next t := ⟨_, rfl⟩

theorem witness_AtMostOneEvent : ∃ t, exec (.frmEof .a) (frameOfZeros 3 false (.frmEof .a)) = .next t := ⟨_, rfl⟩

theorem witness_CarrierCountLaw :
    0 < (CfgRec.reference true).fftlen.toNat ∧ Params.reference.numerics = .exact := by decide

theorem witness_RateCountLaws :
    0 < rsmpM Params.reference (CfgRec.reference true) ∧ 1 ≤ Params.reference.q := by decide

theorem witness_TrellisCountLaw :
    Params.reference.fsm.wf = true ∧ 1 ≤ Params.reference.c ∧ 1 ≤ ({ Params.reference with vitTb := 1 } : Params).vitTb := by
  decide

/-- A state with a survivor, and a metric array from which no state has one. -/
theorem witness_AddCompareSelectKeepsFirstLeast :
    Params.reference.fsm.wf = true ∧ 3 < Params.reference.fsm.nstates ∧
    (addCompareSelect Params.reference [cx 0 1] vit0.pm).2[3]? = some (some (0, false)) ∧
    (addCompareSelect Params.reference [cx 0 1] (List.replicate 4 .inf)).2[3]? = some none := by decide +kernel

theorem witness_NormalisationKeepsOrder :
    ([.inf, .fin (.rat 2), .inf] : List Metric)[1]? = some (.fin (.rat 2)) := by decide +kernel

theorem witness_LoopRegistersStayInRange :
    let p : Params := { Params.reference with costasWmax := some (.rat 1), qdGain := .value (.rat 1) }
    (∃ v out, costasOp p { theta := .rat 0, omega := .rat 0 } (cx 1 0) = .ok (v, out)) ∧
    (p.costasWmax = some (.rat 1) ∧ 0 < (Scalar.rat 1).val ∧ p.numerics = .exact) ∧
    (∃ v out, crOp p (CfgRec.reference false)
      { prevIn := .rat 0, t := .rat 0, omega := .rat 5, lastOut := .rat 0 } (.rat 1) = .ok (v, out)) ∧
    (omLo p (CfgRec.reference false)).val ≤ (Scalar.rat 5).val ∧
    (Scalar.rat 5).val ≤ (omHi p (CfgRec.reference false)).val ∧ 0 ≤ (Scalar.rat 0).val ∧
    (∃ v out, qdOp p (CfgRec.reference false) Cpx.zero (cx 1 0) = .ok (v, out)) ∧
    0 < (qdGainOf p (CfgRec.reference false)).val ∧
    0 < fsOf (CfgRec.reference false) ∧ 7 < (CfgRec.reference false).fftlen.toNat := by
  have hl : omLo Params.reference (CfgRec.reference false) = .rat 5 := by decide +kernel
  have hh : omHi Params.reference (CfgRec.reference false) = .rat 5 := by decide +kernel
  refine ⟨⟨_, _, rfl⟩, ⟨rfl, by simp, rfl⟩, ⟨_, _, rfl⟩, (congrArg Scalar.val hl).le, (congrArg Scalar.val hh).ge,
    by simp, ⟨_, _, rfl⟩, ?_, ?_, ?_⟩
  · show 0 < (Scalar.rat 1).val
    simp
  · decide +kernel
  · decide +kernel

theorem witness_LineDecoderIgnoresPolarity : ∃ x z : List Bool, lineDecode false x = .ok z := ⟨[true, false], _, rfl⟩

/-- The armed gate at the last age that opens, with a frame shorter than the hold-back line. -/
theorem witness_GateForwardsFrameBits :
    let u : GateRegs := { gate0 with age := 31 }
    u.hb.length = 7 ∧ min (u.age + 1) (Params.reference.window + 1) ≤ Params.reference.window ∧
    ∀ t ∈ ([⟨false, false, true⟩] : List T3), t.f = false := by decide +kernel

/-- The two sides of the window, W bits and W + 1 bits after the preamble tag. -/
theorem witness_GateWindowBoundary :
    gate0.isOpen = false ∧ (List.replicate 31 true).length + 1 ≤ Params.reference.window ∧
    ¬((List.replicate 32 true).length + 1 ≤ Params.reference.window) := by decide +kernel

theorem witness_CrcAcceptsExactlyTheTrailer :
    16 ≤ (List.replicate 16 false).length ∧ (List.replicate 15 false).length < 16 := by decide +kernel

theorem witness_SingleBitErrorRejected :
    15 < (List.replicate 16 false).length ∧
    crcAccepts (List.replicate 16 false).length (crcRun crcInit (List.replicate 16 false)) = true := by decide +kernel

end Sys2Proof.Tests
end

section
/-! SUPPORT. What stands at an agent's trigger and what a step makes of it (00_scope.md R9, 30_encoding.md R100): a word
built by `opWord` decodes to what its trigger and token select, so every fetched word names an operation of its agent. -/

namespace Sys2Proof.Proofs.Scope

open Sys2Proof Sys2Proof.Machine

/-! ### Words and tokens -/

/-- The bits of byte 1 give back the trigger and the target they were made of. -/
theorem opWord_selector (tr : Trigger) (t : Target) :
    let sel : Byte := BitVec.ofNat 8 (tr.code + 64 * t.code)
    sel.getLsbD 5 = false ∧ triggerOfCode (sel.toNat % 32) = some tr ∧ targetOfCode (sel.toNat / 64) = some t := by
  rcases t with (_ | _) | _ <;> cases tr <;> decide

/-- The word of a trigger decodes to the operation that the trigger and the token select (R100). -/
theorem decode_opWord {tr : Trigger} {t : Target} {w : Byte} {i : Instr} (h : selectOp tr t w = .ok i) :
    decode (opWord tr t w) = .ok (i, []) := by
  obtain ⟨hres, htr, ht⟩ := opWord_selector tr t
  simp only [opWord, decode, hres, htr, ht, h, Bool.false_eq_true, if_false]

@[simp] theorem byteBit_bitByte (b : Bool) : byteBit (bitByte b) = some b := by cases b <;> rfl

@[simp] theorem byteT3_t3Byte (t : T3) : byteT3 (t3Byte t) = some t := by
  obtain ⟨f, p, b⟩ := t
  cases f <;> cases p <;> cases b <;> rfl

@[simp] theorem byteFT2_ft2Byte (t : FT2) : byteFT2 (ft2Byte t) = some t := by
  rcases t with (_ | _) | _ | _ <;> rfl

/-- Either hit bit selects an operation of DFE. -/
@[simp] theorem turnOf_selectDfe (c : Chan) (hit : Bool) : turnOf (selectDfe c hit) = .unit c .dfe := by
  cases hit <;> rfl

/-- Whatever its tag bits, a tagged bit selects an operation of GATE (R115(a)). -/
@[simp] theorem turnOf_selectGate (c : Chan) (t : T3) : turnOf (selectGate c t) = .unit c .gate := by
  unfold selectGate
  split
  · rfl
  · split <;> rfl

/-- Every frame token on FT selects an operation of DSTF. -/
@[simp] theorem turnOf_selectDstf (c : Chan) (t : FT2) : turnOf (selectDstf c t) = .unit c .dstf := by
  cases t <;> rfl

/-- Every frame token on FD2 selects an operation of FRM. -/
@[simp] theorem turnOf_selectFrm (c : Chan) (t : FT2) : turnOf (selectFrm c t) = .unit c .frm := by
  cases t <;> rfl

/-! ### The word at a trigger names an operation of the agent -/

/-- The word is one complete operation word, of an operation that the agent performs. -/
def NamesOperationOf (t : Turn) (w : List Byte) : Prop := ∃ i : Instr, decode w = .ok (i, []) ∧ turnOf i = t

theorem namesOperationOf_opWord {t : Turn} {tr : Trigger} {g : Target} {b : Byte} (i : Instr)
    (hsel : selectOp tr g b = .ok i) (hturn : turnOf i = t) : NamesOperationOf t (opWord tr g b) :=
  ⟨i, decode_opWord hsel, hturn⟩

/-- The word of a channel's head token, when every token of the channel selects an operation of the agent. -/
theorem namesOperationOf_headWord {τ : Type} {t : Turn} {tr : Trigger} {c : Chan} {bits : τ → Byte} {l : List τ}
    {w : List Byte} (mk : τ → Instr) (hsel : ∀ x, selectOp tr (.chan c) (bits x) = .ok (mk x))
    (hturn : ∀ x, turnOf (mk x) = t) (h : headWord tr c bits l = some w) : NamesOperationOf t w := by
  cases l with
  | nil => cases h
  | cons x rest =>
    cases h
    exact namesOperationOf_opWord (mk x) (hsel x) (hturn x)

/-- The word of a channel of numbers, whose tokens all select the one operation of its unit. -/
theorem namesOperationOf_numberWord {τ : Type} {t : Turn} {tr : Trigger} {c : Chan} {l : List τ} {w : List Byte}
    (i : Instr) (hsel : selectOp tr (.chan c) 0 = .ok i) (hturn : turnOf i = t)
    (h : headWord tr c (fun _ => 0) l = some w) : NamesOperationOf t w :=
  namesOperationOf_headWord (fun _ => i) (fun _ => hsel) (fun _ => hturn) h

/-- A unit's input port holds an operation of that unit, whichever token stands there (R114, R316). -/
theorem namesOperationOf_unitWord {c : Chan} {i : ChanInst} {u : UnitId} {w : List Byte}
    (h : unitWord c i u = some w) : NamesOperationOf (.unit c u) w := by
  cases u <;> simp only [unitWord] at h
  case cs => exact namesOperationOf_numberWord (.csStep c) rfl rfl h
  case costas =>
    split at h
    · exact namesOperationOf_numberWord (.costasStep c) rfl rfl h
    · cases h
  case rsmp => exact namesOperationOf_numberWord (.rsmpStep c) rfl rfl h
  case mf => exact namesOperationOf_numberWord (.mfStep c) rfl rfl h
  case ilv => exact namesOperationOf_numberWord (.ilvStep c) rfl rfl h
  case vit => exact namesOperationOf_numberWord (.vitStep c) rfl rfl h
  case qd =>
    split at h
    · cases h
    · exact namesOperationOf_numberWord (.qdStep c) rfl rfl h
  case rrc => exact namesOperationOf_numberWord (.rrcStep c) rfl rfl h
  case cr => exact namesOperationOf_numberWord (.crStep c) rfl rfl h
  case tcorr =>
    split at h
    · exact namesOperationOf_numberWord (.tcorrStep c) rfl rfl h
    · cases h
  case dfe =>
    exact namesOperationOf_headWord (fun t => selectDfe c t.hit) (fun t => by simp [selectOp, onToken, onChan])
      (fun t => turnOf_selectDfe c t.hit) h
  case slice =>
    split at h <;> exact namesOperationOf_numberWord (.sliceStep c) rfl rfl h
  case diff =>
    exact namesOperationOf_headWord (.diffStep c) (fun b => by simp [selectOp, onToken, onChan]) (fun _ => rfl) h
  case inv =>
    exact namesOperationOf_headWord (.invStep c) (fun b => by simp [selectOp, onToken, onChan]) (fun _ => rfl) h
  case corr =>
    exact namesOperationOf_headWord (.corrStep c) (fun b => by simp [selectOp, onToken, onChan]) (fun _ => rfl) h
  case gate =>
    exact namesOperationOf_headWord (selectGate c) (fun t => by simp [selectOp, onToken, onChan])
      (turnOf_selectGate c) h
  case dstf =>
    exact namesOperationOf_headWord (selectDstf c) (fun t => by simp [selectOp, onToken, onChan])
      (turnOf_selectDstf c) h
  case frm =>
    exact namesOperationOf_headWord (selectFrm c) (fun t => by simp [selectOp, onToken, onChan])
      (turnOf_selectFrm c) h
  case out => exact namesOperationOf_numberWord (.outPush c) rfl rfl h
  case drain =>
    split at h
    · cases h
      exact namesOperationOf_opWord (.sysDrained c) rfl rfl
    · cases h

/-- Every host signal selects an operation of the controller (R115). -/
theorem namesOperationOf_signalWord (g : Signal) : NamesOperationOf .controller (signalWord g) := by
  cases g with
  | reset t => exact namesOperationOf_opWord (.sysReset t) rfl rfl
  | load c r => exact namesOperationOf_opWord (.cfgLoad c) rfl rfl
  | start t => exact namesOperationOf_opWord (.sysStart t) rfl rfl
  | stop t => exact namesOperationOf_opWord (.sysStop t) rfl rfl
  | eos t => exact namesOperationOf_opWord (.srcEos t) rfl rfl

/-- Both requests select an operation of the consumer (R321). -/
theorem namesOperationOf_requestWord (r : ConsumerReq) : NamesOperationOf .consumer (requestWord r) := by
  cases r with
  | pop => exact namesOperationOf_opWord .qPop rfl rfl
  | empty => exact namesOperationOf_opWord .qEmpty rfl rfl

/-- Settles O3, agent by agent: the word is built by `opWord` from the agent's own trigger, and `decode` reads it back
to what the token selects there. -/
theorem agentFetchesItsOwnOperation : Obligations.AgentFetchesItsOwnOperation := by
  intro t s w h
  show NamesOperationOf t w
  cases t with
  | unit c u => exact namesOperationOf_unitWord h
  | controller =>
    obtain ⟨g, _, rfl⟩ := Option.map_eq_some_iff.1 h
    exact namesOperationOf_signalWord g
  | source c => exact namesOperationOf_numberWord (.srcSample c) rfl rfl h
  | withdraw c => cases h
  | consumer =>
    obtain ⟨r, _, rfl⟩ := Option.map_eq_some_iff.1 h
    exact namesOperationOf_requestWord r

/-! ### One step -/

/-- A step is the move of the agent whose turn it is, on the state with the turn used up. -/
theorem step_eq_runTurn {s u : State} {t : Turn} (h : nextTurn s = (t, u)) : step s = runTurn t u := by
  simp [step, h]

/-- An agent with a word at its trigger performs the operation the word decodes to. -/
theorem runTurn_of_decode {t : Turn} {u : State} {w rest : List Byte} {i : Instr} (hf : fetch t u = some w)
    (hd : decode w = .ok (i, rest)) : runTurn t u = exec i u := by
  simp [runTurn, hf, hd]

/-- An agent without a trigger performs no operation. -/
theorem runTurn_of_no_word {t : Turn} {u : State} (hf : fetch t u = none) : runTurn t u = .next (idleTurn t u) := by
  simp [runTurn, hf]

/-- Settles O2: a step is `runTurn` on the used-up turn, in its two cases. -/
theorem stepRunsDecodedOperation : Obligations.StepRunsDecodedOperation := by
  refine ⟨fun s u t w rest i hn hf hd => ?_, fun s u t hn hf => ?_⟩
  · rw [step_eq_runTurn hn, runTurn_of_decode hf hd]
  · rw [step_eq_runTurn hn, runTurn_of_no_word hf]
    cases t <;> rfl

end Sys2Proof.Proofs.Scope
end

section
/-! SUPPORT. The two instances share nothing but the queue (48_system_ops.md R362, 60_exceptions.md R364): a change of the
receiver that leaves an instance alone commutes with every step of that instance, and OUT.PUSH is such a change for the
instance it does not push from. -/

namespace Sys2Proof.Proofs.Scope

open Sys2Proof Sys2Proof.Machine

/-! ### Changes that leave an instance alone -/

/-- A change of the receiver that neither reads nor writes instance `d`. -/
structure LeavesInst (d : Chan) (k : State → State) : Prop where
  inst_eq (s : State) : (k s).inst d = s.inst d
  setInst_eq (s : State) (x : ChanInst) : k (s.setInst d x) = (k s).setInst d x

/-- Writing one instance leaves the other. -/
theorem leavesInst_setInst {c d : Chan} (h : d ≠ c) (x : ChanInst) : LeavesInst d (fun s => s.setInst c x) where
  inst_eq s := inst_setInst_of_ne s c d x h
  setInst_eq s y := setInst_comm s d c y x h.symm

/-- Changing nothing leaves every instance. -/
theorem leavesInst_id (d : Chan) : LeavesInst d id := ⟨fun _ => rfl, fun _ _ => rfl⟩

variable {d : Chan} {k : State → State} {g : ChanInst → Fire ChanInst} {s t u : State}

/-- A step of an instance is the same step after a change that leaves the instance. -/
theorem onInst_after (hk : LeavesInst d k) (h : onInst d g s = .next t) : onInst d g (k s) = .next (k t) := by
  rcases onInst_next h with ⟨hw, rfl⟩ | ⟨x, hx, rfl⟩
  · exact onInst_wait (by rw [hk.inst_eq, hw])
  · rw [hk.setInst_eq]
    exact onInst_done (by rw [hk.inst_eq, hx])

/-- A step of an instance after a change that leaves the instance is the same step before it. -/
theorem onInst_before (hk : LeavesInst d k) (h : onInst d g (k s) = .next u) :
    ∃ t, onInst d g s = .next t ∧ u = k t := by
  rcases onInst_next h with ⟨hw, rfl⟩ | ⟨x, hx, rfl⟩
  · exact ⟨s, onInst_wait (by rw [← hk.inst_eq, hw]), rfl⟩
  · exact ⟨s.setInst d x, onInst_done (by rw [← hk.inst_eq, hx]), (hk.setInst_eq s x).symm⟩

/-! ### OUT.PUSH as a change -/

/-- The receiver after OUT.PUSH (R293), which always answers a next state. -/
def afterPush (c : Chan) (s : State) : State :=
  match (s.inst c).ch.rOut with
  | [] => s
  | r :: rest =>
    if unitsEnabled (s.inst c) && queueHasRoom s then
      { s with q := s.q ++ [r] }.setInst c { s.inst c with ch := { (s.inst c).ch with rOut := rest } }
    else s

theorem exec_outPush (c : Chan) (s : State) : exec (.outPush c) s = .next (afterPush c s) := by
  cases hr : (s.inst c).ch.rOut with
  | nil => simp only [exec, execOutPush, afterPush, hr]
  | cons r rest =>
    simp only [exec, execOutPush, afterPush, hr]
    split <;> rfl

theorem queueHasRoom_setInst (s : State) (c : Chan) (x : ChanInst) :
    queueHasRoom (s.setInst c x) = queueHasRoom s := by
  simp [queueHasRoom]

/-- A write of the queue and a write of an instance commute. -/
theorem setInst_with_q (s : State) (c : Chan) (x : ChanInst) (q : List Rec) :
    ({ s.setInst c x with q := q } : State) = { s with q := q }.setInst c x := by
  cases c <;> rfl

/-- OUT.PUSH of one instance leaves the other. -/
theorem leavesInst_afterPush {c d : Chan} (h : d ≠ c) : LeavesInst d (afterPush c) where
  inst_eq s := by
    unfold afterPush
    split
    · rfl
    · split
      · rw [inst_setInst_of_ne _ _ _ _ h, q_inst]
      · rfl
  setInst_eq s x := by
    simp only [afterPush, inst_setInst_of_ne s d c x h.symm, queueHasRoom_setInst, setInst_q, setInst_with_q]
    split
    · rfl
    · split
      · exact setInst_comm _ _ _ _ _ h.symm
      · rfl

/-! ### Unit operations -/

/-- Every unit operation but OUT.PUSH is a firing of its own instance. -/
theorem exec_unit_eq_onInst {op : Instr} {c : Chan} (hc : unitOpChan op = some c) (hp : op ≠ .outPush c) :
    ∃ f, ∀ s, exec op s = onInst c f s := by
  cases op <;> simp only [unitOpChan, Option.some.injEq, reduceCtorEq] at hc <;> subst hc
  case outPush => exact absurd rfl hp
  all_goals exact ⟨_, fun _ => rfl⟩

/-- A next state of a firing is a change that leaves the other instances, and the change is the same in every state with
the same instance. -/
theorem onInst_next_change {c d : Chan} {f : ChanInst → Fire ChanInst} {s t : State} (hd : d ≠ c)
    (h : onInst c f s = .next t) :
    ∃ k, LeavesInst d k ∧ t = k s ∧ ∀ s', s'.inst c = s.inst c → onInst c f s' = .next (k s') := by
  rcases onInst_next h with ⟨hw, rfl⟩ | ⟨x, hx, rfl⟩
  · exact ⟨id, leavesInst_id d, rfl, fun s' hs => onInst_wait (by rw [hs, hw])⟩
  · exact ⟨_, leavesInst_setInst hd x, rfl, fun s' hs => onInst_done (by rw [hs, hx])⟩

/-- Firings of different instances commute. -/
theorem onInst_comm {c d : Chan} {f g : ChanInst → Fire ChanInst} {s t u : State} (hd : d ≠ c)
    (hf : onInst c f s = .next t) (hg : onInst d g t = .next u) :
    ∃ t', onInst d g s = .next t' ∧ onInst c f t' = .next u := by
  obtain ⟨k, hk, rfl, hsame⟩ := onInst_next_change hd hf
  obtain ⟨t', hg', rfl⟩ := onInst_before hk hg
  obtain ⟨k', hk', rfl, -⟩ := onInst_next_change hd.symm hg'
  exact ⟨_, hg', hsame _ (hk'.inst_eq s)⟩

/-- Settles O41: two firings commute, and OUT.PUSH is a change that leaves the other instance, so it commutes with every
firing of that instance on either side. -/
theorem instancesCommute : Obligations.InstancesCommute := by
  intro i j s t u hi hj hboth hs ht
  by_cases hpi : i = .outPush .a
  · obtain ⟨g, hg⟩ := exec_unit_eq_onInst hj (fun hpj => hboth ⟨hpi, hpj⟩)
    subst hpi
    simp only [exec_outPush, Host.Outcome.next.injEq, hg] at hs ht ⊢
    subst hs
    obtain ⟨t', ht', hu⟩ := onInst_before (leavesInst_afterPush (by decide)) ht
    exact ⟨t', ht', hu.symm⟩
  · obtain ⟨f, hf⟩ := exec_unit_eq_onInst hi hpi
    by_cases hpj : j = .outPush .b
    · subst hpj
      simp only [exec_outPush, Host.Outcome.next.injEq, hf] at hs ht ⊢
      subst ht
      exact ⟨_, rfl, onInst_after (leavesInst_afterPush (by decide)) hs⟩
    · obtain ⟨g, hg⟩ := exec_unit_eq_onInst hj hpj
      rw [hf] at hs
      rw [hg] at ht
      simp only [hf, hg]
      exact onInst_comm (by decide) hs ht

end Sys2Proof.Proofs.Scope
end

section
/-! SUPPORT. Why the sequence decoder's traceback meets a survivor at every column (42_viterbi.md R197): the states with a
finite metric are those with a survivor, add-compare-select gives some state a finite metric, the best state has one, and
the survivor columns are chained. -/

namespace Sys2Proof.Proofs.Viterbi

open Sys2Proof Sys2Proof.Machine

/-! ### Metrics -/

/-- State `s` has a finite metric. -/
def FiniteAt (l : List Metric) (s : Nat) : Prop := ∃ v, l[s]? = some (.fin v)

theorem FiniteAt.lt_length {l : List Metric} {s : Nat} (h : FiniteAt l s) : s < l.length := by
  obtain ⟨v, hv⟩ := h
  exact (List.getElem?_eq_some_iff.1 hv).1

/-- What beats another metric is finite. -/
theorem metricLt_left_fin {x y : Metric} (h : metricLt x y = true) : ∃ v, x = .fin v := by
  cases x with
  | fin v => exact ⟨v, rfl⟩
  | inf => cases h

theorem metricLt_irrefl (x : Metric) : metricLt x x = false := by
  cases x with
  | fin v => simp [metricLt, Scalar.lt_false_iff]
  | inf => rfl

theorem metricLt_trans {x y z : Metric} (hxy : metricLt x y = true) (hyz : metricLt y z = true) :
    metricLt x z = true := by
  obtain ⟨a, rfl⟩ := metricLt_left_fin hxy
  obtain ⟨b, rfl⟩ := metricLt_left_fin hyz
  cases z with
  | inf => rfl
  | fin c => exact (Scalar.lt_iff a c).2 (((Scalar.lt_iff a b).1 hxy).trans ((Scalar.lt_iff b c).1 hyz))

/-- Adding a branch metric to `+inf` gives `+inf`, so a finite sum has a finite first part. -/
theorem finiteAt_of_metricAdd {n : Numerics} {l : List Metric} {s : Nat} {b v : Scalar}
    (h : metricAdd n (l.getD s .inf) b = .fin v) : FiniteAt l s := by
  rw [List.getD_eq_getElem?_getD] at h
  match hs : l[s]? with
  | some (.fin w) => exact ⟨w, hs⟩
  | some .inf => simp [hs, metricAdd] at h
  | none => simp [hs, metricAdd] at h

/-- Normalisation keeps which states have a finite metric (R195). -/
theorem finiteAt_normalise (n : Numerics) (l : List Metric) (s : Nat) : FiniteAt (normalise n l) s ↔ FiniteAt l s := by
  simp only [FiniteAt, normalise, List.getElem?_map, Option.map_eq_some_iff]
  constructor
  · rintro ⟨v, m, hm, hv⟩
    cases m with
    | fin w => exact ⟨w, hm⟩
    | inf => simp [metricSub] at hv
  · rintro ⟨v, hv⟩
    generalize l.getD (argminMetric l) .inf = least
    cases least with
    | fin w => exact ⟨_, _, hv, rfl⟩
    | inf => exact ⟨_, _, hv, rfl⟩

/-! ### The best index -/

variable {α : Type} {better : α → α → Bool}

/-- The scan of `bestIndex` past the elements `pre`, of which none beats the best one found, ends at an element that none
of the whole list beats. -/
theorem bestIndex_go_spec (hirr : ∀ x, better x x = false)
    (htr : ∀ x y z, better x y = true → better y z = true → better x z = true)
    (rest pre : List α) (best : α) (j : Nat) (hj : pre[j]? = some best) (hbest : ∀ x ∈ pre, better x best = false) :
    ∃ b, (pre ++ rest)[bestIndex.go better best j pre.length rest]? = some b ∧
      ∀ x ∈ pre ++ rest, better x b = false := by
  induction rest generalizing pre best j with
  | nil => exact ⟨best, by simpa [bestIndex.go] using hj, by simpa using hbest⟩
  | cons y rest ih =>
    have hsplit : pre ++ y :: rest = (pre ++ [y]) ++ rest := by simp
    have hlen : pre.length + 1 = (pre ++ [y]).length := by simp
    rw [hsplit, bestIndex.go, hlen]
    split
    case isTrue hy =>
      refine ih (pre ++ [y]) y pre.length (by simp) fun x hx => ?_
      rcases List.mem_append.1 hx with hx | hx
      · by_contra hxy
        have := htr x y best (by simpa using hxy) hy
        simp [hbest x hx] at this
      · rw [List.mem_singleton.1 hx, hirr]
    case isFalse hy =>
      have hjl : j < pre.length := (List.getElem?_eq_some_iff.1 hj).1
      refine ih (pre ++ [y]) best j (by rw [List.getElem?_append_left hjl, hj]) fun x hx => ?_
      rcases List.mem_append.1 hx with hx | hx
      · exact hbest x hx
      · rw [List.mem_singleton.1 hx]
        simpa using hy

/-- `bestIndex` of a list that is not empty is the index of an element that none beats (R13). -/
theorem bestIndex_spec (hirr : ∀ x, better x x = false)
    (htr : ∀ x y z, better x y = true → better y z = true → better x z = true) {l : List α} (hl : l ≠ []) :
    ∃ b, l[bestIndex better l]? = some b ∧ ∀ x ∈ l, better x b = false := by
  cases l with
  | nil => exact absurd rfl hl
  | cons y rest => exact bestIndex_go_spec hirr htr rest [y] y 0 rfl (by simp [hirr])

/-- The best state has a finite metric when any state has (R197). -/
theorem finiteAt_argminMetric {l : List Metric} {s : Nat} (h : FiniteAt l s) : FiniteAt l (argminMetric l) := by
  obtain ⟨v, hv⟩ := h
  have hmem : Metric.fin v ∈ l := List.mem_of_getElem? hv
  obtain ⟨b, hb, hleast⟩ := bestIndex_spec metricLt_irrefl (fun _ _ _ => metricLt_trans) (List.ne_nil_of_mem hmem)
  cases b with
  | fin w => exact ⟨w, hb⟩
  | inf => exact absurd (hleast _ hmem) (by simp [metricLt])

/-! ### Add-compare-select -/

/-- New metrics and survivors `acc` made from the metrics `pm`: as many of each as there are states, a survivor wherever
the new metric is finite, and every survivor from a state of finite metric. -/
structure SurvivorsOf (pm : List Metric) (n : Nat) (acc : List Metric × Column) : Prop where
  metrics_length : acc.1.length = n
  column_length : acc.2.length = n
  defined : ∀ s, FiniteAt acc.1 s → ∃ e, acc.2[s]? = some (some e)
  origin : ∀ (s : Nat) (e : Nat × Bool), acc.2[s]? = some (some e) → FiniteAt pm e.1

/-- Before any candidate every metric is infinite and no state has a survivor. -/
theorem survivorsOf_initial (pm : List Metric) (n : Nat) :
    SurvivorsOf pm n (List.replicate n .inf, List.replicate n none) where
  metrics_length := List.length_replicate
  column_length := List.length_replicate
  defined s h := by
    obtain ⟨v, hv⟩ := h
    simp [List.getElem?_replicate] at hv
  origin s e h := by simp [List.getElem?_replicate] at h

variable {p : Params} {r : List Cpx} {pm : List Metric} {acc : List Metric × Column} {br : Nat × Bool} {n s : Nat}

/-- All a candidate can do (R192, R194): one that is not better changes nothing; a better one is finite and takes the next
state. -/
theorem acsStep_cases (p : Params) (r : List Cpx) (pm : List Metric) (acc : List Metric × Column) (br : Nat × Bool) :
    let cand := metricAdd p.numerics (pm.getD br.1 .inf) (branchMetric p r br.1 br.2)
    let sp := nextState p.fsm br.1 br.2
    (metricLt cand (acc.1.getD sp .inf) = false ∧ acsStep p r pm acc br = acc) ∨
      ∃ v, cand = .fin v ∧ acsStep p r pm acc br = (acc.1.set sp (.fin v), acc.2.set sp (some br)) := by
  intro cand sp
  by_cases h : metricLt cand (acc.1.getD sp .inf) = true
  · obtain ⟨v, hv⟩ := metricLt_left_fin h
    exact .inr ⟨v, hv, by rw [← hv]; exact if_pos h⟩
  · exact .inl ⟨by simpa using h, if_neg h⟩

theorem survivorsOf_acsStep (h : SurvivorsOf pm n acc) : SurvivorsOf pm n (acsStep p r pm acc br) := by
  rcases acsStep_cases p r pm acc br with ⟨-, he⟩ | ⟨v, hv, he⟩ <;> rw [he]
  · exact h
  · generalize nextState p.fsm br.1 br.2 = sp
    refine ⟨by simp [h.metrics_length], by simp [h.column_length], fun s hs => ?_, fun s e hs => ?_⟩
    · have hlen : s < acc.2.length := by
        simpa [h.column_length, h.metrics_length] using hs.lt_length
      by_cases hsp : sp = s
      · exact ⟨br, by simp [hsp, hlen]⟩
      · simp only [FiniteAt, List.getElem?_set_ne hsp] at hs ⊢
        exact h.defined s hs
    · by_cases hsp : sp = s
      · subst hsp
        have hlen : sp < acc.2.length := by simpa using (List.getElem?_eq_some_iff.1 hs).1
        simp only [List.getElem?_set_self hlen, Option.some.injEq] at hs
        exact hs ▸ finiteAt_of_metricAdd hv
      · rw [List.getElem?_set_ne hsp] at hs
        exact h.origin s e hs

/-- A metric once finite stays finite. -/
theorem finiteAt_acsStep (h : FiniteAt acc.1 s) : FiniteAt (acsStep p r pm acc br).1 s := by
  rcases acsStep_cases p r pm acc br with ⟨-, he⟩ | ⟨v, -, he⟩ <;> rw [he]
  · exact h
  · by_cases hsp : nextState p.fsm br.1 br.2 = s
    · exact ⟨v, by simp [hsp, h.lt_length]⟩
    · obtain ⟨w, hw⟩ := h
      exact ⟨w, by rw [List.getElem?_set_ne hsp, hw]⟩

/-- A branch from a state of finite metric makes the metric of the state it leads to finite. -/
theorem finiteAt_acsStep_next (h : FiniteAt pm br.1) (hsp : nextState p.fsm br.1 br.2 < acc.1.length) :
    FiniteAt (acsStep p r pm acc br).1 (nextState p.fsm br.1 br.2) := by
  obtain ⟨w, hw⟩ := h
  rcases acsStep_cases p r pm acc br with ⟨hlt, he⟩ | ⟨v, -, he⟩ <;> rw [he]
  · have hcur := List.getElem?_eq_getElem hsp
    simp only [List.getD_eq_getElem?_getD, hw, hcur, Option.getD_some, metricAdd] at hlt
    generalize acc.1[nextState p.fsm br.1 br.2] = m at hlt hcur
    cases m with
    | fin x => exact ⟨x, hcur⟩
    | inf => simp [metricLt] at hlt
  · exact ⟨v, by simp [hsp]⟩

theorem survivorsOf_foldl (l : List (Nat × Bool)) (h : SurvivorsOf pm n acc) :
    SurvivorsOf pm n (l.foldl (acsStep p r pm) acc) := by
  induction l generalizing acc with
  | nil => exact h
  | cons br l ih => exact ih (survivorsOf_acsStep h)

theorem finiteAt_foldl (l : List (Nat × Bool)) (h : FiniteAt acc.1 s) :
    FiniteAt (l.foldl (acsStep p r pm) acc).1 s := by
  induction l generalizing acc with
  | nil => exact h
  | cons br l ih => exact ih (finiteAt_acsStep h)

/-- Add-compare-select gives a survivor wherever it gives a finite metric. -/
theorem survivorsOf_addCompareSelect (p : Params) (r : List Cpx) (pm : List Metric) :
    SurvivorsOf pm p.fsm.nstates (addCompareSelect p r pm) :=
  survivorsOf_foldl _ (survivorsOf_initial pm _)

/-- A next state of a sound trellis is a state (R191). -/
theorem nextState_lt {f : Fsm} (hf : f.wf = true) {s : Nat} (hs : s < f.nstates) (b : Bool) :
    nextState f s b < f.nstates := by
  simp only [Fsm.wf, Bool.and_eq_true, beq_iff_eq, decide_eq_true_eq, List.all_eq_true] at hf
  obtain ⟨⟨⟨⟨-, hlen⟩, -⟩, hns⟩, -⟩ := hf
  have hs' : s < f.ns.length := hlen ▸ hs
  obtain ⟨h1, h2⟩ := hns f.ns[s] (List.getElem_mem hs')
  simp only [nextState, List.getD_eq_getElem?_getD, List.getElem?_eq_getElem hs', Option.getD_some]
  split
  · exact h2
  · exact h1

/-- Add-compare-select keeps the decoder alive: from a state of finite metric some state gets a finite metric. -/
theorem finiteAt_addCompareSelect (hf : p.fsm.wf = true) (hs : s < p.fsm.nstates) (h : FiniteAt pm s) :
    FiniteAt (addCompareSelect p r pm).1 (nextState p.fsm s false) := by
  have hmem : (s, false) ∈ branchList p.fsm.nstates := by simp [branchList, hs]
  obtain ⟨before, after, hl⟩ := List.append_of_mem hmem
  rw [addCompareSelect, hl, List.foldl_append, List.foldl_cons]
  apply finiteAt_foldl
  apply finiteAt_acsStep_next h
  rw [(survivorsOf_foldl before (survivorsOf_initial pm _)).metrics_length]
  exact nextState_lt hf hs false

/-! ### Survivor memory -/

/-- Every survivor's state has a survivor in the column before (`ViterbiInv.chain`). -/
def Chained (sv : List Column) : Prop :=
  ∀ (k : Nat) (older newer : Column), sv[k]? = some older → sv[k + 1]? = some newer →
    ∀ (s : Nat) (e : Nat × Bool), newer[s]? = some (some e) → ∃ e', older[e.1]? = some (some e')

theorem Chained.drop {sv : List Column} (h : Chained sv) (m : Nat) : Chained (sv.drop m) := by
  intro k older newer ho hn
  rw [List.getElem?_drop] at ho hn
  exact h (m + k) older newer ho hn

theorem Chained.of_append_singleton {sv : List Column} {col : Column} (h : Chained (sv ++ [col])) : Chained sv := by
  intro k older newer ho hn
  have hk := (List.getElem?_eq_some_iff.1 hn).1
  exact h k older newer (by rw [List.getElem?_append_left (by omega), ho]) (by rw [List.getElem?_append_left hk, hn])

/-- One more column, whose survivors come from states with a survivor in the newest one. -/
theorem Chained.append_singleton {sv : List Column} {col : Column} (h : Chained sv)
    (hcol : ∀ older, sv.getLast? = some older → ∀ (s : Nat) (e : Nat × Bool), col[s]? = some (some e) →
      ∃ e', older[e.1]? = some (some e')) : Chained (sv ++ [col]) := by
  intro k older newer ho hn
  have hk : k + 1 < (sv ++ [col]).length := (List.getElem?_eq_some_iff.1 hn).1
  rw [List.length_append, List.length_singleton] at hk
  rw [List.getElem?_append_left (by omega)] at ho
  by_cases hlast : k + 1 = sv.length
  · rw [hlast] at hn
    obtain rfl : col = newer := by simpa using hn
    exact hcol older (by rw [List.getLast?_eq_getElem?, ← hlast]; exact ho)
  · rw [List.getElem?_append_left (by omega)] at hn
    exact h k older newer ho hn

/-- The walk of R197 over chained columns answers a bit, from any state with a survivor in the newest column. -/
theorem traceback_ok {sv : List Column} {col : Column} (h : Chained (sv ++ [col])) {s : Nat} {e : Nat × Bool}
    (he : col[s]? = some (some e)) : ∃ b, traceback (sv ++ [col]).reverse s = .ok b := by
  induction sv using List.reverseRecOn generalizing col s e with
  | nil => exact ⟨e.2, by simp [traceback, List.getD_eq_getElem?_getD, he]⟩
  | append_singleton sv older ih =>
    obtain ⟨e', he'⟩ := h sv.length older col (by simp) (by simp) s e he
    obtain ⟨b, hb⟩ := ih h.of_append_singleton he'
    refine ⟨b, ?_⟩
    rw [List.reverse_append] at hb ⊢
    simpa [traceback, List.getD_eq_getElem?_getD, he] using hb

/-- Survivor memory that a column more fills: the new column is the newest of `VIT_TB` columns (R196). -/
theorem pushColumn_full {tb : Nat} {sv : List Column} (col : Column) (htb : 1 ≤ tb) (hle : sv.length ≤ tb)
    (hfull : tb ≤ sv.length + 1) :
    ∃ m, m ≤ sv.length ∧ pushColumn tb sv col = sv.drop m ++ [col] ∧ (sv.drop m ++ [col]).length = tb := by
  simp only [pushColumn, List.length_append, List.length_singleton, List.length_drop]
  split
  · exact ⟨1, by omega, List.drop_append_of_le_length (by omega), by omega⟩
  · exact ⟨0, by omega, rfl, by omega⟩

/-! ### The decision -/

/-- The decision over chained columns from a state with a survivor in the newest one (R197). -/
theorem emitDecision_ok {sv : List Column} {col : Column} {l : List Metric} {e : Nat × Bool} (h : Chained (sv ++ [col]))
    (he : col[argminMetric l]? = some (some e)) :
    ∃ b, emitDecision (sv ++ [col]).length (sv ++ [col]) l = .ok [b] := by
  obtain ⟨b, hb⟩ := traceback_ok h he
  exact ⟨b, by simp only [emitDecision, if_true, hb]⟩

variable {i : ChanInst}

/-- In a sound decoder the best state after add-compare-select has a survivor. -/
theorem survivor_at_best (hi : ViterbiInv i) (hf : i.par.fsm.wf = true) (r : List Cpx) :
    ∃ e, (addCompareSelect i.par r i.vit.pm).2[argminMetric
      (normalise i.par.numerics (addCompareSelect i.par r i.vit.pm).1)]? = some (some e) := by
  obtain ⟨s, hs⟩ := hi.live hf
  have hlive := finiteAt_addCompareSelect (r := r) hf (hi.pm_length ▸ FiniteAt.lt_length hs) hs
  have hbest := finiteAt_argminMetric ((finiteAt_normalise i.par.numerics _ _).2 hlive)
  exact (survivorsOf_addCompareSelect i.par r i.vit.pm).defined _ ((finiteAt_normalise _ _ _).1 hbest)

/-- In a sound decoder the column of add-compare-select is chained to the columns held. -/
theorem chained_addCompareSelect (hi : ViterbiInv i) (r : List Cpx) :
    Chained (i.vit.sv ++ [(addCompareSelect i.par r i.vit.pm).2]) :=
  Chained.append_singleton hi.chain fun older ho s e hcol =>
    have ⟨w, hw⟩ := (survivorsOf_addCompareSelect i.par r i.vit.pm).origin s e hcol
    hi.newest older ho e.1 w hw

/-- A trellis step of a sound decoder that lacks at most one of its columns gives one bit (R192, R197). -/
theorem trellisStep_emits (hi : ViterbiInv i) (hf : i.par.fsm.wf = true) (htb : 1 ≤ i.par.vitTb)
    (hfull : i.par.vitTb ≤ i.vit.sv.length + 1) (vbuf : Buffer Cpx) (r : List Cpx) :
    ∃ u b, trellisStep i.par i.vit vbuf r = .ok (u, [b]) := by
  obtain ⟨e, he⟩ := survivor_at_best hi hf r
  have hchain := chained_addCompareSelect hi r
  obtain ⟨m, hm, hpush, hlen⟩ := pushColumn_full (addCompareSelect i.par r i.vit.pm).2 htb hi.sv_le hfull
  rw [← List.drop_append_of_le_length hm] at hpush hlen
  obtain ⟨b, hb⟩ := emitDecision_ok (List.drop_append_of_le_length hm ▸ hchain.drop m) he
  rw [← List.drop_append_of_le_length hm, hlen] at hb
  simp only [trellisStep, hf, hi.pm_length, beq_self_eq_true, Bool.and_self, if_true, hpush, hb, Except.ok.injEq,
    Prod.mk.injEq, List.cons.injEq, and_true]
  exact ⟨_, b, rfl, rfl⟩

end Sys2Proof.Proofs.Viterbi
end

section
/-! SUPPORT. Back-pressure (00_scope.md R9, 20_memory.md R85): what each unit emits at a firing that emits, and that a unit
without room for it waits. -/

namespace Sys2Proof.Proofs.Scope

open Sys2Proof Sys2Proof.Machine

/-! ### A firing without room -/

section Firing

variable {τ υ ω : Type} {i : ChanInst} {inp : List τ} {sel : τ → Bool} {op : τ → Except Fault (υ × List ω)}
  {depth : Nat} {port : List ω} {commit : List τ → υ → List ω → ChanInst}

/-- `fireUnit_noRoom` for the token that stands at the head alone. -/
theorem fireUnit_noRoom_head (hport : 0 < port.length)
    (ho : ∀ x rest, inp = x :: rest → sel x = true → ∃ u out, op x = .ok (u, out) ∧ depth < port.length + out.length) :
    fireUnit i inp sel op depth port commit = .wait := by
  cases h : fireUnit i inp sel op depth port commit with
  | wait => rfl
  | fault f =>
    obtain ⟨x, rest, hi, -, hs, hf⟩ := fireUnit_fault h
    obtain ⟨u, out, hx, -⟩ := ho x rest hi hs
    rw [hx] at hf
    cases hf
  | done j =>
    obtain ⟨x, rest, u, out, hi, -, hs, hx, hroom, -⟩ := fireUnit_done h
    obtain ⟨u', out', hx', hfew⟩ := ho x rest hi hs
    rw [hx] at hx'
    cases hx'
    rcases hroom with hroom | rfl
    · omega
    · simp at hport

/-- A unit that emits one token waits while its channel is full. -/
theorem fireUnit_full (ho : ∀ x, sel x = true → ∃ u y, op x = .ok (u, [y]))
    (hfull : 0 < port.length ∧ depth ≤ port.length) : fireUnit i inp sel op depth port commit = .wait :=
  fireUnit_noRoom fun x hx =>
    have ⟨u, y, hop⟩ := ho x hx
    ⟨u, [y], hop, hfull.1, Nat.lt_succ_of_le hfull.2⟩

/-- Something is in hand exactly when the port holds more tokens than its channel. -/
theorem lt_length_of_inHand (h : inHand depth port ≠ []) : depth < port.length := by
  simpa [inHand] using h

/-- A unit that holds a part of a burst in hand waits. -/
theorem fireUnit_holding (h : inHand depth port ≠ []) : fireUnit i inp sel op depth port commit = .wait :=
  fireUnit_inHand (lt_length_of_inHand h)

end Firing

/-! ### Reads of a filled buffer -/

section Buffers

variable {α : Type} {buf : Buffer α} {vs : List α}

theorem getElem?_of_take_eq_map (h : buf.take vs.length = vs.map some) {k : Nat} (hk : k < vs.length) :
    buf[k]? = (vs[k]?).map some := by
  rw [← List.getElem?_map, ← h, List.getElem?_take_of_lt hk]

/-- Reading the first of the elements that are known to be written. -/
theorem memRead_of_take_eq_map (nm : BufName) (h : buf.take vs.length = vs.map some) {n : Nat} (hn : n ≤ vs.length) :
    memRead nm buf 0 n = .ok (vs.take n) := by
  have hread := memRead_ok nm buf (vs.take n) 0 fun k hk => by
    rw [List.length_take] at hk
    rw [Nat.zero_add, getElem?_of_take_eq_map h (by omega), List.getElem?_take_of_lt (by omega)]
  rwa [List.length_take, Nat.min_eq_left hn] at hread

/-- The element after the known ones, once written, is read after them. -/
theorem memRead_set_next (nm : BufName) (h : buf.take vs.length = vs.map some) (hlen : vs.length < buf.length) (v : α) :
    memRead nm (buf.set vs.length (some v)) 0 (vs.length + 1) = .ok (vs ++ [v]) := by
  have hset : (buf.set vs.length (some v)).take (vs ++ [v]).length = (vs ++ [v]).map some := by
    rw [List.length_append, List.length_singleton, List.take_add_one, List.take_set_of_le (le_refl _), h,
      List.getElem?_set_self hlen]
    simp
  have hread := memRead_of_take_eq_map nm hset (le_refl _)
  rwa [List.take_length, List.length_append, List.length_singleton] at hread

end Buffers

variable {i : ChanInst}

/-! ### The carrier estimator -/

theorem rotateBlock_length (n : Numerics) (dphi ph : Scalar) (blk : List Cpx) :
    (rotateBlock n dphi ph blk).1.length = blk.length := by
  induction blk generalizing ph with
  | nil => rfl
  | cons z rest ih => simp [rotateBlock, ih]

/-- The token that completes a block lets the whole block out (R131). -/
theorem csOp_completes {p : Params} {r : CfgRec} {u : CsRegs} {seen : List Cpx} {last : Option Cpx}
    (hfill : u.fill = seen.length) (hlen : seen.length + 1 = r.fftlen.toNat) (hbuf : u.buf = seen.map some ++ [last])
    (x : Cpx) :
    csOp p r u x = .ok (completeBlock p r u (u.buf.set seen.length (some x)) (seen ++ [x])) := by
  have hlt : seen.length < u.buf.length := by simp [hbuf]
  have htake : u.buf.take seen.length = seen.map some := by simp [hbuf]
  simp only [csOp, hfill, memWrite_ok _ _ _ _ hlt, ← hlen, Nat.lt_irrefl, if_false,
    memRead_set_next .csBuf htake hlt x]

theorem csFire_waits {seen : List Cpx} {last : Option Cpx} (hfill : i.cs.fill = seen.length)
    (hlen : seen.length + 1 = i.cfg.fftlen.toNat) (hbuf : i.cs.buf = seen.map some ++ [last])
    (hport : 0 < i.ch.csOut.length) (hroom : i.par.depth.csOut < i.ch.csOut.length + i.cfg.fftlen.toNat) :
    csFire i = .wait :=
  fireUnit_noRoom fun x _ => by
    refine ⟨_, _, csOp_completes hfill hlen hbuf x, hport, ?_⟩
    rwa [rotateBlock_length, List.length_append, List.length_singleton, hlen]

/-! ### The coherent front end -/

theorem costasFire_waits (h : 0 < i.ch.k1.length ∧ i.par.depth.k1 ≤ i.ch.k1.length) : costasFire i = .wait :=
  fireUnit_full (fun _ _ => ⟨_, _, rfl⟩) h

/-- The number of outputs of R158's loop, with fuel enough to end it: `ceil((L - n)/M)`. -/
theorem rsmpLoop_length (p : Params) {l m : Nat} (hm : 0 < m) (hist : List Cpx) (fuel n : Nat) (hfuel : l ≤ n + fuel) :
    (rsmpLoop p l m hist fuel n).1.length = (l - n + m - 1) / m := by
  have hnone : (m - 1) / m = 0 := Nat.div_eq_of_lt (by omega)
  induction fuel generalizing n with
  | zero => simp [rsmpLoop, show l - n = 0 by omega, hnone]
  | succ fuel ih =>
    rw [rsmpLoop]
    split
    · rw [List.length_cons, ih (n + m) (by omega), ← Nat.add_div_right _ hm]
      rcases Nat.le_total l (n + m) with hle | hle
      · rw [show l - (n + m) + m - 1 + m = m - 1 + m by omega, Nat.add_div_right _ hm, hnone]
        exact (Nat.div_eq_of_lt_le (by omega) (by omega)).symm
      · rw [show l - (n + m) + m - 1 + m = l - n + m - 1 by omega]
    · simp [show l - n = 0 by omega, hnone]

theorem rsmpFire_waits (hm : 0 < rsmpM i.par i.cfg) (hport : 0 < i.ch.k2.length)
    (hroom : i.par.depth.k2 < i.ch.k2.length +
      (rsmpL i.par i.cfg - i.rsmp.nxt + rsmpM i.par i.cfg - 1) / rsmpM i.par i.cfg) : rsmpFire i = .wait :=
  fireUnit_noRoom fun x _ => by
    refine ⟨_, _, rfl, hport, ?_⟩
    rwa [rsmpLoop_length _ hm _ _ _ (Nat.le_add_left _ _)]

/-- On phase 0 the matched filter emits a vector (R164). -/
theorem mfFire_waits (hph : i.mf.ph = 0) (h : 0 < i.ch.k3.length ∧ i.par.depth.k3 ≤ i.ch.k3.length) :
    mfFire i = .wait :=
  fireUnit_full (fun x _ => ⟨_, filterBank i.par (shiftIn i.mf.dl x), by rw [mfOp, if_pos hph]⟩) h

theorem ilvFire_waits {z : List Cpx} {rest : List (List Cpx)} (hk : i.ch.k3 = z :: rest) (hport : 0 < i.ch.vIn.length)
    (hroom : i.par.depth.vIn < i.ch.vIn.length + z.length) : ilvFire i = .wait :=
  fireUnit_noRoom_head hport fun x _ hx _ => by
    obtain rfl : z = x := (List.cons.inj (hk.symm.trans hx)).1
    exact ⟨(), z, rfl, hroom⟩

/-- A vector leaves into an empty channel whatever its length (log entry 13). -/
theorem ilvFire_into_empty {z : List Cpx} {rest : List (List Cpx)} (hk : i.ch.k3 = z :: rest)
    (hen : unitsEnabled i = true) (hcoh : i.cfg.coherent = true) (hv : i.ch.vIn = []) :
    ilvFire i = .done { i with ch := { i.ch with k3 := rest, vIn := z } } :=
  fireUnit_eq () z hk hen hcoh rfl (.inr hv) (by rw [hv, List.nil_append])

/-! ### The sequence decoder -/

/-- The token that completes a received vector lets one bit out, once the survivor memory is full (R192, R197). -/
theorem vitOp_emits {got : List Cpx} (hi : ViterbiInv i) (hf : i.par.fsm.wf = true) (htb : 1 ≤ i.par.vitTb)
    (hcnt : i.vit.vcnt = got.length) (hc : got.length + 1 = i.par.c) (hbuf : i.vit.vbuf.take got.length = got.map some)
    (hsv : i.par.vitTb ≤ i.vit.sv.length + 1) (x : Cpx) : ∃ u b, vitOp i.par i.vit x = .ok (u, [b]) := by
  have hlt : got.length < i.vit.vbuf.length := by
    rw [hi.vbuf_length]
    omega
  simp only [vitOp, hcnt, memWrite_ok _ _ _ _ hlt, ← hc, Nat.lt_irrefl, if_false,
    memRead_set_next .vitVbuf hbuf hlt x]
  exact Viterbi.trellisStep_emits hi hf htb hsv _ _

theorem vitFire_waits {got : List Cpx} (hi : ViterbiInv i) (hf : i.par.fsm.wf = true) (htb : 1 ≤ i.par.vitTb)
    (hcnt : i.vit.vcnt = got.length) (hc : got.length + 1 = i.par.c) (hbuf : i.vit.vbuf.take got.length = got.map some)
    (hsv : i.par.vitTb ≤ i.vit.sv.length + 1) (h : 0 < i.ch.hb.length ∧ i.par.depth.hb ≤ i.ch.hb.length) :
    vitFire i = .wait :=
  fireUnit_full (fun x _ => vitOp_emits hi hf htb hcnt hc hbuf hsv x) h

/-! ### The non-coherent demodulator -/

theorem qdFire_waits (h : 0 < i.ch.n1.length ∧ i.par.depth.n1 ≤ i.ch.n1.length) : qdFire i = .wait :=
  fireUnit_full (fun _ _ => ⟨_, _, rfl⟩) h

theorem rrcFire_waits (h : 0 < i.ch.n2.length ∧ i.par.depth.n2 ≤ i.ch.n2.length) : rrcFire i = .wait :=
  fireUnit_full (fun _ _ => ⟨_, _, rfl⟩) h

/-- At a symbol instant the clock recovery emits a symbol (R217). -/
theorem crFire_waits (ht : i.cr.t.val < 1) (h : 0 < i.ch.n3.length ∧ i.par.depth.n3 ≤ i.ch.n3.length) :
    crFire i = .wait := by
  have hlt : i.cr.t.lt (.rat 1) = true := by simpa [Scalar.lt_iff] using ht
  exact fireUnit_full (fun x _ => ⟨_, _, by rw [crOp, if_pos hlt]; rfl⟩) h

theorem tcorrFire_waits (h : 0 < i.ch.n4.length ∧ i.par.depth.n4 ≤ i.ch.n4.length) : tcorrFire i = .wait :=
  fireUnit_full (fun _ _ => ⟨_, _, rfl⟩) h

/-- Both operations of the equalizer run `body`, which emits its output (R223, R224). -/
theorem dfeFire_waits (hit : Bool) (regs : ChanInst → DfeRegs)
    (h : 0 < i.ch.n5.length ∧ i.par.depth.n5 ≤ i.ch.n5.length) :
    dfeFire hit (fun i v => dfeBody i.par (regs i) v) i = .wait :=
  fireUnit_full (fun _ _ => ⟨_, _, rfl⟩) h

theorem sliceFire_waits (h : 0 < i.ch.hb.length ∧ i.par.depth.hb ≤ i.ch.hb.length) : sliceFire i = .wait := by
  unfold sliceFire
  split
  · exact fireUnit_full (fun _ _ => ⟨_, _, rfl⟩) h
  · exact fireUnit_full (fun _ _ => ⟨_, _, rfl⟩) h

/-! ### The bit-level units -/

theorem diffFire_waits (b : Bool) (h : 0 < i.ch.l1.length ∧ i.par.depth.l1 ≤ i.ch.l1.length) : diffFire b i = .wait :=
  fireUnit_full (fun _ _ => ⟨_, _, rfl⟩) h

theorem invFire_waits (b : Bool) (h : 0 < i.ch.l2.length ∧ i.par.depth.l2 ≤ i.ch.l2.length) : invFire b i = .wait :=
  fireUnit_full (fun _ _ => ⟨_, _, rfl⟩) h

theorem corrFire_waits (b : Bool) (h : 0 < i.ch.tb.length ∧ i.par.depth.tb ≤ i.ch.tb.length) : corrFire b i = .wait :=
  fireUnit_full (fun _ _ => ⟨_, _, rfl⟩) h

/-- With seven bits held in an open frame the oldest leaves the hold-back line (R256). -/
theorem hold_emits {u : GateRegs} {h0 : Bool} {hs : Buffer Bool} (hopen : u.isOpen = true) (hhbc : u.hbc = 7)
    (hhb : u.hb = some h0 :: hs) (b : Bool) :
    hold u b = .ok ({ u with hb := u.hb.drop 1 ++ [some b] }, [.bit h0]) := by
  have hread : memRead .gateHb u.hb 0 1 = .ok [h0] := by rw [hhb]; rfl
  simp only [hold, hopen, hhbc, if_true, hread, List.map_cons, List.map_nil]

/-- A bit of an open frame that pushes a held bit out waits for room (R256, R257). -/
theorem gateFire_hold_waits {tok : T3} {op : ChanInst → Except Fault (GateRegs × List FT2)} {age : Nat} {b h0 : Bool}
    {hs : Buffer Bool} (hop : op i = hold { i.gate with age := age } b) (hopen : i.gate.isOpen = true)
    (hhbc : i.gate.hbc = 7) (hhb : i.gate.hb = some h0 :: hs)
    (h : 0 < i.ch.ft.length ∧ i.par.depth.ft ≤ i.ch.ft.length) : gateFire tok op i = .wait :=
  fireUnit_full (fun _ _ => ⟨_, _, hop.trans (hold_emits (u := { i.gate with age := age }) hopen hhbc hhb b)⟩) h

/-- GATE.FLAG emits an EOF for an open frame and an SOF for a preamble within the window (R258). -/
theorem gateFire_flag_waits (p b : Bool) (hport : 0 < i.ch.ft.length)
    (hroom : i.par.depth.ft < i.ch.ft.length + ((if i.gate.isOpen then 1 else 0) +
      (if flagAge i.par i.gate p ≤ i.par.window then 1 else 0))) :
    gateFire ⟨true, p, b⟩ (fun i => gateFlagOp i.par i.gate p) i = .wait :=
  fireUnit_noRoom fun _ _ => by
    refine ⟨_, _, rfl, hport, ?_⟩
    rwa [List.length_append, apply_ite List.length, apply_ite List.length]

/-- A frame token that the destuffer lets through waits for room (R266 to R268). -/
theorem dstfFire_waits {tok : FT2} (hemit : ∃ y, (dstfStep i.dstfOnes tok).2 = [y])
    (h : 0 < i.ch.fd2.length ∧ i.par.depth.fd2 ≤ i.ch.fd2.length) : dstfFire tok i = .wait :=
  fireUnit_full (fun t ht => by
    obtain rfl : t = tok := by simpa using ht
    obtain ⟨y, hy⟩ := hemit
    exact ⟨_, y, by rw [← hy]⟩) h

/-- The EOF of an accepted frame hands over a record (R284). -/
theorem frmEofOp_emits {bits : List Bool} (hact : i.frm.active = true) (hovf : i.frm.ovf = false)
    (hlen : i.frm.flen = bits.length) (hfb : i.frm.fb.take bits.length = bits.map some) (h16 : 16 ≤ bits.length)
    (hcrc : i.frm.crc = 0xF0B8) : ∃ u r, frmEofOp i = .ok (u, [r]) := by
  have hacc : crcAccepts bits.length (0xF0B8 : BitVec 16) = true := by simp [crcAccepts, crcGood, h16]
  simp only [frmEofOp, frmClose, hact, hovf, hlen, hcrc, hacc, Bool.not_false, Bool.and_self, if_true,
    memRead_of_take_eq_map .frmFb hfb (Nat.sub_le _ 16)]
  exact ⟨_, _, rfl⟩

theorem frmEofFire_waits {bits : List Bool} (hact : i.frm.active = true) (hovf : i.frm.ovf = false)
    (hlen : i.frm.flen = bits.length) (hfb : i.frm.fb.take bits.length = bits.map some) (h16 : 16 ≤ bits.length)
    (hcrc : i.frm.crc = 0xF0B8) (h : 0 < i.ch.rOut.length ∧ i.par.depth.rOut ≤ i.ch.rOut.length) :
    frmEofFire i = .wait :=
  fireUnit_full (fun _ _ => frmEofOp_emits hact hovf hlen hfb h16 hcrc) h

/-- Settles O39, unit by unit: each clause is the unit's `_waits` lemma, or `fireUnit_holding` for a burst in hand. -/
theorem fullChannelStallsProducer : Obligations.FullChannelStallsProducer := by
  intro c s i d full tooFew waits
  exact
    ⟨fun _ hfill hlen hbuf hfew => onInst_wait (csFire_waits hfill hlen hbuf hfew.1 hfew.2.2),
      fun h => onInst_wait (costasFire_waits h),
      fun hm hfew => onInst_wait (rsmpFire_waits hm hfew.1 hfew.2.2),
      fun hph h => onInst_wait (mfFire_waits hph h),
      fun _ _ hk => ⟨fun hfew => onInst_wait (ilvFire_waits hk hfew.1 hfew.2.2),
        fun hen hcoh hv => onInst_done (ilvFire_into_empty hk hen hcoh hv)⟩,
      fun _ hi hf htb hcnt hc hbuf hsv h => onInst_wait (vitFire_waits hi hf htb hcnt hc hbuf hsv h),
      fun h => onInst_wait (qdFire_waits h),
      fun h => onInst_wait (rrcFire_waits h),
      fun ht h => onInst_wait (crFire_waits ht h),
      fun h => onInst_wait (tcorrFire_waits h),
      fun h => ⟨onInst_wait (dfeFire_waits false (fun i => i.dfe) h),
        onInst_wait (dfeFire_waits true (fun i => dfeCleared i.dfe) h)⟩,
      fun h => onInst_wait (sliceFire_waits h),
      fun b h => onInst_wait (diffFire_waits b h),
      fun b h => onInst_wait (invFire_waits b h),
      fun b h => onInst_wait (corrFire_waits b h),
      fun _ _ _ hopen hhbc hhb h => ⟨onInst_wait (gateFire_hold_waits rfl hopen hhbc hhb h),
        onInst_wait (gateFire_hold_waits rfl hopen hhbc hhb h)⟩,
      fun p b hfew => onInst_wait (gateFire_flag_waits p b hfew.1 hfew.2.2),
      fun hones h => onInst_wait (dstfFire_waits ⟨.bit false, if_neg hones⟩ h),
      fun h => ⟨onInst_wait (dstfFire_waits ⟨_, rfl⟩ h), onInst_wait (dstfFire_waits ⟨_, rfl⟩ h),
        onInst_wait (dstfFire_waits ⟨_, rfl⟩ h)⟩,
      fun _ hact hovf hlen hfb h16 hcrc h => onInst_wait (frmEofFire_waits hact hovf hlen hfb h16 hcrc h),
      fun h => onInst_wait (fireUnit_holding h),
      fun h => onInst_wait (fireUnit_holding h),
      fun h => onInst_wait (fireUnit_holding h),
      fun h => onInst_wait (fireUnit_holding h),
      fun h => onInst_wait (fireUnit_holding h),
      fun h => onInst_wait (fireUnit_holding h),
      fun h _ _ => ⟨onInst_wait (fireUnit_holding h), onInst_wait (fireUnit_holding h),
        onInst_wait (fireUnit_holding h)⟩,
      fun h => onInst_wait (fireUnit_holding h),
      fun h => onInst_wait (fireUnit_holding h)⟩

end Sys2Proof.Proofs.Scope
end

section
/-! SUPPORT. The base of the invariant and what no operation writes: what an instance holds after a reset (10_state.md R48,
70_reset_and_hazards.md R382) is sound, and parameters, QDEPTH and CFG stay (R24, R84). -/

namespace Sys2Proof.Proofs.Invariant

open Sys2Proof Sys2Proof.Machine

/-! ### Reset -/

/-- Settles O5: the registers of a reset instance are the literals of `ChanInst.reset`, and the power-on state is made of
two reset instances. -/
theorem resetValues : Obligations.ResetValues := by
  refine ⟨fun p o => ?_, rfl, rfl, rfl⟩
  simp [ChanInst.reset, CfgRec.unloaded]

theorem not_configured_of_unconfigured {i : ChanInst} (h : i.lc = .unconfigured) : ¬ Configured i := by
  simp [Configured, h]

/-- A frame without bits holds none. -/
@[simp] theorem heldBits_zero (fb : Buffer Bool) : heldBits fb 0 = [] := by simp [heldBits]

/-- A sound trellis has a state (R191). -/
theorem nstates_pos {f : Fsm} (h : f.wf = true) : 0 < f.nstates := by
  simp only [Fsm.wf, Bool.and_eq_true, decide_eq_true_eq] at h
  obtain ⟨⟨⟨⟨⟨hpos, -⟩, -⟩, -⟩, -⟩, -⟩ := h
  exact hpos

section Reset

variable (p : Params) (o : Observed)

theorem lifecycleInv_reset : LifecycleInv (ChanInst.reset p o) where
  done_iff := by simp [ChanInst.reset]
  err_iff := by simp [ChanInst.reset]
  hardwired := rfl
  checked h := absurd h (not_configured_of_unconfigured rfl)
  quiet _ := rfl

theorem bitUnitsInv_reset : BitUnitsInv (ChanInst.reset p o) where
  pos_lt := Nat.two_pow_pos _
  cnt_le := Nat.zero_le _
  age_le := le_refl _
  hbc_le := Nat.zero_le _
  hb_length := List.length_replicate
  hb_written := writtenBelow_zero _
  ones_le := Nat.zero_le _
  flen_le := Nat.zero_le _
  fb_length := List.length_replicate
  fb_written := writtenBelow_zero _
  crc_over := by simp [ChanInst.reset, crcRun, crcInit]
  ovf_active h := by simp [ChanInst.reset] at h

theorem carrierInv_reset : CarrierInv (ChanInst.reset p o) where
  fill_zero _ := rfl
  buf_length h := absurd h (not_configured_of_unconfigured rfl)
  fill_lt h := absurd h (not_configured_of_unconfigured rfl)
  buf_written h := absurd h (not_configured_of_unconfigured rfl)

/-- Every metric starts at 0, so a trellis with a state starts alive; there is no survivor yet. -/
theorem viterbiInv_reset : ViterbiInv (ChanInst.reset p o) where
  vbuf_length := List.length_replicate
  vcnt_lt := .inl rfl
  vbuf_written := writtenBelow_zero _
  pm_length := List.length_replicate
  sv_le := Nat.zero_le _
  columns := by simp [ChanInst.reset]
  live hf := by
    have hpos : 0 < p.fsm.nstates := nstates_pos hf
    exact ⟨0, .rat 0, by simp [ChanInst.reset, hpos]⟩
  newest := by simp [ChanInst.reset]
  chain := by simp [ChanInst.reset]

theorem storageInv_reset : StorageInv (ChanInst.reset p o) where
  mf_length := List.length_replicate
  mf_phase := .inl rfl
  rrc_length := List.length_replicate
  rsmp_zero _ := rfl
  rsmp_length h := absurd h (not_configured_of_unconfigured rfl)
  rsmp_next h := absurd h (not_configured_of_unconfigured rfl)
  tcorr_cnt := Nat.zero_le _
  tcorr_sr := Nat.two_pow_pos _
  dfe_wf := List.length_replicate
  dfe_wb := List.length_replicate
  dfe_u := List.length_replicate
  dfe_d := List.length_replicate
  dfe_tcnt := le_refl _

/-- A reset instance is sound, whatever its parameters. -/
theorem instInv_reset : InstInv (ChanInst.reset p o) where
  lifecycle := lifecycleInv_reset p o
  bits := bitUnitsInv_reset p o
  carrier := carrierInv_reset p o
  viterbi := viterbiInv_reset p o
  storage := storageInv_reset p o
  records _ h := absurd h List.not_mem_nil

end Reset

/-- Settles O6: two reset instances and an empty queue. -/
theorem resetSatisfiesInvariant : Obligations.ResetSatisfiesInvariant where
  a := instInv_reset _ _
  b := instInv_reset _ _
  qdepth := rfl
  queued _ h := absurd h List.not_mem_nil
  delivered _ h := absurd h List.not_mem_nil

/-! ### What no operation writes -/

/-- QDEPTH through a signal: kept when the signal's change keeps it. -/
theorem takeSignal_qdepth {g : Signal} {k : State → State} {s t : State} (hk : ∀ u, (k u).qdepth = u.qdepth)
    (h : takeSignal g k s = .next t) : t.qdepth = s.qdepth := by
  rcases takeSignal_cases h with rfl | ⟨rest, -, rfl⟩
  · rfl
  · exact hk _

theorem onTarget_qdepth (g : Target) (f : ChanInst → ChanInst) (s : State) : (onTarget g f s).qdepth = s.qdepth := by
  cases g with
  | chan c => exact setInst_qdepth _ _ _
  | receiver => rfl

theorem applyReset_qdepth (g : Target) (s : State) : (applyReset g s).qdepth = s.qdepth := by
  cases g with
  | chan c => exact setInst_qdepth _ _ _
  | receiver => rfl

theorem setOffers_setInst_qdepth (s : State) (c : Chan) (l : List Cpx) (i : ChanInst) :
    ((s.setOffers c l).setInst c i).qdepth = s.qdepth := by simp

/-- No operation writes QDEPTH (R24): a unit operation writes its instance and at most the queue, and a system operation
an instance or what the outside agents have ready. -/
theorem exec_qdepth {op : Instr} {s t : State} (h : exec op s = .next t) : t.qdepth = s.qdepth := by
  cases hu : unitOpChan op with
  | some c =>
    rcases unit_next hu h with rfl | ⟨j, -, rfl | ⟨-, r, rest, -, -, rfl⟩⟩
    · rfl
    · exact setInst_qdepth _ _ _
    · exact setInst_qdepth _ _ _
  | none =>
    cases op <;> simp only [unitOpChan, reduceCtorEq] at hu
    case sysReset g => exact takeSignal_qdepth (applyReset_qdepth g) h
    case sysStart g => exact takeSignal_qdepth (onTarget_qdepth g _) h
    case sysStop g => exact takeSignal_qdepth (onTarget_qdepth g _) h
    case srcEos g => exact takeSignal_qdepth (onTarget_qdepth g _) h
    case cfgLoad c =>
      simp only [exec, execCfgLoad] at h
      split at h
      · split at h <;> cases h
        · exact setInst_qdepth _ _ _
        · rfl
      · cases h
        rfl
    case srcSample c =>
      simp only [exec, execSrcSample] at h
      split at h
      · cases h
        rfl
      · split at h <;> cases h
        · exact setOffers_setInst_qdepth _ _ _ _
        · rfl
    case sysDrained c =>
      rcases onInst_next h with ⟨-, rfl⟩ | ⟨j, -, rfl⟩
      · rfl
      · exact setInst_qdepth _ _ _
    case qPop =>
      simp only [exec, execQPop] at h
      split at h <;> cases h <;> rfl
    case qEmpty =>
      simp only [exec, execQEmpty] at h
      split at h <;> cases h <;> rfl

theorem loadInst_par (r : CfgRec) (i : ChanInst) : (loadInst r i).par = i.par := by
  rcases loadInst_cases r i with ⟨h, -⟩ | ⟨-, ⟨h, -⟩ | ⟨h, -⟩⟩ <;> rw [h] <;> rfl

/-- A load outside UNCONFIGURED is ignored (R312). -/
theorem loadInst_of_ne {r : CfgRec} {i : ChanInst} (h : i.lc ≠ .unconfigured) : loadInst r i = i := if_neg h

theorem startInst_par_cfg (i : ChanInst) : (startInst i).par = i.par ∧ (startInst i).cfg = i.cfg := by
  rcases startInst_cases i with h | ⟨-, h⟩ <;> rw [h] <;> exact ⟨rfl, rfl⟩

theorem drainInst_par_cfg (i : ChanInst) : (drainInst i).par = i.par ∧ (drainInst i).cfg = i.cfg := by
  rcases drainInst_cases i with h | ⟨-, h⟩ <;> rw [h] <;> exact ⟨rfl, rfl⟩

/-- Settles O42, by what an operation can do to an instance (`exec_effect`): only a reset and a load in UNCONFIGURED
write `CFG`, and nothing writes the parameters. -/
theorem configurationIsImmutable : Obligations.ConfigurationIsImmutable := by
  intro op c s t h
  suffices hkeep : (t.inst c).par = (s.inst c).par ∧ (¬ resetsChan c op →
      ¬(op = .cfgLoad c ∧ (s.inst c).lc = .unconfigured) → (t.inst c).cfg = (s.inst c).cfg) by
    obtain ⟨hpar, hcfg⟩ := hkeep
    exact ⟨hpar, exec_qdepth h, hcfg⟩
  cases exec_effect h with
  | same he => exact ⟨by rw [he], fun _ _ => by rw [he]⟩
  | unit _ hf => exact ⟨hf.par, fun _ _ => hf.cfg⟩
  | reset hr he => exact ⟨by rw [he]; rfl, fun hn => absurd hr hn⟩
  | load hop r he =>
    refine ⟨by rw [he, loadInst_par], fun _ hn => ?_⟩
    rw [he, loadInst_of_ne fun hlc => hn ⟨hop, hlc⟩]
  | start _ he => exact ⟨by rw [he, (startInst_par_cfg _).1], fun _ _ => by rw [he, (startInst_par_cfg _).2]⟩
  | drain _ he => exact ⟨by rw [he, (drainInst_par_cfg _).1], fun _ _ => by rw [he, (drainInst_par_cfg _).2]⟩
  | sample _ hc he => exact ⟨by rw [he], fun _ _ => by rw [he]⟩
  | drained _ _ he => exact ⟨by rw [he], fun _ _ => by rw [he]⟩

end Sys2Proof.Proofs.Invariant
end

section
/-! SUPPORT. Every operation of an instance keeps it sound: one rule per part of the state that a firing writes, what the
life cycle's moves and a load keep (48_system_ops.md R310, R312), and one lemma per unit. -/

namespace Sys2Proof.Proofs.Invariant

open Sys2Proof Sys2Proof.Machine

variable {i j : ChanInst}

/-! ### Which instances are configured -/

theorem unitsEnabled_iff : unitsEnabled i = true ↔ i.lc = .running ∨ i.lc = .draining := by
  simp [unitsEnabled]

/-- Unit operations are enabled past CFG.LOAD only (R312). -/
theorem configured_of_enabled (h : unitsEnabled i = true) : Configured i := by
  rcases unitsEnabled_iff.1 h with h | h <;> simp [Configured, h]

/-- What an accepted record satisfies (R311), as far as the storage depends on it. -/
theorem cfgCheck_eq_zero {p : Params} {r : CfgRec} (h : cfgCheck p r = 0) :
    r.symbolRate = 9600 ∧ rateBad r = false ∧ r.fftlen ≠ 0 ∧ (r.coherent = true → p.coherentWf = true) := by
  unfold cfgCheck at h
  split_ifs at h with hsym hrate hfft hdes hnc htim htab
  case neg => exact ⟨not_not.1 hsym, by simpa using hrate, hfft, fun hcoh => by simpa [hcoh] using htab⟩
  all_goals exact absurd h (by decide)

/-- An accepted rate is an exact quotient of positive numbers, so it is positive (R6, R311). -/
theorem fsOf_pos {r : CfgRec} (h : rateBad r = false) : 0 < fsOf r := by
  simp only [rateBad, Bool.or_eq_false_iff, beq_eq_false_iff_ne, bne_eq_false_iff_eq] at h
  obtain ⟨⟨hrate, hdec⟩, hmod⟩ := h
  have hrate' : 0 < r.sampleRate.toNat := Nat.pos_of_ne_zero fun h0 => hrate (BitVec.eq_of_toNat_eq h0)
  have hdvd := Nat.dvd_of_mod_eq_zero hmod
  exact Nat.div_pos (Nat.le_of_dvd hrate' hdvd) (Nat.pos_of_dvd_of_pos hdvd hrate')

/-- The decimation factor `M` of an accepted rate is positive (R156). -/
theorem rsmpM_pos (p : Params) {r : CfgRec} (h : rateBad r = false) : 0 < rsmpM p r :=
  Nat.div_gcd_pos_of_pos_right _ (fsOf_pos h)

/-- The phase count of a sound coherent path is positive (R7). -/
theorem phases_pos {p : Params} (h : p.coherentWf = true) : 0 < p.q := by
  simp only [Params.coherentWf, Bool.and_eq_true, decide_eq_true_eq] at h
  simp only [and_assoc] at h
  obtain ⟨hq, -⟩ := h
  exact hq

/-! ### One rule per part of the state -/

/-- The registers that no clause of the invariant speaks of, and the observer ports. -/
theorem instInv_setUnconstrained (hi : InstInv i) (costas : CostasRegs) (qdPrev : Cpx) (cr : CrRegs) (ldPrev : Bool)
    (obs : Observed) :
    InstInv { i with costas := costas, qdPrev := qdPrev, cr := cr, ldPrev := ldPrev, obs := obs } where
  lifecycle := { hi.lifecycle with }
  bits := { hi.bits with }
  carrier := { hi.carrier with }
  viterbi := { hi.viterbi with }
  storage := { hi.storage with }
  records := hi.records

/-- The channels of an instance whose units are enabled. -/
theorem instInv_setChannels (hi : InstInv i) (hen : unitsEnabled i = true) (ch : Channels)
    (hrec : ∀ r ∈ ch.rOut, RecordOk r) : InstInv { i with ch := ch } where
  lifecycle := { hi.lifecycle with quiet := fun h => absurd (hen.symm.trans h) (by decide) }
  bits := { hi.bits with }
  carrier := { hi.carrier with }
  viterbi := { hi.viterbi with }
  storage := { hi.storage with }
  records := hrec

/-- The registers of FD, DSTF and FRM. -/
theorem instInv_setBitUnits (hi : InstInv i) {fd : FdRegs} {gate : GateRegs} {ones : Nat} {frm : FrmRegs}
    (h : BitUnitsInv { i with fd := fd, gate := gate, dstfOnes := ones, frm := frm }) :
    InstInv { i with fd := fd, gate := gate, dstfOnes := ones, frm := frm } where
  lifecycle := { hi.lifecycle with }
  bits := h
  carrier := { hi.carrier with }
  viterbi := { hi.viterbi with }
  storage := { hi.storage with }
  records := hi.records

/-- The registers of CS. -/
theorem instInv_setCarrier (hi : InstInv i) {u : CsRegs} (h : CarrierInv { i with cs := u }) :
    InstInv { i with cs := u } where
  lifecycle := { hi.lifecycle with }
  bits := { hi.bits with }
  carrier := h
  viterbi := { hi.viterbi with }
  storage := { hi.storage with }
  records := hi.records

/-- The registers of VIT. -/
theorem instInv_setViterbi (hi : InstInv i) {u : VitRegs} (h : ViterbiInv { i with vit := u }) :
    InstInv { i with vit := u } where
  lifecycle := { hi.lifecycle with }
  bits := { hi.bits with }
  carrier := { hi.carrier with }
  viterbi := h
  storage := { hi.storage with }
  records := hi.records

/-- The delay lines, the tap arrays and the counters beside them. -/
theorem instInv_setStorage (hi : InstInv i) {rsmp : RsmpRegs} {mf : MfRegs} {rrcDl : List Scalar} {tcorr : TcorrRegs}
    {dfe : DfeRegs} (h : StorageInv { i with rsmp := rsmp, mf := mf, rrcDl := rrcDl, tcorr := tcorr, dfe := dfe }) :
    InstInv { i with rsmp := rsmp, mf := mf, rrcDl := rrcDl, tcorr := tcorr, dfe := dfe } where
  lifecycle := { hi.lifecycle with }
  bits := { hi.bits with }
  carrier := { hi.carrier with }
  viterbi := { hi.viterbi with }
  storage := h
  records := hi.records

/-! ### The life cycle (R312) -/

/-- A move of the life cycle past CFG.LOAD keeps an instance sound, when the completion flag says whether it is DONE and
no token is left where the units are not enabled. -/
theorem instInv_advance (hi : InstInv i) (hc : Configured i) {l : Lifecycle} {d : Bool}
    (hl : Configured { i with lc := l, done := d }) (hd : d = true ↔ l = .done)
    (hq : unitsEnabled { i with lc := l, done := d } = false → i.ch = Channels.empty) :
    InstInv { i with lc := l, done := d } where
  lifecycle :=
    { hi.lifecycle with
      done_iff := hd
      err_iff := by
        have hold : i.lc ≠ .cfgError := fun h => by simp [Configured, h] at hc
        have hnew : l ≠ .cfgError := fun h => by simp [Configured, h] at hl
        simpa [hold, hnew] using hi.lifecycle.err_iff
      checked := fun _ => hi.lifecycle.checked hc
      quiet := hq }
  bits := { hi.bits with }
  carrier :=
    { fill_zero := fun h => absurd hl (not_configured_of_unconfigured h)
      buf_length := fun _ => hi.carrier.buf_length hc
      fill_lt := fun _ => hi.carrier.fill_lt hc
      buf_written := fun _ => hi.carrier.buf_written hc }
  viterbi := { hi.viterbi with }
  storage :=
    { hi.storage with
      rsmp_zero := fun h => absurd hl (not_configured_of_unconfigured h)
      rsmp_length := fun _ => hi.storage.rsmp_length hc
      rsmp_next := fun _ => hi.storage.rsmp_next hc }
  records := hi.records

/-- SYS.START keeps an instance sound (R313). -/
theorem instInv_startInst (hi : InstInv i) : InstInv (startInst i) := by
  rcases startInst_cases i with h | ⟨hlc, h⟩ <;> rw [h]
  · exact hi
  · exact instInv_advance hi (.inl hlc) (.inr (.inl rfl)) (by simp [hi.lifecycle.done_iff, hlc]) (by simp [unitsEnabled])

/-- SYS.STOP and SRC.EOS keep an instance sound (R315, R317). -/
theorem instInv_drainInst (hi : InstInv i) : InstInv (drainInst i) := by
  rcases drainInst_cases i with h | ⟨hlc, h⟩ <;> rw [h]
  · exact hi
  · exact instInv_advance hi (.inr (.inl hlc)) (.inr (.inr (.inl rfl))) (by simp [hi.lifecycle.done_iff, hlc])
      (by simp [unitsEnabled])

/-- SYS.DRAINED keeps an instance sound: it fires on empty channels (R319). -/
theorem instInv_drainedInst (hi : InstInv i) (h : drainedInst i = .done j) : InstInv j := by
  obtain ⟨hlc, hch, rfl⟩ := drainedInst_frame h
  exact instInv_advance hi (.inr (.inr (.inl hlc))) (.inr (.inr (.inr rfl))) (by simp) fun _ => hch

/-! ### CFG.LOAD (R310) -/

/-- An accepted load makes a sound configured instance: the record passed the checks, and the storage it sizes is new. -/
theorem instInv_configure (hi : InstInv i) (hlc : i.lc = .unconfigured) {r : CfgRec} (hr : cfgCheck i.par r = 0) :
    InstInv (configure r i) := by
  obtain ⟨hsym, hrate, hfft, -⟩ := cfgCheck_eq_zero hr
  have hcfg : ({ r with symbolRate := 9600 } : CfgRec) = r := by rw [← hsym]
  have hlen : 0 < r.fftlen.toNat := Nat.pos_of_ne_zero fun h0 => hfft (BitVec.eq_of_toNat_eq h0)
  have hfill := hi.carrier.fill_zero hlc
  have hnxt := hi.storage.rsmp_zero hlc
  have hready : (configure r i).lc ≠ .unconfigured := by simp [configure]
  rw [configure, hcfg] at hready ⊢
  exact
    { lifecycle :=
        { done_iff := by simp [hi.lifecycle.done_iff, hlc]
          err_iff := by simp
          hardwired := hsym
          checked := fun _ => hr
          quiet := fun _ => hi.lifecycle.quiet (by simp [unitsEnabled, hlc]) }
      bits := { hi.bits with }
      carrier :=
        { fill_zero := fun h => absurd h hready
          buf_length := fun _ => List.length_replicate
          fill_lt := fun _ => by simpa only [hfill] using hlen
          buf_written := fun _ => by simpa only [hfill] using writtenBelow_zero _ }
      viterbi := { hi.viterbi with }
      storage :=
        { hi.storage with
          rsmp_zero := fun h => absurd h hready
          rsmp_length := fun _ => List.length_replicate
          rsmp_next := fun _ => by simpa only [hnxt] using rsmpM_pos i.par hrate }
      records := hi.records }

/-- A refused load makes a sound instance that is not configured. -/
theorem instInv_refuseConfig (hi : InstInv i) (hlc : i.lc = .unconfigured) {e : BitVec 4} (he : e ≠ 0) (r : CfgRec) :
    InstInv (refuseConfig e r i) := by
  have hnew : ¬ Configured (refuseConfig e r i) := by simp [Configured, refuseConfig]
  have hold : (refuseConfig e r i).lc ≠ .unconfigured := by simp [refuseConfig]
  exact
    { lifecycle :=
        { done_iff := by simp [refuseConfig, hi.lifecycle.done_iff, hlc]
          err_iff := by simpa [refuseConfig] using he
          hardwired := hi.lifecycle.hardwired
          checked := fun h => absurd h hnew
          quiet := fun _ => hi.lifecycle.quiet (by simp [unitsEnabled, hlc]) }
      bits := { hi.bits with }
      carrier :=
        { fill_zero := fun h => absurd h hold
          buf_length := fun h => absurd h hnew
          fill_lt := fun h => absurd h hnew
          buf_written := fun h => absurd h hnew }
      viterbi := { hi.viterbi with }
      storage :=
        { hi.storage with
          rsmp_zero := fun h => absurd h hold
          rsmp_length := fun h => absurd h hnew
          rsmp_next := fun h => absurd h hnew }
      records := hi.records }

theorem instInv_loadInst (hi : InstInv i) (r : CfgRec) : InstInv (loadInst r i) := by
  rcases loadInst_cases r i with ⟨h, -⟩ | ⟨hlc, ⟨h, hr⟩ | ⟨h, hr⟩⟩ <;> rw [h]
  · exact hi
  · exact instInv_configure hi hlc hr
  · exact instInv_refuseConfig hi hlc hr r

/-! ### The carrier estimator -/

/-- All CS.STEP can do to its registers (R131): the sample is stored at the fill count, which goes up by one within the
block and back to 0 at its end. -/
theorem csOp_cases {p : Params} {r : CfgRec} {u v : CsRegs} {x : Cpx} {out : List Cpx} (h : csOp p r u x = .ok (v, out)) :
    u.fill < u.buf.length ∧ v.buf = u.buf.set u.fill (some x) ∧
      (v.fill = 0 ∨ v.fill = u.fill + 1 ∧ u.fill + 1 < r.fftlen.toNat) := by
  unfold csOp at h
  split at h
  · cases h
  · rename_i buf hw
    obtain ⟨hlt, rfl⟩ := memWrite_inv hw
    split at h
    · cases h
      exact ⟨hlt, rfl, .inr ⟨rfl, ‹_›⟩⟩
    · split at h
      · cases h
      · cases h
        exact ⟨hlt, rfl, .inl rfl⟩

theorem instInv_csFire (hi : InstInv i) (h : csFire i = .done j) : InstInv j := by
  obtain ⟨x, rest, u, out, -, hen, -, hop, -, rfl⟩ := fireUnit_done h
  obtain ⟨hlt, hbuf, hfill⟩ := csOp_cases hop
  have hc := configured_of_enabled hen
  have hcs : CarrierInv { i with cs := u } :=
    { fill_zero := fun h => absurd hc (not_configured_of_unconfigured h)
      buf_length := fun _ => by simpa only [hbuf, List.length_set] using hi.carrier.buf_length hc
      fill_lt := fun _ => by
        have := hi.carrier.fill_lt hc
        show u.fill < i.cfg.fftlen.toNat
        omega
      buf_written := fun _ => by
        show WrittenBelow u.buf u.fill
        rcases hfill with h0 | ⟨h1, -⟩
        · exact h0 ▸ writtenBelow_zero _
        · rw [h1, hbuf]
          exact (hi.carrier.buf_written hc).set hlt x }
  exact instInv_setChannels (instInv_setCarrier hi hcs) hen _ hi.records

/-! ### The coherent front end -/

theorem instInv_costasFire (hi : InstInv i) (h : costasFire i = .done j) : InstInv j := by
  obtain ⟨x, rest, u, out, -, hen, -, -, -, rfl⟩ := fireUnit_done h
  exact instInv_setChannels (instInv_setUnconstrained hi u i.qdPrev i.cr i.ldPrev i.obs) hen _ hi.records

/-- The loop of R158 passes `L` by less than one turn's step. -/
theorem rsmpLoop_next_lt (p : Params) (l m : Nat) (hist : List Cpx) (fuel n : Nat) (h : n < l + m) :
    (rsmpLoop p l m hist fuel n).2 < l + m := by
  induction fuel generalizing n with
  | zero => exact h
  | succ fuel ih =>
    rw [rsmpLoop]
    split
    · exact ih (n + m) (by omega)
    · exact h

/-- RSMP.STEP keeps the history's size and the next position's range (R158). -/
theorem storageInv_rsmpOp (h : StorageInv i) (hc : Configured i) {x : Cpx} {u : RsmpRegs} {out : List Cpx}
    (hop : rsmpOp i.par i.cfg i.rsmp x = .ok (u, out)) : StorageInv { i with rsmp := u } := by
  cases hop
  have hnext := h.rsmp_next hc
  have hend := rsmpLoop_next_lt i.par (rsmpL i.par i.cfg) (rsmpM i.par i.cfg) (shiftIn i.rsmp.hist x)
    (rsmpL i.par i.cfg) i.rsmp.nxt (by omega)
  exact
    { h with
      rsmp_zero := fun h => absurd hc (not_configured_of_unconfigured h)
      rsmp_length := fun _ => (shiftIn_length _ _).trans (h.rsmp_length hc)
      rsmp_next := fun _ => by
        show (rsmpLoop _ _ _ _ _ _).2 - rsmpL i.par i.cfg < rsmpM i.par i.cfg
        omega }

theorem instInv_rsmpFire (hi : InstInv i) (h : rsmpFire i = .done j) : InstInv j := by
  obtain ⟨x, rest, u, out, -, hen, -, hop, -, rfl⟩ := fireUnit_done h
  exact instInv_setChannels (instInv_setStorage hi (storageInv_rsmpOp hi.storage (configured_of_enabled hen) hop)) hen _
    hi.records

/-- MF.STEP keeps the delay line's size and, where the tables are sound, the phase's range (R164). -/
theorem storageInv_mfOp (h : StorageInv i) (hq : 0 < i.par.q) {x : Cpx} {u : MfRegs} {out : List (List Cpx)}
    (hop : mfOp i.par i.mf x = .ok (u, out)) : StorageInv { i with mf := u } := by
  cases hop
  exact
    { h with
      mf_length := (shiftIn_length _ _).trans h.mf_length
      mf_phase := .inr (Nat.mod_lt _ hq) }

theorem instInv_mfFire (hi : InstInv i) (h : mfFire i = .done j) : InstInv j := by
  obtain ⟨x, rest, u, out, -, hen, hcoh, hop, -, rfl⟩ := fireUnit_done h
  obtain ⟨-, -, -, htables⟩ := cfgCheck_eq_zero (hi.lifecycle.checked (configured_of_enabled hen))
  exact instInv_setChannels (instInv_setStorage hi (storageInv_mfOp hi.storage (phases_pos (htables hcoh)) hop)) hen _
    hi.records

theorem instInv_ilvFire (hi : InstInv i) (h : ilvFire i = .done j) : InstInv j := by
  obtain ⟨x, rest, u, out, -, hen, -, -, -, rfl⟩ := fireUnit_done h
  exact instInv_setChannels hi hen _ hi.records

/-! ### The sequence decoder -/

open Viterbi

/-- Survivor memory after one column more: the last of the old columns, then the new one, and no more of them than
`VIT_TB` when there were no more before (R196). -/
theorem pushColumn_eq_drop (tb : Nat) (sv : List Column) (col : Column) (h : sv.length ≤ tb) :
    ∃ m, pushColumn tb sv col = (sv ++ [col]).drop m ∧ ((sv ++ [col]).drop m).length ≤ tb := by
  unfold pushColumn
  split
  · exact ⟨1, rfl, by simpa using h⟩
  · rename_i hfits
    exact ⟨0, rfl, Nat.not_lt.1 hfits⟩

/-- However many old elements are dropped, the last one is the one just appended, unless it is dropped too. -/
theorem getLast?_drop_append_singleton {α : Type} {l : List α} {x y : α} {m : Nat}
    (h : ((l ++ [x]).drop m).getLast? = some y) : y = x := by
  rw [List.getLast?_drop] at h
  split at h
  · cases h
  · simpa using h.symm

/-- A completed trellis step keeps the decoder sound (R192 to R197): the new metrics and the new column come from
add-compare-select, whose survivors stand exactly where they must. -/
theorem viterbiInv_trellisStep (hi : ViterbiInv i) {vbuf : Buffer Cpx} (hvbuf : vbuf.length = i.par.c) {r : List Cpx}
    {u : VitRegs} {out : List Bool} (h : trellisStep i.par i.vit vbuf r = .ok (u, out)) :
    ViterbiInv { i with vit := u } := by
  unfold trellisStep at h
  split at h
  case isFalse => cases h
  case isTrue hwf =>
    obtain ⟨hf, -⟩ := Bool.and_eq_true_iff.1 hwf
    obtain ⟨m, hpush, hle⟩ := pushColumn_eq_drop i.par.vitTb i.vit.sv (addCompareSelect i.par r i.vit.pm).2 hi.sv_le
    have hsurv := survivorsOf_addCompareSelect i.par r i.vit.pm
    have hchain := (chained_addCompareSelect hi r).drop m
    simp only [hpush] at h
    split at h
    · cases h
    · cases h
      exact
        { vbuf_length := hvbuf
          vcnt_lt := .inl rfl
          vbuf_written := writtenBelow_zero _
          pm_length := by simpa [normalise] using hsurv.metrics_length
          sv_le := hle
          columns := fun col hcol => by
            rcases List.mem_append.1 (List.mem_of_mem_drop hcol) with hold | hnew
            · exact hi.columns col hold
            · exact List.mem_singleton.1 hnew ▸ hsurv.column_length
          live := fun _ => by
            obtain ⟨s, hs⟩ := hi.live hf
            have hlive := finiteAt_addCompareSelect (r := r) hf (hi.pm_length ▸ FiniteAt.lt_length hs) hs
            exact ⟨_, (finiteAt_normalise _ _ _).2 hlive⟩
          newest := fun col hcol s v hv => by
            obtain rfl := getLast?_drop_append_singleton hcol
            exact hsurv.defined s ((finiteAt_normalise _ _ _).1 ⟨v, hv⟩)
          chain := hchain }

/-- VIT.STEP keeps the decoder sound (R192): a component more of the received vector, or a completed trellis step. -/
theorem viterbiInv_vitOp (hi : ViterbiInv i) {x : Cpx} {u : VitRegs} {out : List Bool}
    (h : vitOp i.par i.vit x = .ok (u, out)) : ViterbiInv { i with vit := u } := by
  unfold vitOp at h
  split at h
  · cases h
  · rename_i vbuf hw
    obtain ⟨hlt, rfl⟩ := memWrite_inv hw
    have hlen : (i.vit.vbuf.set i.vit.vcnt (some x)).length = i.par.c := by rw [List.length_set, hi.vbuf_length]
    split at h
    · rename_i hmore
      cases h
      exact
        { hi with
          vbuf_length := hlen
          vcnt_lt := .inr hmore
          vbuf_written := hi.vbuf_written.set hlt x }
    · split at h
      · cases h
      · exact viterbiInv_trellisStep hi hlen h

theorem instInv_vitFire (hi : InstInv i) (h : vitFire i = .done j) : InstInv j := by
  obtain ⟨x, rest, u, out, -, hen, -, hop, -, rfl⟩ := fireUnit_done h
  exact instInv_setChannels (instInv_setViterbi hi (viterbiInv_vitOp hi.viterbi hop)) hen _ hi.records

/-! ### The non-coherent demodulator -/

theorem instInv_qdFire (hi : InstInv i) (h : qdFire i = .done j) : InstInv j := by
  obtain ⟨x, rest, u, out, -, hen, -, -, -, rfl⟩ := fireUnit_done h
  exact instInv_setChannels (instInv_setUnconstrained hi i.costas u i.cr i.ldPrev i.obs) hen _ hi.records

theorem storageInv_rrcOp (h : StorageInv i) {v : Scalar} {u out : List Scalar}
    (hop : rrcOp i.par i.rrcDl v = .ok (u, out)) : StorageInv { i with rrcDl := u } := by
  cases hop
  exact { h with rrc_length := (shiftIn_length _ _).trans h.rrc_length }

theorem instInv_rrcFire (hi : InstInv i) (h : rrcFire i = .done j) : InstInv j := by
  obtain ⟨x, rest, u, out, -, hen, -, hop, -, rfl⟩ := fireUnit_done h
  exact instInv_setChannels (instInv_setStorage hi (storageInv_rrcOp hi.storage hop)) hen _ hi.records

theorem instInv_crFire (hi : InstInv i) (h : crFire i = .done j) : InstInv j := by
  obtain ⟨x, rest, u, out, -, hen, -, -, -, rfl⟩ := fireUnit_done h
  exact instInv_setChannels (instInv_setUnconstrained hi i.costas i.qdPrev u i.ldPrev i.obs) hen _ hi.records

/-- TCORR's register holds `DFE_TRAIN_PLEN` bits and its count stops there (R220). -/
theorem storageInv_tcorrOp (h : StorageInv i) {v : Scalar} {u : TcorrRegs} {out : List RLH}
    (hop : tcorrOp i.par i.tcorr v = .ok (u, out)) : StorageInv { i with tcorr := u } := by
  cases hop
  exact
    { h with
      tcorr_cnt := Nat.min_le_right _ _
      tcorr_sr := Nat.mod_lt _ (Nat.two_pow_pos _) }

theorem instInv_tcorrFire (hi : InstInv i) (h : tcorrFire i = .done j) : InstInv j := by
  obtain ⟨x, rest, u, out, -, hen, -, hop, -, rfl⟩ := fireUnit_done h
  exact instInv_setChannels (instInv_setStorage hi (storageInv_tcorrOp hi.storage hop)) hen _ hi.records

/-- An update of the taps keeps their number (R223). -/
@[simp] theorem adaptTaps_length (n : Numerics) (g : Scalar) (w x : List Scalar) :
    (adaptTaps n g w x).length = w.length := by
  induction w generalizing x with
  | nil => simp [adaptTaps]
  | cons a w ih =>
    cases x with
    | nil => simp [adaptTaps]
    | cons b x => simp [adaptTaps, ih]

/-- R223's body keeps the sizes of the taps and delay lines, and the training count stops at the sequence's end. -/
theorem storageInv_dfeBody {u : DfeRegs} (h : StorageInv { i with dfe := u }) (v : Scalar) :
    StorageInv { i with dfe := (dfeBody i.par u v).1 } :=
  { h with
    dfe_wf := (adaptTaps_length _ _ _ _).trans h.dfe_wf
    dfe_wb := (adaptTaps_length _ _ _ _).trans h.dfe_wb
    dfe_u := (shiftIn_length _ _).trans h.dfe_u
    dfe_d := (shiftIn_length _ _).trans h.dfe_d
    dfe_tcnt := by
      have htcnt : u.tcnt ≤ i.par.dfeTrainRef.length := h.dfe_tcnt
      show (if u.tcnt < i.par.dfeTrainRef.length then u.tcnt + 1 else u.tcnt) ≤ i.par.dfeTrainRef.length
      split <;> omega }

/-- Clearing the equalizer keeps the sizes (R224). -/
theorem storageInv_dfeCleared (h : StorageInv i) : StorageInv { i with dfe := dfeCleared i.dfe } :=
  { h with
    dfe_wf := List.length_replicate.trans h.dfe_wf
    dfe_wb := List.length_replicate.trans h.dfe_wb
    dfe_u := List.length_replicate.trans h.dfe_u
    dfe_d := List.length_replicate.trans h.dfe_d
    dfe_tcnt := Nat.zero_le _ }

/-- Both operations of the equalizer run R223's body, on its registers or on the cleared ones. -/
theorem instInv_dfeFire {hit : Bool} {regs : ChanInst → DfeRegs} (hi : InstInv i)
    (hregs : StorageInv { i with dfe := regs i })
    (h : dfeFire hit (fun i v => dfeBody i.par (regs i) v) i = .done j) : InstInv j := by
  obtain ⟨x, rest, u, out, -, hen, -, hop, -, rfl⟩ := fireUnit_done h
  cases hop
  exact instInv_setChannels (instInv_setStorage hi (storageInv_dfeBody hregs x.v)) hen _ hi.records

theorem instInv_sliceFire (hi : InstInv i) (h : sliceFire i = .done j) : InstInv j := by
  unfold sliceFire at h
  split at h
  · obtain ⟨x, rest, u, out, -, hen, -, -, -, rfl⟩ := fireUnit_done h
    exact instInv_setChannels hi hen _ hi.records
  · obtain ⟨x, rest, u, out, -, hen, -, -, -, rfl⟩ := fireUnit_done h
    exact instInv_setChannels hi hen _ hi.records

/-! ### The line decoder and the frame delimiter -/

theorem instInv_diffFire {b : Bool} (hi : InstInv i) (h : diffFire b i = .done j) : InstInv j := by
  obtain ⟨x, rest, u, out, -, hen, -, -, -, rfl⟩ := fireUnit_done h
  exact instInv_setChannels (instInv_setUnconstrained hi i.costas i.qdPrev i.cr u i.obs) hen _ hi.records

theorem instInv_invFire {b : Bool} (hi : InstInv i) (h : invFire b i = .done j) : InstInv j := by
  obtain ⟨x, rest, u, out, -, hen, -, -, -, rfl⟩ := fireUnit_done h
  exact instInv_setChannels hi hen _ hi.records

theorem instInv_corrFire {b : Bool} (hi : InstInv i) (h : corrFire b i = .done j) : InstInv j := by
  obtain ⟨x, rest, u, out, -, hen, -, hop, -, rfl⟩ := fireUnit_done h
  cases hop
  have hbits : BitUnitsInv { i with fd := fdNext i.par i.fd x } :=
    { hi.bits with
      pos_lt := Nat.mod_lt _ (Nat.two_pow_pos _)
      cnt_le := Nat.min_le_right _ _ }
  exact instInv_setChannels (instInv_setUnconstrained (instInv_setBitUnits hi hbits) i.costas i.qdPrev i.cr i.ldPrev
    (reportTags i.obs (tagBit i.fd b) i.fd.pos)) hen _ hi.records

/-- The registers of GATE with a new age within its range. -/
theorem bitUnitsInv_setAge (h : BitUnitsInv i) {age : Nat} (hage : age ≤ i.par.window + 1) :
    BitUnitsInv { i with gate := { i.gate with age := age } } :=
  { h with age_le := hage }

/-- Dropping the oldest of a full line and writing the newest leaves the line written. -/
theorem writtenBelow_drop_append {α : Type} {buf : Buffer α} {n : Nat} (hlen : buf.length = n + 1)
    (h : WrittenBelow buf (n + 1)) (v : α) : WrittenBelow (buf.drop 1 ++ [some v]) (n + 1) := by
  intro k hk
  by_cases hlast : k = n
  · exact ⟨v, by simp [hlast, hlen]⟩
  · obtain ⟨w, hw⟩ := h (1 + k) (by omega)
    exact ⟨w, by rw [List.getElem?_append_left (by simp [hlen]; omega), List.getElem?_drop, hw]⟩

/-- The hold-back line stays written below its count (R256): a bit more in a line that is not full, and in a full one the
oldest bit leaves. -/
theorem bitUnitsInv_hold {g u : GateRegs} (hg : BitUnitsInv { i with gate := g }) {b : Bool} {out : List FT2}
    (h : hold g b = .ok (u, out)) : BitUnitsInv { i with gate := u } := by
  unfold hold at h
  split at h
  · split at h
    · rename_i hfull
      have hlen := hg.hb_length
      have hwritten := hg.hb_written
      simp only [hfull] at hlen hwritten
      split at h
      · cases h
      · cases h
        exact
          { hg with
            hb_length := by simp [hlen]
            hb_written := by
              simp only [hfull]
              exact writtenBelow_drop_append hlen hwritten b }
    · rename_i hfew
      split at h
      · cases h
      · rename_i hb hw
        obtain ⟨hlt, rfl⟩ := memWrite_inv hw
        cases h
        exact
          { hg with
            hbc_le := Nat.lt_of_le_of_ne hg.hbc_le hfew
            hb_length := by simpa using hg.hb_length
            hb_written := WrittenBelow.set hg.hb_written hlt b }
  · cases h
    exact hg

/-- The age of R256 does not pass `W + 1`. -/
theorem ageNext_le (p : Params) (age : Nat) : ageNext p age ≤ p.window + 1 := Nat.min_le_right _ _

theorem flagAge_le (p : Params) (u : GateRegs) (preamble : Bool) : flagAge p u preamble ≤ p.window + 1 := by
  unfold flagAge
  split
  · exact Nat.zero_le _
  · exact ageNext_le _ _

theorem bitUnitsInv_gateDataOp (hi : BitUnitsInv i) {b : Bool} {u : GateRegs} {out : List FT2}
    (h : gateDataOp i.par i.gate b = .ok (u, out)) : BitUnitsInv { i with gate := u } :=
  bitUnitsInv_hold (bitUnitsInv_setAge hi (ageNext_le _ _)) h

theorem bitUnitsInv_gatePreOp (hi : BitUnitsInv i) {b : Bool} {u : GateRegs} {out : List FT2}
    (h : gatePreOp i.gate b = .ok (u, out)) : BitUnitsInv { i with gate := u } :=
  bitUnitsInv_hold (bitUnitsInv_setAge hi (Nat.zero_le _)) h

/-- GATE.FLAG empties the hold-back line (R258). -/
theorem bitUnitsInv_gateFlagOp (hi : BitUnitsInv i) {preamble : Bool} {u : GateRegs} {out : List FT2}
    (h : gateFlagOp i.par i.gate preamble = .ok (u, out)) : BitUnitsInv { i with gate := u } := by
  cases h
  exact
    { hi with
      age_le := flagAge_le _ _ _
      hbc_le := Nat.zero_le _
      hb_written := writtenBelow_zero _ }

/-- A firing of GATE keeps an instance sound when its operation keeps the bit-level units sound. -/
theorem instInv_gateFire {tok : T3} {op : ChanInst → Except Fault (GateRegs × List FT2)} (hi : InstInv i)
    (hop : ∀ {u out}, op i = .ok (u, out) → BitUnitsInv { i with gate := u }) (h : gateFire tok op i = .done j) :
    InstInv j := by
  obtain ⟨x, rest, u, out, -, hen, -, hok, -, rfl⟩ := fireUnit_done h
  exact instInv_setChannels (instInv_setBitUnits hi (hop hok)) hen _ hi.records

/-! ### The destuffer and the frame parser -/

theorem dstfStep_le (ones : Nat) (t : FT2) : (dstfStep ones t).1 ≤ 5 := by
  rcases t with (_ | _) | _ | _ <;> simp [dstfStep]

theorem instInv_dstfFire {tok : FT2} (hi : InstInv i) (h : dstfFire tok i = .done j) : InstInv j := by
  obtain ⟨x, rest, u, out, -, hen, -, hop, -, rfl⟩ := fireUnit_done h
  have hones : u ≤ 5 := by
    simpa only [Except.ok.inj hop] using dstfStep_le i.dstfOnes x
  have hbits : BitUnitsInv { i with dstfOnes := u } := { hi.bits with ones_le := hones }
  exact instInv_setChannels (instInv_setBitUnits hi hbits) hen _ hi.records

/-- FRM.SOF starts an empty frame (R282). -/
theorem bitUnitsInv_frmSofRegs (hi : BitUnitsInv i) : BitUnitsInv { i with frm := frmSofRegs i.frm } :=
  { hi with
    flen_le := Nat.zero_le _
    fb_written := writtenBelow_zero _
    crc_over := by simp [frmSofRegs, crcRun]
    ovf_active := fun h => by simp [frmSofRegs] at h }

theorem instInv_frmSofFire (hi : InstInv i) (h : frmSofFire i = .done j) : InstInv j := by
  obtain ⟨x, rest, u, out, -, hen, -, hop, -, rfl⟩ := fireUnit_done h
  cases hop
  exact instInv_setChannels (instInv_setBitUnits hi (bitUnitsInv_frmSofRegs hi.bits)) hen _ hi.records

/-- One bit more of a frame. -/
theorem heldBits_set {fb : Buffer Bool} {n : Nat} (h : n < fb.length) (b : Bool) :
    heldBits (fb.set n (some b)) (n + 1) = heldBits fb n ++ [b] := by
  simp [heldBits, List.take_add_one, List.take_set_of_le (le_refl n), h]

/-- FRM.BIT keeps the frame buffer written below its length and the CRC register over the frame's bits (R283, R285). -/
theorem bitUnitsInv_frmBitOp (hi : BitUnitsInv i) {b : Bool} {u : FrmRegs} {l : List Event}
    (h : frmBitOp i b = .ok (u, l)) : BitUnitsInv { i with frm := u } := by
  unfold frmBitOp at h
  split at h
  · rename_i hact
    obtain ⟨hactive, hovf⟩ := Bool.and_eq_true_iff.1 hact
    unfold frmStore at h
    split at h
    · cases h
      exact { hi with ovf_active := fun _ => ⟨hactive, ‹_›⟩ }
    · rename_i hfew
      split at h
      · cases h
      · rename_i fb hw
        obtain ⟨hlt, rfl⟩ := memWrite_inv hw
        cases h
        exact
          { hi with
            flen_le := Nat.lt_of_le_of_ne hi.flen_le hfew
            fb_length := List.length_set.trans hi.fb_length
            fb_written := hi.fb_written.set hlt b
            crc_over := by
              show crcStep i.frm.crc b = crcRun crcInit (heldBits (i.frm.fb.set i.frm.flen (some b)) (i.frm.flen + 1))
              rw [heldBits_set hlt, crcRun_snoc, ← hi.crc_over]
            ovf_active := fun h => absurd h (by simpa using hovf) }
  · cases h
    exact hi

theorem instInv_frmBitFire {b : Bool} (hi : InstInv i) (h : frmBitFire b i = .done j) : InstInv j := by
  obtain ⟨x, rest, ⟨u, l⟩, out, -, hen, -, hop, -, rfl⟩ := fireUnit_done h
  cases hb : frmBitOp i b with
  | error f => simp [hb, Except.map] at hop
  | ok r =>
    simp only [hb, Except.map, Except.ok.injEq, Prod.mk.injEq] at hop
    obtain ⟨rfl, -⟩ := hop
    exact instInv_setChannels (instInv_setUnconstrained (instInv_setBitUnits hi (bitUnitsInv_frmBitOp hi.bits hb))
      i.costas i.qdPrev i.cr i.ldPrev (i.obs.emitDiag l)) hen _ hi.records

/-- The record of an accepted frame is sound (R284, R292). -/
theorem recordOk_makeRecord (r : CfgRec) (payload : List Bool) : RecordOk (makeRecord r payload) := by
  simp +contextual [RecordOk, makeRecord]

/-- What EOF makes of a frame is a sound record, if any (R284). -/
theorem recordOk_of_frmClose {rs : List Rec} {l : List Event} (h : frmClose i = .ok (rs, l)) : ∀ r ∈ rs, RecordOk r := by
  unfold frmClose at h
  split at h
  · split at h
    · cases h
    · cases h
      exact fun r hr => List.mem_singleton.1 hr ▸ recordOk_makeRecord _ _
  · cases h
    exact fun r hr => absurd hr List.not_mem_nil

/-- All FRM.EOF can do: it closes the frame and hands over sound records. -/
theorem frmEofOp_cases {u : FrmRegs × List Event} {rs : List Rec} (h : frmEofOp i = .ok (u, rs)) :
    u.1 = { i.frm with active := false, ovf := false } ∧ ∀ r ∈ rs, RecordOk r := by
  unfold frmEofOp at h
  split at h
  · split at h
    · cases h
    · cases h
      exact ⟨rfl, recordOk_of_frmClose ‹_›⟩
  · cases h
    exact ⟨rfl, fun r hr => absurd hr List.not_mem_nil⟩

theorem instInv_frmEofFire (hi : InstInv i) (h : frmEofFire i = .done j) : InstInv j := by
  obtain ⟨x, rest, ⟨u, l⟩, out, -, hen, -, hop, -, rfl⟩ := fireUnit_done h
  obtain ⟨rfl, hout⟩ := frmEofOp_cases hop
  have hbits : BitUnitsInv { i with frm := { i.frm with active := false, ovf := false } } :=
    { hi.bits with ovf_active := fun h => by cases h }
  exact instInv_setChannels (instInv_setUnconstrained (instInv_setBitUnits hi hbits) i.costas i.qdPrev i.cr i.ldPrev
    (i.obs.emitDiag l)) hen _ fun r hr => (List.mem_append.1 hr).elim (hi.records r) (hout r)

end Sys2Proof.Proofs.Invariant
end

section
/-! SUPPORT. Every step keeps the receiver sound: the rules of the receiver's fields, the system and queue operations, and
one step (00_scope.md R9). -/

namespace Sys2Proof.Proofs.Invariant

open Sys2Proof Sys2Proof.Machine

variable {s t : State} {c : Chan}

/-! ### The receiver's fields -/

theorem inv_inst (hs : Inv s) (c : Chan) : InstInv (s.inst c) := by
  cases c with
  | a => exact hs.a
  | b => exact hs.b

theorem inv_setInst (hs : Inv s) {i : ChanInst} (hi : InstInv i) : Inv (s.setInst c i) := by
  cases c with
  | a => exact { hs with a := hi }
  | b => exact { hs with b := hi }

theorem inv_setOffers (hs : Inv s) (c : Chan) (l : List Cpx) : Inv (s.setOffers c l) := by
  cases c with
  | a => exact { hs with }
  | b => exact { hs with }

theorem inv_onTarget (hs : Inv s) {f : ChanInst → ChanInst} (hf : ∀ {i}, InstInv i → InstInv (f i)) (g : Target) :
    Inv (onTarget g f s) := by
  cases g with
  | chan c => exact inv_setInst hs (hf (inv_inst hs c))
  | receiver => exact { hs with a := hf hs.a, b := hf hs.b }

/-- A firing that keeps instances sound keeps the receiver sound. -/
theorem inv_onInst (hs : Inv s) {f : ChanInst → Fire ChanInst}
    (hf : ∀ {i j}, InstInv i → f i = .done j → InstInv j) (h : onInst c f s = .next t) : Inv t := by
  rcases onInst_next h with ⟨-, rfl⟩ | ⟨j, hj, rfl⟩
  · exact hs
  · exact inv_setInst hs (hf (inv_inst hs c) hj)

/-- A signal whose change keeps the receiver sound. -/
theorem inv_takeSignal (hs : Inv s) {g : Signal} {k : State → State} (hk : ∀ {u : State}, Inv u → Inv (k u))
    (h : takeSignal g k s = .next t) : Inv t := by
  rcases takeSignal_cases h with rfl | ⟨rest, -, rfl⟩
  · exact hs
  · exact hk { hs with }

/-! ### System and queue operations -/

/-- Both resets restore sound instances (R380, R381). -/
theorem inv_applyReset (hs : Inv s) (g : Target) : Inv (applyReset g s) := by
  cases g with
  | chan c => exact inv_setInst hs (instInv_reset _ _)
  | receiver =>
    exact
      { hs with
        a := instInv_reset _ _
        b := instInv_reset _ _
        queued := fun _ h => absurd h List.not_mem_nil }

theorem inv_execCfgLoad (hs : Inv s) (h : execCfgLoad c s = .next t) : Inv t := by
  unfold execCfgLoad at h
  split at h
  · rename_i c' r rest _
    have hrest : Inv { s with signals := rest } := { hs with }
    split at h <;> cases h
    · exact inv_setInst hrest (instInv_loadInst (inv_inst hs c) r)
    · exact hs
  · cases h
    exact hs

/-- An accepted sample finds the units enabled (R314). -/
theorem enabled_of_sampleEnabled {i : ChanInst} (h : sampleEnabled i = true) : unitsEnabled i = true := by
  obtain ⟨hlc, -⟩ := Bool.and_eq_true_iff.1 h
  exact unitsEnabled_iff.2 (.inl (by simpa using hlc))

theorem inv_execSrcSample (hs : Inv s) (h : execSrcSample c s = .next t) : Inv t := by
  unfold execSrcSample at h
  split at h
  · cases h
    exact hs
  · split at h <;> cases h
    · have hi := inv_inst hs c
      exact inv_setInst (inv_setOffers hs c _) (instInv_setChannels hi (enabled_of_sampleEnabled ‹_›) _ hi.records)
    · exact hs

/-- Q.POP hands the consumer a sound record (R322). -/
theorem inv_execQPop (hs : Inv s) (h : execQPop s = .next t) : Inv t := by
  unfold execQPop at h
  split at h <;> cases h
  · rename_i rest r q' _ hq
    have hqueued := hs.queued
    rw [hq] at hqueued
    exact
      { hs with
        queued := fun x hx => hqueued x (List.mem_cons_of_mem r hx)
        delivered := fun x hx => (List.mem_append.1 hx).elim (hs.delivered x)
          fun hx => List.mem_singleton.1 hx ▸ hqueued r List.mem_cons_self }
  · exact hs

theorem inv_execQEmpty (hs : Inv s) (h : execQEmpty s = .next t) : Inv t := by
  unfold execQEmpty at h
  split at h <;> cases h
  · exact { hs with }
  · exact hs

/-- OUT.PUSH moves a sound record from `R_OUT` to Q (R293). -/
theorem inv_execOutPush (hs : Inv s) (h : execOutPush c s = .next t) : Inv t := by
  have hi := inv_inst hs c
  have hrecords := hi.records
  unfold execOutPush at h
  split at h
  · cases h
    exact hs
  · rename_i r rest hr
    rw [hr] at hrecords
    split at h <;> cases h
    · rename_i hen
      obtain ⟨hen, -⟩ := Bool.and_eq_true_iff.1 hen
      have hq : Inv { s with q := s.q ++ [r] } :=
        { hs with
          queued := fun x hx => (List.mem_append.1 hx).elim (hs.queued x)
            fun hx => List.mem_singleton.1 hx ▸ hrecords r List.mem_cons_self }
      exact inv_setInst hq (instInv_setChannels hi hen _ fun x hx => hrecords x (List.mem_cons_of_mem r hx))
    · exact hs

/-! ### Every operation -/

/-- Every operation keeps the receiver sound. -/
theorem inv_exec (hs : Inv s) {op : Instr} (h : exec op s = .next t) : Inv t := by
  cases op with
  | sysReset g => exact inv_takeSignal hs (fun hu => inv_applyReset hu g) h
  | cfgLoad c => exact inv_execCfgLoad hs h
  | sysStart g => exact inv_takeSignal hs (fun hu => inv_onTarget hu instInv_startInst g) h
  | sysStop g => exact inv_takeSignal hs (fun hu => inv_onTarget hu instInv_drainInst g) h
  | srcSample c => exact inv_execSrcSample hs h
  | srcEos g => exact inv_takeSignal hs (fun hu => inv_onTarget hu instInv_drainInst g) h
  | sysDrained c => exact inv_onInst hs instInv_drainedInst h
  | qPop => exact inv_execQPop hs h
  | qEmpty => exact inv_execQEmpty hs h
  | outPush c => exact inv_execOutPush hs h
  | csStep c => exact inv_onInst hs instInv_csFire h
  | costasStep c => exact inv_onInst hs instInv_costasFire h
  | rsmpStep c => exact inv_onInst hs instInv_rsmpFire h
  | mfStep c => exact inv_onInst hs instInv_mfFire h
  | ilvStep c => exact inv_onInst hs instInv_ilvFire h
  | vitStep c => exact inv_onInst hs instInv_vitFire h
  | qdStep c => exact inv_onInst hs instInv_qdFire h
  | rrcStep c => exact inv_onInst hs instInv_rrcFire h
  | crStep c => exact inv_onInst hs instInv_crFire h
  | tcorrStep c => exact inv_onInst hs instInv_tcorrFire h
  | dfeStep c =>
    exact inv_onInst hs (fun hi => instInv_dfeFire (regs := fun i => i.dfe) hi { hi.storage with }) h
  | dfeRetrain c =>
    exact inv_onInst hs
      (fun hi => instInv_dfeFire (regs := fun i => dfeCleared i.dfe) hi (storageInv_dfeCleared hi.storage)) h
  | sliceStep c => exact inv_onInst hs instInv_sliceFire h
  | diffStep c b => exact inv_onInst hs instInv_diffFire h
  | invStep c b => exact inv_onInst hs instInv_invFire h
  | corrStep c b => exact inv_onInst hs instInv_corrFire h
  | gateData c b => exact inv_onInst hs (fun hi => instInv_gateFire hi (bitUnitsInv_gateDataOp hi.bits)) h
  | gatePre c b => exact inv_onInst hs (fun hi => instInv_gateFire hi (bitUnitsInv_gatePreOp hi.bits)) h
  | gateFlag c p b => exact inv_onInst hs (fun hi => instInv_gateFire hi (bitUnitsInv_gateFlagOp hi.bits)) h
  | dstfBit c b => exact inv_onInst hs instInv_dstfFire h
  | dstfSof c => exact inv_onInst hs instInv_dstfFire h
  | dstfEof c => exact inv_onInst hs instInv_dstfFire h
  | frmBit c b => exact inv_onInst hs instInv_frmBitFire h
  | frmSof c => exact inv_onInst hs instInv_frmSofFire h
  | frmEof c => exact inv_onInst hs instInv_frmEofFire h

/-! ### One step -/

theorem inv_nextTurn (hs : Inv s) : Inv (nextTurn s).2 := by
  unfold nextTurn
  split
  · exact { hs with }
  · exact { hs with }

theorem inv_idleTurn (hs : Inv s) (g : Turn) : Inv (idleTurn g s) := by
  cases g with
  | withdraw c => exact inv_setOffers hs c _
  | unit c u => exact hs
  | controller => exact hs
  | source c => exact hs
  | consumer => exact hs

theorem inv_runTurn (hs : Inv s) {g : Turn} (h : runTurn g s = .next t) : Inv t := by
  unfold runTurn at h
  split at h
  · cases h
    exact inv_idleTurn hs g
  · split at h
    · cases h
    · exact inv_exec hs h

/-- Settles O36: using up a turn touches no field of `Inv`, and the move is an idle turn or an operation, each of which
keeps the receiver sound. -/
theorem stepKeepsInvariant : Obligations.StepKeepsInvariant :=
  fun _ _ hs h => inv_runTurn (inv_nextTurn hs) h

end Sys2Proof.Proofs.Invariant
end

section
/-! SUPPORT. What an operation can do to the records delivered and queued (20_memory.md R80, R83, 47_frame_parser_crc.md
R298), said once over all operations (`exec_queueEffect`): first in, first out is a case analysis of it. -/

namespace Sys2Proof.Proofs.Queue

open Sys2Proof Sys2Proof.Machine

variable {op : Instr} {c : Chan} {s t : State}

/-! ### Changes that keep the records -/

/-- The records queued and delivered in `t` are those in `s`. -/
structure SameRecords (s t : State) : Prop where
  q : t.q = s.q
  popped : t.popped = s.popped

theorem SameRecords.refl (s : State) : SameRecords s s := ⟨rfl, rfl⟩

theorem sameRecords_setInst (s : State) (c : Chan) (i : ChanInst) : SameRecords s (s.setInst c i) :=
  ⟨setInst_q .., setInst_popped ..⟩

theorem sameRecords_onTarget (g : Target) (f : ChanInst → ChanInst) (s : State) : SameRecords s (onTarget g f s) := by
  cases g with
  | chan c => exact sameRecords_setInst s c _
  | receiver => exact ⟨rfl, rfl⟩

/-- A signal whose change keeps the records. -/
theorem sameRecords_takeSignal {g : Signal} {k : State → State} (hk : ∀ u, SameRecords u (k u))
    (h : takeSignal g k s = .next t) : SameRecords s t := by
  rcases takeSignal_cases h with rfl | ⟨rest, -, rfl⟩
  · exact .refl _
  · exact ⟨(hk _).q, (hk _).popped⟩

theorem sameRecords_onInst {f : ChanInst → Fire ChanInst} (h : onInst c f s = .next t) : SameRecords s t := by
  rcases onInst_next h with ⟨-, rfl⟩ | ⟨i, -, rfl⟩
  · exact .refl _
  · exact sameRecords_setInst s c i

theorem sameRecords_execCfgLoad (h : execCfgLoad c s = .next t) : SameRecords s t := by
  unfold execCfgLoad at h
  split at h
  · split at h <;> cases h
    · exact ⟨by simp, by simp⟩
    · exact .refl _
  · cases h
    exact .refl _

theorem sameRecords_execSrcSample (h : execSrcSample c s = .next t) : SameRecords s t := by
  unfold execSrcSample at h
  split at h
  · cases h
    exact .refl _
  · split at h <;> cases h
    · exact ⟨by simp, by simp⟩
    · exact .refl _

theorem sameRecords_execQEmpty (h : execQEmpty s = .next t) : SameRecords s t := by
  unfold execQEmpty at h
  split at h <;> cases h
  · exact ⟨rfl, rfl⟩
  · exact .refl _

/-! ### Every operation -/

/-- What one operation can do to the records: nothing, hand the head of Q to the consumer (R322), append the oldest
record of an instance's `R_OUT` (R293), or empty Q (R381). -/
inductive QueueEffect (op : Instr) (s t : State) : Prop
  | same (h : SameRecords s t)
  | pop (hop : op = .qPop) (r : Rec) (hq : s.q = r :: t.q) (hp : t.popped = s.popped ++ [r])
  | push (c : Chan) (hop : op = .outPush c) (r : Rec) (rest : List Rec) (hs : (s.inst c).ch.rOut = r :: rest)
      (ht : (t.inst c).ch.rOut = rest) (hp : t.popped = s.popped) (hq : t.q = s.q ++ [r])
  | clear (hop : op = .sysReset .receiver) (hq : t.q = []) (hp : t.popped = s.popped)

/-- Only the reset of the whole receiver reaches Q (R381). -/
theorem queueEffect_execSysReset {g : Target} (h : execSysReset g s = .next t) : QueueEffect (.sysReset g) s t := by
  cases g with
  | chan c => exact .same (sameRecords_takeSignal (fun u => sameRecords_setInst u c _) h)
  | receiver =>
    rcases takeSignal_cases h with rfl | ⟨rest, -, rfl⟩
    · exact .same (.refl _)
    · exact .clear rfl rfl rfl

theorem queueEffect_execQPop (h : execQPop s = .next t) : QueueEffect .qPop s t := by
  unfold execQPop at h
  split at h <;> cases h
  · exact .pop rfl _ ‹_› rfl
  · exact .same (.refl _)

/-- A unit operation writes its instance, and OUT.PUSH also Q. -/
theorem queueEffect_unit (hu : unitOpChan op = some c) (h : exec op s = .next t) : QueueEffect op s t := by
  rcases unit_next hu h with rfl | ⟨j, -, rfl | ⟨hop, r, rest, hr, rfl, rfl⟩⟩
  · exact .same (.refl _)
  · exact .same (sameRecords_setInst s c j)
  · exact .push c hop r rest hr (by simp) (by simp) (by simp)

/-- The effect of any operation on the records. -/
theorem exec_queueEffect (h : exec op s = .next t) : QueueEffect op s t := by
  cases hu : unitOpChan op with
  | some c => exact queueEffect_unit hu h
  | none =>
    cases op <;> simp only [unitOpChan, reduceCtorEq] at hu
    case sysReset g => exact queueEffect_execSysReset h
    case cfgLoad c => exact .same (sameRecords_execCfgLoad h)
    case sysStart g => exact .same (sameRecords_takeSignal (sameRecords_onTarget g _) h)
    case sysStop g => exact .same (sameRecords_takeSignal (sameRecords_onTarget g _) h)
    case srcSample c => exact .same (sameRecords_execSrcSample h)
    case srcEos g => exact .same (sameRecords_takeSignal (sameRecords_onTarget g _) h)
    case sysDrained c => exact .same (sameRecords_onInst h)
    case qPop => exact queueEffect_execQPop h
    case qEmpty => exact .same (sameRecords_execQEmpty h)

/-- Settles O45: a pop moves the head of Q to the end of the delivered records, so their concatenation stays; the two other
changes of the records are OUT.PUSH and the receiver's reset. -/
theorem queueIsFirstInFirstOut : Obligations.QueueIsFirstInFirstOut := by
  intro op s t h
  cases exec_queueEffect h with
  | same h => exact .inl (by rw [h.popped, h.q])
  | pop _ r hq hp => exact .inl (by rw [hp, hq, List.append_assoc, List.singleton_append])
  | push c hop r rest hs ht hp hq => exact .inr (.inr ⟨c, r, rest, hop, hs, ht, hp, hq⟩)
  | clear hop hq hp => exact .inr (.inl ⟨hop, hq, hp⟩)

end Sys2Proof.Proofs.Queue
end

section
/-! SUPPORT. Decoding and encoding are inverse (30_encoding.md R100, R114): byte 1 and the trigger and target it names
determine each other, a token's byte and the token determine each other (R103 to R105), and an operation is the one
that the trigger, target and token of its own word select. -/

namespace Sys2Proof.Proofs.Encoding

open Sys2Proof Sys2Proof.Proofs.Scope

/-! ### Byte 1: the trigger and the target -/

theorem code_of_triggerOfCode {n : Nat} {tr : Trigger} (h : triggerOfCode n = some tr) : tr.code = n := by
  unfold triggerOfCode at h
  split at h <;> cases h <;> rfl

theorem code_of_targetOfCode {n : Nat} {t : Target} (h : targetOfCode n = some t) : t.code = n := by
  unfold targetOfCode at h
  split at h <;> cases h <;> rfl

/-- With its reserved bit clear, byte 1 holds nothing but the numbers of the trigger and of the target. -/
theorem selector_of_codes {sel : Byte} {tr : Trigger} {t : Target} (hres : sel.getLsbD 5 = false)
    (htr : triggerOfCode (sel.toNat % 32) = some tr) (ht : targetOfCode (sel.toNat / 64) = some t) :
    sel = BitVec.ofNat 8 (tr.code + 64 * t.code) := by
  have hbit : sel.toNat / 32 % 2 = 0 := by
    simpa only [← BitVec.testBit_toNat, Nat.testBit_eq_decide_div_mod_eq, decide_eq_false_iff_not,
      Nat.mod_two_not_eq_one] using hres
  rw [code_of_triggerOfCode htr, code_of_targetOfCode ht]
  apply BitVec.eq_of_toNat_eq
  rw [BitVec.toNat_ofNat]
  omega

/-- The words that decode are those of `opWord`, and the operation is what the trigger and the token select (R100). -/
theorem decode_eq_ok_iff_opWord {bs rest : List Byte} {i : Instr} :
    decode bs = .ok (i, rest) ↔ ∃ tr t w, bs = opWord tr t w ++ rest ∧ selectOp tr t w = .ok i := by
  constructor
  · intro h
    unfold decode at h
    split at h
    case h_2 => cases h
    case h_1 w sel tail =>
      split at h
      case isTrue => cases h
      case isFalse hres =>
        split at h
        case h_1 => cases h
        case h_2 => cases h
        case h_3 tr t htr ht =>
          split at h
          case h_1 => cases h
          case h_2 j hsel =>
            cases h
            exact ⟨tr, t, w, by rw [selector_of_codes (by simpa using hres) htr ht]; rfl, hsel⟩
  · rintro ⟨tr, t, w, rfl, hsel⟩
    obtain ⟨hres, htr, ht⟩ := opWord_selector tr t
    simp only [opWord, List.cons_append, List.nil_append, decode, hres, htr, ht, hsel, Bool.false_eq_true, if_false]

/-! ### Byte 0: the token -/

/-- Format B1 (R103) has no second reading. -/
theorem bitByte_of_byteBit {w : Byte} {b : Bool} (h : byteBit w = some b) : w = bitByte b := by
  have all : ∀ w : Byte, ∀ b ∈ byteBit w, w = bitByte b := by decide
  exact all w b h

/-- Format T3 (R104) has no second reading. -/
theorem t3Byte_of_byteT3 {w : Byte} {t : T3} (h : byteT3 w = some t) : w = t3Byte t := by
  have all : ∀ w : Byte, ∀ t ∈ byteT3 w, w = t3Byte t := by decide
  exact all w t h

/-- Format FT2 (R105) has no second reading. -/
theorem ft2Byte_of_byteFT2 {w : Byte} {t : FT2} (h : byteFT2 w = some t) : w = ft2Byte t := by
  have all : ∀ w : Byte, ∀ t ∈ byteFT2 w, w = ft2Byte t := by decide
  exact all w t h

/-! ### The operation selected -/

theorem onChan_eq_ok {t : Target} {mk : Chan → Instr} {i : Instr} :
    onChan t mk = .ok i ↔ ∃ c, t = .chan c ∧ mk c = i := by
  cases t <;> simp [onChan]

theorem onToken_eq_ok {τ : Type} {t : Target} {tok : Option τ} {mk : Chan → τ → Instr} {i : Instr} :
    onToken t tok mk = .ok i ↔ ∃ c x, t = .chan c ∧ tok = some x ∧ mk c x = i := by
  cases tok <;> simp [onToken, onChan_eq_ok]

theorem noBits_eq_ok {w : Byte} {r : Except DecodeError Instr} {i : Instr} :
    noBits w r = .ok i ↔ w = 0 ∧ r = .ok i := by
  unfold noBits
  split
  case isTrue h0 => simp only [h0, true_and]
  case isFalse h0 => simp only [h0, false_and, reduceCtorEq]

/-- The word of an operation that a token of bits selects, from the word of each token. -/
theorem encode_of_onToken {τ : Type} {tr : Trigger} {t : Target} {w : Byte} {i : Instr} {read : Byte → Option τ}
    {bits : τ → Byte} {mk : Chan → τ → Instr} (hbits : ∀ {x}, read w = some x → w = bits x)
    (hword : ∀ c x, encode (mk c x) = opWord tr (.chan c) (bits x)) (h : onToken t (read w) mk = .ok i) :
    encode i = opWord tr t w := by
  obtain ⟨c, x, rfl, hx, rfl⟩ := onToken_eq_ok.1 h
  rw [hword, ← hbits hx]

/-- The word of a channel's operation whose token carries no bits. -/
theorem encode_of_noBits_onChan {tr : Trigger} {t : Target} {w : Byte} {i : Instr} {mk : Chan → Instr}
    (hword : ∀ c, encode (mk c) = opWord tr (.chan c) 0) (h : noBits w (onChan t mk) = .ok i) :
    encode i = opWord tr t w := by
  obtain ⟨rfl, hi⟩ := noBits_eq_ok.1 h
  obtain ⟨c, rfl, rfl⟩ := onChan_eq_ok.1 hi
  exact hword c

/-- The word of a host signal's operation, which any target can have. -/
theorem encode_of_noBits_ok {tr : Trigger} {t : Target} {w : Byte} {i : Instr} {mk : Target → Instr}
    (hword : ∀ g, encode (mk g) = opWord tr g 0) (h : noBits w (.ok (mk t)) = .ok i) : encode i = opWord tr t w := by
  obtain ⟨rfl, hi⟩ := noBits_eq_ok.1 h
  cases hi
  exact hword t

/-- The word of a consumer's operation, which only the receiver has. -/
theorem encode_of_noBits_receiver {tr : Trigger} {t : Target} {w : Byte} {i j : Instr}
    (hword : encode j = opWord tr .receiver 0)
    (h : noBits w (if t = .receiver then .ok j else .error .badTarget) = .ok i) : encode i = opWord tr t w := by
  obtain ⟨rfl, hi⟩ := noBits_eq_ok.1 h
  split at hi <;> cases hi
  subst t
  exact hword

/-- A tagged bit is the token of the operation of GATE it selects, all eight codes of R104 included (R115(a)). -/
theorem encode_selectGate (c : Chan) (t : T3) : encode (selectGate c t) = opWord .tb (.chan c) (t3Byte t) := by
  obtain ⟨f, p, b⟩ := t
  cases f
  case true => rfl
  case false => cases p <;> rfl

theorem encode_selectDstf (c : Chan) (t : FT2) : encode (selectDstf c t) = opWord .ft (.chan c) (ft2Byte t) := by
  cases t <;> rfl

theorem encode_selectFrm (c : Chan) (t : FT2) : encode (selectFrm c t) = opWord .fd2 (.chan c) (ft2Byte t) := by
  cases t <;> rfl

theorem encode_selectDfe (c : Chan) (hit : Bool) : encode (selectDfe c hit) = opWord .n4 (.chan c) (bitByte hit) := by
  cases hit <;> rfl

/-- No bit of a word is dropped: what a trigger, target and token select is encoded by that trigger, target and
token. -/
theorem encode_of_selectOp {tr : Trigger} {t : Target} {w : Byte} {i : Instr} (h : selectOp tr t w = .ok i) :
    encode i = opWord tr t w := by
  cases tr
  case tb => exact encode_of_onToken t3Byte_of_byteT3 encode_selectGate h
  case ft => exact encode_of_onToken ft2Byte_of_byteFT2 encode_selectDstf h
  case fd2 => exact encode_of_onToken ft2Byte_of_byteFT2 encode_selectFrm h
  case n4 => exact encode_of_onToken bitByte_of_byteBit encode_selectDfe h
  case hb | l1 | l2 => exact encode_of_onToken bitByte_of_byteBit (fun _ _ => rfl) h
  case reset | start | stop | eos => exact encode_of_noBits_ok (fun _ => rfl) h
  case pop | empty => exact encode_of_noBits_receiver rfl h
  all_goals exact encode_of_noBits_onChan (fun _ => rfl) h

/-- Every operation is selected by the trigger, target and token of its own word. -/
theorem exists_selectOp (i : Instr) : ∃ tr t w, encode i = opWord tr t w ∧ selectOp tr t w = .ok i := by
  cases i
  case diffStep | invStep | corrStep | gateData | gatePre | gateFlag | dstfBit | frmBit =>
    exact ⟨_, _, _, rfl, by simp [selectOp, onToken, onChan, selectGate, selectDstf, selectFrm]⟩
  all_goals exact ⟨_, _, _, rfl, rfl⟩

/-! ### Both ways -/

/-- The words that decode to an operation are its encoding, whatever follows. -/
theorem decode_eq_ok_iff {bs rest : List Byte} {i : Instr} :
    decode bs = .ok (i, rest) ↔ bs = encode i ++ rest := by
  constructor
  · intro h
    obtain ⟨tr, t, w, rfl, hsel⟩ := decode_eq_ok_iff_opWord.1 h
    rw [encode_of_selectOp hsel]
  · rintro rfl
    obtain ⟨tr, t, w, hword, hsel⟩ := exists_selectOp i
    exact decode_eq_ok_iff_opWord.2 ⟨tr, t, w, by rw [hword], hsel⟩

/-- Settles O4: both directions of `decode_eq_ok_iff`. -/
theorem decodeEncodeBothWays : Obligations.DecodeEncodeBothWays :=
  ⟨fun _ _ => decode_eq_ok_iff.2 rfl, fun _ _ _ => decode_eq_ok_iff.1⟩

theorem decode_encode (i : Instr) : decode (encode i) = .ok (i, []) :=
  decode_eq_ok_iff.2 (List.append_nil _).symm

/-- Settles O1: each of the words is the encoding of the operation named. -/
theorem decodeOfSpecWords : Obligations.DecodeOfSpecWords :=
  ⟨decode_encode (.gateData .a false), decode_encode (.gateData .b true), decode_encode (.gatePre .a false),
    decode_encode (.gateFlag .b false false), decode_encode (.gateFlag .a true true),
    decode_encode (.dstfBit .a true), decode_encode (.dstfSof .a), decode_encode (.dstfEof .b),
    decode_encode (.frmBit .a false), decode_encode (.frmSof .b), decode_encode (.frmEof .a),
    decode_encode (.dfeStep .a), decode_encode (.dfeRetrain .b), decode_encode (.diffStep .a true),
    decode_encode (.sysReset .receiver)⟩

end Sys2Proof.Proofs.Encoding
end

section
/-! SUPPORT. The carrier estimator (40_carrier_sync.md R131 to R138): what CS.STEP makes of one token, of the token that
completes a block, and of a whole sequence of samples; and the collecting of VIT.STEP (42_viterbi.md R192), which has the
same form. -/

namespace Sys2Proof.Proofs.Carrier

open Sys2Proof Sys2Proof.Machine

/-! ### Collecting -/

/-- A sample that does not complete a block is stored (R131). -/
theorem csOp_collects {p : Params} {r : CfgRec} {u : CsRegs} (hfill : u.fill + 1 < r.fftlen.toNat)
    (hbuf : u.fill < u.buf.length) (x : Cpx) :
    csOp p r u x = .ok ({ u with buf := u.buf.set u.fill (some x), fill := u.fill + 1 }, []) := by
  simp only [csOp, memWrite_ok _ _ _ _ hbuf, if_pos hfill]

/-- A value that does not complete a received vector is stored (R192). -/
theorem vitOp_collects {p : Params} {u : VitRegs} (hcnt : u.vcnt + 1 < p.c) (hbuf : u.vcnt < u.vbuf.length) (x : Cpx) :
    vitOp p u x = .ok ({ u with vbuf := u.vbuf.set u.vcnt (some x), vcnt := u.vcnt + 1 }, []) := by
  simp only [vitOp, memWrite_ok _ _ _ _ hbuf, if_pos hcnt]

/-- Settles O15: both units fire with the collecting case of their operation, which emits nothing. -/
theorem partialWorkIsCollected : Obligations.PartialWorkIsCollected := by
  intro c s x rest hen i
  constructor
  · intro hin hlen hfill hroom
    exact onInst_done (fireUnit_eq _ [] hin hen rfl (csOp_collects hfill (by omega) x) (.inl hroom)
      (by rw [List.append_nil]))
  · intro hcoh hin hlen hcnt hroom
    exact onInst_done (fireUnit_eq _ [] hin hen hcoh (vitOp_collects hcnt (by omega) x) (.inl hroom)
      (by rw [List.append_nil]))

/-! ### The lowest index of the greatest element (R134) -/

section FirstMax

variable {α β : Type} [LinearOrder β] {f : α → β}

/-- `b` stands at index `j` of `l`, nothing in `l` has a greater value, and everything before it has a smaller one. -/
structure FirstMax (f : α → β) (l : List α) (j : Nat) (b : α) : Prop where
  at_index : l[j]? = some b
  greatest : ∀ x ∈ l, f x ≤ f b
  first : ∀ k x, k < j → l[k]? = some x → f x < f b

theorem firstMax_singleton (x : α) : FirstMax f [x] 0 x where
  at_index := rfl
  greatest y hy := by rw [List.mem_singleton.1 hy]
  first k y hk := absurd hk (Nat.not_lt_zero k)

/-- A greater element at the end of the list takes the place of the greatest one. -/
theorem FirstMax.append_greater {l : List α} {j : Nat} {b y : α} (h : FirstMax f l j b) (hy : f b < f y) :
    FirstMax f (l ++ [y]) l.length y where
  at_index := by simp
  greatest x hx := by
    rcases List.mem_append.1 hx with hx | hx
    · exact (h.greatest x hx).trans hy.le
    · rw [List.mem_singleton.1 hx]
  first k x hk hx := by
    rw [List.getElem?_append_left hk] at hx
    exact (h.greatest x (List.mem_of_getElem? hx)).trans_lt hy

/-- An element at the end of the list that is not greater changes nothing. -/
theorem FirstMax.append_not_greater {l : List α} {j : Nat} {b y : α} (h : FirstMax f l j b) (hy : f y ≤ f b) :
    FirstMax f (l ++ [y]) j b := by
  have hj : j < l.length := (List.getElem?_eq_some_iff.1 h.at_index).1
  refine ⟨by rw [List.getElem?_append_left hj, h.at_index], fun x hx => ?_, fun k x hk hx => ?_⟩
  · rcases List.mem_append.1 hx with hx | hx
    · exact h.greatest x hx
    · rwa [List.mem_singleton.1 hx]
  · rw [List.getElem?_append_left (by omega)] at hx
    exact h.first k x hk hx

variable {better : α → α → Bool}

/-- The scan of `bestIndex` past the elements `pre` keeps the first of the greatest ones. -/
theorem firstMax_bestIndex_go (hbetter : ∀ x y, better x y = true ↔ f y < f x) (rest pre : List α) (best : α) (j : Nat)
    (h : FirstMax f pre j best) : ∃ b, FirstMax f (pre ++ rest) (bestIndex.go better best j pre.length rest) b := by
  induction rest generalizing pre best j with
  | nil => exact ⟨best, by simpa [bestIndex.go] using h⟩
  | cons y rest ih =>
    rw [List.append_cons, bestIndex.go, show pre.length + 1 = (pre ++ [y]).length by simp]
    split
    case isTrue hy => exact ih _ _ _ (h.append_greater ((hbetter y best).1 hy))
    case isFalse hy => exact ih _ _ _ (h.append_not_greater (not_lt.1 fun hlt => hy ((hbetter y best).2 hlt)))

/-- R13: `bestIndex` gives the lowest index of an element of greatest value (`Viterbi.bestIndex_spec` with the lowest index
added, for an order given by a value). -/
theorem firstMax_bestIndex (hbetter : ∀ x y, better x y = true ↔ f y < f x) {l : List α} (hl : l ≠ []) :
    ∃ b, FirstMax f l (bestIndex better l) b := by
  cases l with
  | nil => exact absurd rfl hl
  | cons y rest => exact firstMax_bestIndex_go hbetter rest [y] y 0 (firstMax_singleton y)

end FirstMax

/-- `argmax_lowest` of `g 0, ..., g (len - 1)` (R134). -/
theorem argmaxLowest_map_range {len : Nat} (hlen : 0 < len) (g : Nat → Scalar) :
    let m := argmaxLowest ((List.range len).map g)
    m < len ∧ (∀ k, k < len → (g k).val ≤ (g m).val) ∧ ∀ k, k < m → (g k).val < (g m).val := by
  intro m
  obtain ⟨b, hb⟩ := firstMax_bestIndex (f := Scalar.val) (better := fun x y => y.lt x) (fun x y => Scalar.lt_iff y x)
    (l := (List.range len).map g) (by simp [hlen.ne'])
  have hget : ∀ k, k < len → ((List.range len).map g)[k]? = some (g k) := fun k hk => by simp [hk]
  have hm := (List.getElem?_eq_some_iff.1 hb.at_index).1
  rw [List.length_map, List.length_range] at hm
  obtain rfl : g m = b := Option.some.inj ((hget m hm).symm.trans hb.at_index)
  exact ⟨hm, fun k hk => hb.greatest _ (List.mem_of_getElem? (hget k hk)),
    fun k hk => hb.first k _ hk (hget k (hk.trans hm))⟩

/-! ### The estimate of a block -/

/-- The sum of R133 over the elements from index `k` on. -/
theorem dftFrom_eq_sum (w : Scalar) (k : Nat) (l : List Cpx) :
    dftFrom w k l = ((List.range l.length).map fun j : Nat =>
      cmul (l.getD j Cpx.zero) (cexp (w.mul (.rat (k + j : Nat))).neg)).foldr cadd Cpx.zero := by
  induction l generalizing k with
  | nil => rfl
  | cons x rest ih =>
    rw [dftFrom, ih, List.length_cons, List.range_succ_eq_map]
    simp [Function.comp_def, Nat.add_comm, Nat.add_left_comm]

theorem squareBlock_length (n : Numerics) (blk : List Cpx) : (squareBlock n blk).length = blk.length :=
  List.length_map _

/-- The element `s[k]` of the squared block (R132); beyond the block both sides are 0. -/
theorem squareBlock_getD (n : Numerics) (blk : List Cpx) (k : Nat) :
    (squareBlock n blk).getD k Cpx.zero = quantC n (cmul (blk.getD k Cpx.zero) (blk.getD k Cpx.zero)) := by
  have hzero : quantC n (cmul Cpx.zero Cpx.zero) = Cpx.zero := by simp [quantC, cmul, Cpx.zero]
  have hmap := List.getD_map (n := k) blk Cpx.zero fun z => quantC n (cmul z z)
  rwa [hzero] at hmap

/-- `S[m]` as R133 writes it, over the block itself: the sum of `blk[k]^2 * exp(-j*2*pi*m*k/N)`. -/
def blockBin (n : Numerics) (blk : List Cpx) (m : Nat) : Cpx :=
  quantC n (((List.range blk.length).map fun k : Nat =>
    cmul (quantC n (cmul (blk.getD k Cpx.zero) (blk.getD k Cpx.zero)))
      (cexp (((twoPi.mul (.rat m)).mul (.rat k)).div (.rat blk.length)).neg)).foldr cadd Cpx.zero)

theorem dftBin_squareBlock (n : Numerics) (blk : List Cpx) (m : Nat) :
    dftBin n (squareBlock n blk) m = blockBin n blk m := by
  have hangle (k : Nat) : ((twoPi.mul (.rat m)).div (.rat blk.length)).mul (.rat k) =
      ((twoPi.mul (.rat m)).mul (.rat k)).div (.rat blk.length) :=
    Scalar.ext (by simp only [Scalar.val_mul, Scalar.val_div]; ring)
  simp only [dftBin, dftFrom_eq_sum, squareBlock_getD, squareBlock_length, Nat.zero_add, hangle, blockBin]

theorem spectrum_squareBlock (n : Numerics) (blk : List Cpx) :
    Machine.spectrum n (squareBlock n blk) = (List.range blk.length).map fun m => quant n (cabs (blockBin n blk m)) := by
  simp only [Machine.spectrum, dftBin_squareBlock, magnitude, squareBlock_length]

/-! ### The rotation of a block -/

/-- The oscillator's phase after one sample (R136). -/
def nextPhase (n : Numerics) (dphi ph : Scalar) : Scalar := quant n (wrap (ph.add dphi))

/-- R136 in closed form: sample k is rotated by the phase after k steps, and a step is made for each sample. -/
theorem rotateBlock_eq (n : Numerics) (dphi ph : Scalar) (blk : List Cpx) :
    rotateBlock n dphi ph blk =
      ((List.range blk.length).map fun k => quantC n (cmul (blk.getD k Cpx.zero) (cexp ((nextPhase n dphi)^[k] ph))),
        (nextPhase n dphi)^[blk.length] ph) := by
  induction blk generalizing ph with
  | nil => rfl
  | cons z rest ih =>
    rw [rotateBlock, ← nextPhase, ih, List.length_cons, List.range_succ_eq_map]
    simp [Function.comp_def]

/-- Settles O16: the firing is `csOp_completes`, its bin the first maximum of the spectrum, its rotation in closed form. -/
theorem carrierBlockCorrected : Obligations.CarrierBlockCorrected := by
  intro c s x rest seen hen hin hfill hlen hbuf hroom i n len fs turn blk square bin mag
  have hblk : blk.length = len := by simpa [blk] using hlen
  have hbin (m : Nat) : bin m = blockBin n blk m := by simp only [blockBin, hblk]; rfl
  have hspec : Machine.spectrum n (squareBlock n blk) = (List.range len).map fun m => quant n (cabs (bin m)) := by
    rw [spectrum_squareBlock, hblk]
    simp only [hbin]
  obtain ⟨hm, hmax, hfirst⟩ := argmaxLowest_map_range ((Nat.succ_pos _).trans_eq hlen) fun m => quant n (cabs (bin m))
  refine ⟨_, hm, hmax, hfirst, ?_⟩
  intro kstar fhat dphi phase
  have hest : blockEstimate i.par (fsOf i.cfg) blk = fhat := by
    simp only [blockEstimate, hspec, hblk, n]
    rfl
  have hset : i.cs.buf.set seen.length (some x) = blk.map some := by
    rw [hbuf, List.set_append_right _ _ (by simp)]
    simp [blk]
  have hop := Scope.csOp_completes (p := i.par) hfill hlen hbuf x
  rw [hset, completeBlock, hest, rotateBlock_eq, hblk] at hop
  exact onInst_done (fireUnit_eq _ _ hin hen rfl hop (by simpa using hroom) rfl)

/-! ### A sequence of samples -/

/-- `y` is the sample `x` times a complex number of modulus 1, in the instance's number format (R138). -/
def RotationOf (n : Numerics) (x y : Cpx) : Prop := ∃ z, normSq z = .rat 1 ∧ y = quantC n (cmul x z)

/-- Every sample of a block leaves rotated, in order. -/
theorem rotateBlock_rotates (n : Numerics) (dphi ph : Scalar) (blk : List Cpx) :
    List.Forall₂ (RotationOf n) blk (rotateBlock n dphi ph blk).1 := by
  induction blk generalizing ph with
  | nil => exact .nil
  | cons z rest ih => exact .cons ⟨cexp ph, normSq_cexp ph, rfl⟩ (ih _)

/-- CS with blocks of `len` samples, after the samples `sent` of its completed blocks and the samples `held` of the next
one, having emitted `out` (R131, R138). -/
structure Collected (n : Numerics) (len : Nat) (sent held : List Cpx) (u : CsRegs) (out : List Cpx) : Prop where
  whole_blocks : len ∣ sent.length
  held_lt : held.length < len
  fill_eq : u.fill = held.length
  buf_length : u.buf.length = len
  buf_held : ∃ later, u.buf = held.map some ++ later
  rotated : List.Forall₂ (RotationOf n) sent out

/-- The registers of a configured instance before its first sample (R48). -/
theorem collected_reset (n : Numerics) {len : Nat} (hlen : 0 < len) (ph fe : Scalar) :
    Collected n len [] [] { buf := List.replicate len none, fill := 0, phase := ph, fest := fe } [] where
  whole_blocks := dvd_zero len
  held_lt := hlen
  fill_eq := rfl
  buf_length := List.length_replicate
  buf_held := ⟨_, rfl⟩
  rotated := .nil

/-- One sample more (R131): it is held, or it completes the block, which leaves rotated. -/
theorem Collected.csOp_ok {p : Params} {r : CfgRec} {sent held out : List Cpx} {u : CsRegs}
    (h : Collected p.numerics r.fftlen.toNat sent held u out) (x : Cpx) :
    ∃ v o sent' held', csOp p r u x = .ok (v, o) ∧ sent' ++ held' = sent ++ held ++ [x] ∧
      Collected p.numerics r.fftlen.toNat sent' held' v (out ++ o) := by
  have hheld := h.held_lt
  have hfill := h.fill_eq
  obtain ⟨tail, hbuf⟩ := h.buf_held
  have htail : held.length + tail.length = r.fftlen.toNat := by simpa [hbuf] using h.buf_length
  obtain ⟨old, later, rfl⟩ : ∃ old later, tail = old :: later := List.exists_cons_of_length_pos (by omega)
  have hset : u.buf.set held.length (some x) = (held ++ [x]).map some ++ later := by
    simp [hbuf]
  by_cases hmore : held.length + 1 < r.fftlen.toNat
  · refine ⟨_, [], sent, held ++ [x], csOp_collects (by omega) (by rw [hfill, h.buf_length]; exact hheld) x, by simp, ?_⟩
    exact
      { whole_blocks := h.whole_blocks
        held_lt := by simpa using hmore
        fill_eq := by simp [hfill]
        buf_length := by simpa using h.buf_length
        buf_held := ⟨later, by rw [hfill, hset]⟩
        rotated := by simpa using h.rotated }
  · have hlast : held.length + 1 = r.fftlen.toNat := by omega
    obtain rfl : later = [] := List.length_eq_zero_iff.1 (by rw [List.length_cons] at htail; omega)
    refine ⟨_, _, sent ++ (held ++ [x]), [], Scope.csOp_completes hfill hlast hbuf x, by simp, ?_⟩
    exact
      { whole_blocks := by
          rw [List.length_append, List.length_append, List.length_singleton, hlast]
          exact h.whole_blocks.add (dvd_refl _)
        held_lt := hlast ▸ Nat.succ_pos _
        fill_eq := rfl
        buf_length := by simpa [completeBlock] using h.buf_length
        buf_held := ⟨_, rfl⟩
        rotated := List.rel_append h.rotated (rotateBlock_rotates _ _ _ _) }

/-- R138: from the reset registers CS takes every sequence of samples, sends out its whole blocks and holds the rest. -/
theorem runOp_csOp_collected (p : Params) (r : CfgRec) (ph fe : Scalar) (hlen : 0 < r.fftlen.toNat) (xs : List Cpx) :
    ∃ u out sent held,
      runOp (csOp p r) { buf := List.replicate r.fftlen.toNat none, fill := 0, phase := ph, fest := fe } xs
        = .ok (u, out) ∧ sent ++ held = xs ∧ Collected p.numerics r.fftlen.toNat sent held u out := by
  induction xs using List.reverseRecOn with
  | nil => exact ⟨_, [], [], [], rfl, rfl, collected_reset _ hlen ph fe⟩
  | append_singleton xs x ih =>
    obtain ⟨u, out, sent, held, hrun, rfl, hc⟩ := ih
    obtain ⟨v, o, sent', held', hop, hxs, hc'⟩ := hc.csOp_ok x
    refine ⟨v, out ++ o, sent', held', ?_, hxs, hc'⟩
    rw [runOp_append _ _ _ _ _ _ hrun]
    simp [runOp, hop, Except.map]

/-- Whole blocks and less than one block more: the count of the samples sent and of those held. -/
theorem length_sent_held {len : Nat} {sent held : List Cpx} (hsent : len ∣ sent.length) (hheld : held.length < len) :
    sent.length = len * ((sent ++ held).length / len) ∧ held.length = (sent ++ held).length % len := by
  obtain ⟨q, hq⟩ := hsent
  rw [List.length_append, hq, Nat.mul_add_mod, Nat.mod_eq_of_lt hheld,
    Nat.mul_add_div (by omega), Nat.div_eq_of_lt hheld]
  exact ⟨rfl, rfl⟩

/-- Settles O47: the counts are those of `Collected`, and its rotations are exact in exact arithmetic. -/
theorem carrierCountLaw : Obligations.CarrierCountLaw := by
  intro p r ph fe xs hlen
  obtain ⟨u, out, sent, held, hrun, rfl, hc⟩ := runOp_csOp_collected p r ph fe hlen xs
  obtain ⟨hsent, hheld⟩ := length_sent_held hc.whole_blocks hc.held_lt
  have hout : sent.length = out.length := hc.rotated.length_eq
  refine ⟨u, out, hrun, hout ▸ hsent, hc.fill_eq.trans hheld, fun hexact k hk => ?_⟩
  have hk' : k < sent.length := hout ▸ hk
  obtain ⟨-, hget⟩ := List.forall₂_iff_get.1 hc.rotated
  obtain ⟨z, hz, hy⟩ := hget k hk' hk
  rw [hexact, quantC_exact] at hy
  refine ⟨sent[k], z, ?_, hz, ?_⟩
  · rw [List.getElem?_append_left hk', List.getElem?_eq_getElem hk']
  · rw [List.getElem?_eq_getElem hk]
    exact congrArg some hy

end Sys2Proof.Proofs.Carrier
end

section
/-! SUPPORT. The coherent demodulator's front end (41_demod_coherent.md): COSTAS.STEP, RSMP.STEP, MF.STEP and ILV.STEP on
one token (R151 to R153, R156 to R158, R164, R170), and how many tokens RSMP and MF give for a sequence (R159, R165). -/

namespace Sys2Proof.Proofs.Coherent

open Sys2Proof Sys2Proof.Machine

/-! ### The phase detector -/

/-- R153: the reference detector. -/
theorem phaseDetect_reference {p : Params} (h : p.pd = .reference) (y : Cpx) :
    phaseDetect p y = quant p.numerics (y.re.mul y.im) := by rw [phaseDetect, h]

/-- R153: a detector the instance chooses (log entry 7), its error rounded like the reference one's. -/
theorem phaseDetect_custom {p : Params} {k : Nat} (h : p.pd = .custom k) (y : Cpx) :
    phaseDetect p y = quant p.numerics (Config.customPd k y) := by rw [phaseDetect, h]

/-- Settles O17: one sample leaves per sample, so the firing is `costasOp` with its detector written out. -/
theorem costasStepTracks : Obligations.CostasStepTracks := by
  intro c s x rest hen hcoh hin hroom i n bw damp den alpha beta y e v w
  have herr : phaseDetect i.par y = e := by
    cases hpd : i.par.pd with
    | reference => rw [phaseDetect_reference hpd]; simp only [e, hpd, n]
    | custom k => rw [phaseDetect_custom hpd]; simp only [e, hpd, n]
  have hclamp : clampOmega i.par (quant n (i.costas.omega.add (beta.mul (phaseDetect i.par y)))) = w := by
    rw [herr]
    rfl
  have hop : costasOp i.par i.costas x =
      .ok ({ theta := quant n (wrap ((i.costas.theta.add w).add (alpha.mul e))), omega := w }, [y]) := by
    rw [← hclamp, ← herr]
    rfl
  exact onInst_done (fireUnit_eq _ _ hin hen hcoh hop (.inl hroom) rfl)

/-! ### The resampler -/

/-- R158: the polyphase sum as it is written, term `q` the tap `n + q*L` times the history's element `q`. -/
theorem tapSum_eq_sum (p : Params) (l n : Nat) (hist : List Cpx) :
    tapSum p l n hist = ((List.range hist.length).map fun q =>
      cmul (rsmpTap p (n + q * l)) (hist.getD q Cpx.zero)).foldr cadd Cpx.zero := by
  induction hist generalizing n with
  | nil => rfl
  | cons h rest ih =>
    rw [tapSum, ih, List.length_cons, List.range_succ_eq_map]
    simp [Function.comp_def, Nat.succ_mul, Nat.add_assoc, Nat.add_comm l]

/-- R158's loop in closed form: its `k` outputs stand `M` apart from `n` on, and it ends at the tick after them. -/
theorem rsmpLoop_eq (p : Params) {l m : Nat} {hist : List Cpx} {fuel n k : Nat}
    (hk : (rsmpLoop p l m hist fuel n).1.length = k) :
    rsmpLoop p l m hist fuel n =
      ((List.range k).map fun j => quantC p.numerics (tapSum p l (n + j * m) hist), n + k * m) := by
  induction fuel generalizing n k with
  | zero =>
    subst hk
    simp [rsmpLoop]
  | succ fuel ih =>
    subst hk
    rw [rsmpLoop]
    split
    · rw [List.length_cons, List.range_succ_eq_map, ih rfl]
      simp [Function.comp_def, Nat.succ_mul, Nat.add_assoc, Nat.add_comm m]
    · simp

/-- RSMP.STEP by what its loop gives (R158). -/
theorem rsmpOp_eq {p : Params} {r : CfgRec} {u : RsmpRegs} {x : Cpx} {out : List Cpx} {next : Nat}
    (h : rsmpLoop p (rsmpL p r) (rsmpM p r) (shiftIn u.hist x) (rsmpL p r) u.nxt = (out, next)) :
    rsmpOp p r u x = .ok ({ hist := shiftIn u.hist x, nxt := next - rsmpL p r }, out) := by
  simp only [rsmpOp, h]

/-- Settles O18: the outputs are those of `rsmpLoop_eq`, as many as `rsmpLoop_length` counts. -/
theorem resamplerStepEmits : Obligations.ResamplerStepEmits := by
  intro c s x rest hen hcoh hin i fs g l m hist k output hm hroom
  have hout (n : Nat) : quantC i.par.numerics (tapSum i.par l n hist) = output n :=
    congrArg (quantC _) (tapSum_eq_sum i.par l n hist)
  have hloop : rsmpLoop i.par l m hist l i.rsmp.nxt =
      ((List.range k).map fun j => output (i.rsmp.nxt + j * m), i.rsmp.nxt + k * m) := by
    simp only [rsmpLoop_eq i.par (Scope.rsmpLoop_length i.par hm hist l _ (Nat.le_add_left _ _)), hout, k]
  exact onInst_done (fireUnit_eq _ _ hin hen hcoh (rsmpOp_eq hloop) (by simpa using hroom) rfl)

/-! ### The filter bank and the interleaver -/

/-- R164: on phase 0 a vector leaves. -/
theorem mfOp_emits {p : Params} {u : MfRegs} (h : u.ph = 0) (x : Cpx) :
    mfOp p u x = .ok ({ dl := shiftIn u.dl x, ph := (u.ph + 1) % p.q }, [filterBank p (shiftIn u.dl x)]) := by
  simp only [mfOp, if_pos h]

/-- R164: on the other phases nothing leaves. -/
theorem mfOp_skips {p : Params} {u : MfRegs} (h : u.ph ≠ 0) (x : Cpx) :
    mfOp p u x = .ok ({ dl := shiftIn u.dl x, ph := (u.ph + 1) % p.q }, []) := by
  simp only [mfOp, if_neg h]

/-- Settles O19, by the phase. -/
theorem matchedFilterStep : Obligations.MatchedFilterStep := by
  intro c s x rest hen hcoh hin i dl ph
  constructor
  · intro hph hroom
    exact onInst_done (fireUnit_eq _ _ hin hen hcoh (mfOp_emits hph x) (.inl hroom) rfl)
  · intro hph hroom
    exact onInst_done (fireUnit_eq _ [] hin hen hcoh (mfOp_skips hph x) (.inl hroom) (by rw [List.append_nil]; rfl))

/-- Settles O20: ILV.STEP hands the vector on as the list of its components. -/
theorem interleaverStep : Obligations.InterleaverStep := by
  intro c s z rest hen hcoh hin hroom i
  exact onInst_done (fireUnit_eq () z hin hen hcoh rfl (.inl hroom) rfl)

/-! ### Counts over a sequence -/

/-- A law of a unit over every sequence: it holds before the first token, and every token is taken and keeps it. -/
theorem runOp_law {σ τ ω : Type} {op : σ → τ → Except Fault (σ × List ω)} {law : List τ → σ → List ω → Prop} {u : σ}
    (hinit : law [] u [])
    (hstep : ∀ xs v out x, law xs v out → ∃ w o, op v x = .ok (w, o) ∧ law (xs ++ [x]) w (out ++ o))
    (xs : List τ) : ∃ v out, runOp op u xs = .ok (v, out) ∧ law xs v out := by
  induction xs using List.reverseRecOn with
  | nil => exact ⟨u, [], rfl, hinit⟩
  | append_singleton xs x ih =>
    obtain ⟨v, out, hrun, hlaw⟩ := ih
    obtain ⟨w, o, hop, hlaw'⟩ := hstep xs v out x hlaw
    refine ⟨w, out ++ o, ?_, hlaw'⟩
    rw [runOp_append _ _ _ _ _ _ hrun]
    simp [runOp, hop, Except.map]

/-- The loop ends at or beyond `L`: each turn moves at least one tick, and there is fuel for all of them. -/
theorem le_rsmpLoop_next (p : Params) {l m : Nat} (hm : 0 < m) (hist : List Cpx) (fuel n : Nat) (hfuel : l ≤ n + fuel) :
    l ≤ (rsmpLoop p l m hist fuel n).2 := by
  induction fuel generalizing n with
  | zero => exact hfuel
  | succ fuel ih =>
    rw [rsmpLoop]
    split
    · exact ih (n + m) (by omega)
    · omega

/-- RSMP after `n` inputs with `k` outputs: the next output's tick, counted from reset, is `k*M`, and it is the first
one at or beyond the ticks of the `n` inputs (R158). -/
structure RateLaw (l m n nxt k : Nat) : Prop where
  next_tick : k * m = n * l + nxt
  next_lt : nxt < m

/-- R159: such a count is `ceil(n*L/M)`. -/
theorem RateLaw.count_eq {l m n nxt k : Nat} (h : RateLaw l m n nxt k) : k = (n * l + m - 1) / m := by
  have htick := h.next_tick
  have hlt := h.next_lt
  exact (Nat.div_eq_of_lt_le (by omega) (by rw [Nat.succ_mul]; omega)).symm

/-- One input more keeps the law. -/
theorem rateLaw_rsmpOp {p : Params} {r : CfgRec} {u : RsmpRegs} {n k : Nat} (hm : 0 < rsmpM p r)
    (h : RateLaw (rsmpL p r) (rsmpM p r) n u.nxt k) (x : Cpx) :
    ∃ v out, rsmpOp p r u x = .ok (v, out) ∧ RateLaw (rsmpL p r) (rsmpM p r) (n + 1) v.nxt (k + out.length) := by
  obtain ⟨htick, hlt⟩ := h
  obtain ⟨out, next, hloop⟩ : ∃ out next,
      rsmpLoop p (rsmpL p r) (rsmpM p r) (shiftIn u.hist x) (rsmpL p r) u.nxt = (out, next) := ⟨_, _, rfl⟩
  have hge := le_rsmpLoop_next p hm (shiftIn u.hist x) (rsmpL p r) u.nxt (Nat.le_add_left _ _)
  have hend := Invariant.rsmpLoop_next_lt p (rsmpL p r) (rsmpM p r) (shiftIn u.hist x) (rsmpL p r) u.nxt (by omega)
  have hnext := congrArg Prod.snd (rsmpLoop_eq p (congrArg (·.1.length) hloop))
  simp only [hloop] at hge hend hnext
  refine ⟨_, _, rsmpOp_eq hloop, ?_, ?_⟩
  · rw [Nat.add_mul, Nat.succ_mul]
    dsimp only
    omega
  · dsimp only
    omega

/-- One more than a whole number of Qs needs a vector more: `ceil((n+1)/Q)` from `ceil(n/Q)` (R165). -/
theorem ceil_succ_div {q : Nat} (hq : 1 ≤ q) (n : Nat) :
    (n + 1 + q - 1) / q = (n + q - 1) / q + if n % q = 0 then 1 else 0 := by
  have hdvd : q ∣ n + q - 1 + 1 ↔ n % q = 0 := by
    rw [show n + q - 1 + 1 = n + q by omega, Nat.dvd_add_self_right, Nat.dvd_iff_mod_eq_zero]
  rw [show n + 1 + q - 1 = n + q - 1 + 1 by omega, Nat.succ_div]
  simp only [hdvd]

/-- Settles O48: both counts are laws that one token more keeps. -/
theorem rateCountLaws : Obligations.RateCountLaws := by
  constructor
  · intro p r hist xs hm
    obtain ⟨u, out, hrun, hlaw⟩ := runOp_law (op := rsmpOp p r) (u := { hist := hist, nxt := 0 })
      (law := fun xs u out => RateLaw (rsmpL p r) (rsmpM p r) xs.length u.nxt out.length)
      ⟨by simp, hm⟩ (fun xs v out x h => by simpa using rateLaw_rsmpOp hm h x) xs
    exact ⟨u, out, hrun, hlaw.count_eq⟩
  · intro p dl xs hq
    refine runOp_law (op := mfOp p) (u := { dl := dl, ph := 0 })
      (law := fun xs u out => out.length = (xs.length + p.q - 1) / p.q ∧ u.ph = xs.length % p.q)
      ⟨by simp [Nat.div_eq_of_lt (Nat.sub_one_lt_of_lt hq)], by simp⟩ (fun xs v out x h => ?_) xs
    obtain ⟨hcount, hph⟩ := h
    have hnext : (v.ph + 1) % p.q = (xs ++ [x]).length % p.q := by simp [hph]
    have hceil : ((xs ++ [x]).length + p.q - 1) / p.q = (xs.length + p.q - 1) / p.q + if v.ph = 0 then 1 else 0 := by
      rw [List.length_append, List.length_singleton, ceil_succ_div hq, ← hph]
    by_cases h0 : v.ph = 0
    · refine ⟨_, _, mfOp_emits h0 x, ?_, hnext⟩
      rw [List.length_append, hcount, hceil, if_pos h0]
      rfl
    · refine ⟨_, _, mfOp_skips h0 x, ?_, hnext⟩
      rw [List.length_append, hcount, hceil, if_neg h0]
      rfl

end Sys2Proof.Proofs.Coherent
end

section
/-! SUPPORT. The ranges of the loops' registers and of what the loops and estimators give (40_carrier_sync.md R140,
41_demod_coherent.md R154, 43_demod_noncoherent.md R211, R218). -/

namespace Sys2Proof.Proofs.Loops

open Sys2Proof Sys2Proof.Machine

/-! ### COSTAS -/

/-- R152: what leaves the clamp lies within its bound. -/
theorem clampOmega_range {p : Params} {w : Scalar} (hw : p.costasWmax = some w) (hpos : 0 < w.val) (v : Scalar) :
    -w.val ≤ (clampOmega p v).val ∧ (clampOmega p v).val ≤ w.val := by
  simp only [clampOmega, hw]
  split_ifs with hlow hhigh
  · rw [Scalar.val_neg]
    exact ⟨le_rfl, by linarith⟩
  · exact ⟨by linarith, le_rfl⟩
  · simp only [Scalar.lt_iff, Scalar.val_neg, not_lt] at hlow hhigh
    exact ⟨hlow, hhigh⟩

/-- A rotation keeps the modulus (R154). -/
theorem normSq_cmul_cexp (x : Cpx) (t : Scalar) : normSq (cmul x (cexp t)) = normSq x := by
  rw [normSq_cmul, normSq_cexp]
  exact Scalar.ext (by simp)

/-- R154: the frequency by its clamp, the modulus by the rotation, the phase by `wrap`. -/
theorem costasOp_range {p : Params} {u v : CostasRegs} {x : Cpx} {out : List Cpx} (h : costasOp p u x = .ok (v, out)) :
    (∀ w : Scalar, p.costasWmax = some w → 0 < w.val → -w.val ≤ v.omega.val ∧ v.omega.val ≤ w.val) ∧
    ∃ y : Cpx, out = [y] ∧
      (p.numerics = .exact → normSq y = normSq x ∧ -Real.pi < v.theta.val ∧ v.theta.val ≤ Real.pi) := by
  cases h
  refine ⟨fun w hw hpos => clampOmega_range hw hpos _, _, rfl, fun hexact => ?_⟩
  simp only [hexact, quant_exact, quantC_exact]
  obtain ⟨hlow, hhigh, -⟩ := wrap_spec ((u.theta.add _).add _)
  exact ⟨normSq_cmul_cexp _ _, hlow, hhigh⟩

/-! ### CR -/

/-- R217: at a symbol instant the period is clamped into its limits and the instant is kept from below 0. -/
theorem crSymbol_range (p : Params) (r : CfgRec) (u : CrRegs) (x : Scalar) :
    ((omLo p r).val ≤ (omHi p r).val →
      (omLo p r).val ≤ (crSymbol p r u x).1.omega.val ∧ (crSymbol p r u x).1.omega.val ≤ (omHi p r).val) ∧
    0 ≤ (crSymbol p r u x).1.t.val := by
  simp only [crSymbol, Scalar.val_min, Scalar.val_max]
  exact ⟨fun h => ⟨le_min (le_max_right _ _) h, min_le_right _ _⟩, by simp⟩

/-- R218: at a symbol instant by `crSymbol_range`; between two of them the period stays and the instant, at least one sample
away, comes nearer by one. -/
theorem crOp_range {p : Params} {r : CfgRec} {u v : CrRegs} {x : Scalar} {out : List Scalar}
    (h : crOp p r u x = .ok (v, out)) :
    out.length ≤ 1 ∧
    ((omLo p r).val ≤ (omHi p r).val → (omLo p r).val ≤ u.omega.val → u.omega.val ≤ (omHi p r).val →
      (omLo p r).val ≤ v.omega.val ∧ v.omega.val ≤ (omHi p r).val) ∧
    (p.numerics = .exact → 0 ≤ u.t.val → 0 ≤ v.t.val) := by
  unfold crOp at h
  split at h
  case isTrue =>
    obtain ⟨homega, ht⟩ := crSymbol_range p r u x
    cases h
    exact ⟨le_rfl, fun hlim _ _ => homega hlim, fun _ _ => ht⟩
  case isFalse hlt =>
    cases h
    refine ⟨Nat.zero_le _, fun _ hlow hhigh => ⟨hlow, hhigh⟩, fun hexact _ => ?_⟩
    simpa [hexact, Scalar.lt_iff] using hlt

/-! ### QD -/

/-- R211: the gain times an angle of `(-pi, pi]`. -/
theorem qdOp_range {p : Params} {r : CfgRec} {prev v x : Cpx} {out : List Scalar} (h : qdOp p r prev x = .ok (v, out)) :
    ∃ d : Scalar, out = [d] ∧
      (p.numerics = .exact → 0 < (qdGainOf p r).val →
        -((qdGainOf p r).val * Real.pi) < d.val ∧ d.val ≤ (qdGainOf p r).val * Real.pi) := by
  simp only [qdOp, Except.ok.injEq, Prod.mk.injEq] at h
  obtain ⟨-, rfl⟩ := h
  refine ⟨_, rfl, fun hexact hgain => ?_⟩
  obtain ⟨hlow, hhigh⟩ := arg_range (cmul x (conj prev))
  rw [hexact, quant_exact, Scalar.val_mul, ← mul_neg]
  exact ⟨mul_lt_mul_of_pos_left hlow hgain, mul_le_mul_of_nonneg_left hhigh hgain.le⟩

/-! ### The carrier estimate -/

/-- R135: the signed bin of an index below `N` lies in `[-N/2, N/2)`. -/
theorem signedBin_range {m n : Nat} (h : m < n) : -(n : Int) ≤ 2 * signedBin m n ∧ 2 * signedBin m n < n := by
  unfold signedBin
  split <;> omega

/-- R135 in exact arithmetic: the estimate is `kstar*FS/(2*N)`, less half the peak bias. -/
theorem val_freqEstimate {p : Params} (hexact : p.numerics = .exact) (fs m n : Nat) :
    (freqEstimate p fs m n).val + p.csPeakBias.val / 2 = (signedBin m n : ℝ) * ((fs : ℝ) / (2 * (n : ℝ))) := by
  simp only [freqEstimate, squaredFreq, hexact, quant_exact, Scalar.val_div, Scalar.val_sub, Scalar.val_rat]
  push_cast
  ring

/-- R140: the range of the signed bin, in units of `FS/(4*N)`. -/
theorem freqEstimate_range {p : Params} (hexact : p.numerics = .exact) {fs m n : Nat} (h : m < n) (hfs : 0 < fs) :
    -((fs : ℝ) / 4) ≤ (freqEstimate p fs m n).val + p.csPeakBias.val / 2 ∧
      (freqEstimate p fs m n).val + p.csPeakBias.val / 2 < (fs : ℝ) / 4 := by
  obtain ⟨hlow, hhigh⟩ := signedBin_range h
  have hlow' : -(n : ℝ) ≤ 2 * (signedBin m n : ℝ) := by exact_mod_cast hlow
  have hhigh' : 2 * (signedBin m n : ℝ) < n := by exact_mod_cast hhigh
  have hn : (0 : ℝ) < n := by exact_mod_cast (Nat.zero_le m).trans_lt h
  have hunit : 0 < (fs : ℝ) / (4 * n) := by positivity
  have hquarter : (fs : ℝ) / 4 = n * (fs / (4 * n)) := by field_simp
  have hvalue : (signedBin m n : ℝ) * ((fs : ℝ) / (2 * n)) = 2 * signedBin m n * (fs / (4 * n)) := by
    field_simp
    ring
  rw [val_freqEstimate hexact, hvalue, hquarter, ← neg_mul]
  exact ⟨mul_le_mul_of_nonneg_right hlow' hunit.le, mul_lt_mul_of_pos_right hhigh' hunit⟩

/-- Settles O52, unit by unit. -/
theorem loopRegistersStayInRange : Obligations.LoopRegistersStayInRange :=
  ⟨fun _ _ _ _ _ => costasOp_range, fun _ _ _ _ _ _ => crOp_range, fun _ _ _ _ _ _ => qdOp_range,
    fun _ _ _ _ hexact hfs hm => ⟨⟨_, val_freqEstimate hexact _ _ _⟩, freqEstimate_range hexact hm hfs⟩⟩

end Sys2Proof.Proofs.Loops
end

section
/-! SUPPORT. What the signal path's registers keep (40_carrier_sync.md, 41_demod_coherent.md R155, 42_viterbi.md R200,
70_reset_and_hazards.md R392): the operations of the system write none of them but for a load, and a unit its own. -/

namespace Sys2Proof.Proofs.Invariant

open Sys2Proof Sys2Proof.Machine

/-- The signal path's registers that nothing but a unit's step and a reset writes. -/
def signalRegs (i : ChanInst) :
    VitRegs × CostasRegs × (Scalar × Scalar × Nat) × Nat × MfRegs × Cpx × List Scalar × (Scalar × Scalar × Scalar) ×
      TcorrRegs × DfeRegs :=
  (i.vit, i.costas, (i.cs.phase, i.cs.fest, i.cs.fill), i.rsmp.nxt, i.mf, i.qdPrev, i.rrcDl,
    (i.cr.prevIn, i.cr.t, i.cr.lastOut), i.tcorr, i.dfe)

/-- The signal path's registers that a load writes as well (log entry 12). -/
def sizedRegs (i : ChanInst) : List Cpx × Scalar := (i.rsmp.hist, i.cr.omega)

/-- R310: a load sizes buffers and sets `CR.omega`, and keeps the rest of the signal path. -/
theorem loadInst_keeps_signalRegs (r : CfgRec) (i : ChanInst) : signalRegs (loadInst r i) = signalRegs i := by
  rcases loadInst_cases r i with ⟨h, -⟩ | ⟨-, ⟨h, -⟩ | ⟨h, -⟩⟩ <;> rw [h] <;> rfl

theorem startInst_keeps_signalPath (i : ChanInst) :
    signalRegs (startInst i) = signalRegs i ∧ sizedRegs (startInst i) = sizedRegs i := by
  rcases startInst_cases i with h | ⟨-, h⟩ <;> rw [h] <;> exact ⟨rfl, rfl⟩

theorem drainInst_keeps_signalPath (i : ChanInst) :
    signalRegs (drainInst i) = signalRegs i ∧ sizedRegs (drainInst i) = sizedRegs i := by
  rcases drainInst_cases i with h | ⟨-, h⟩ <;> rw [h] <;> exact ⟨rfl, rfl⟩

/-- An operation that is no reset of an instance keeps its signal path, up to what a load sizes, or is a unit's own
write. -/
theorem exec_signalRegs {op : Instr} {c : Chan} {s t : State} (h : exec op s = .next t) (hr : ¬ resetsChan c op) :
    UnitFrame op c (s.inst c) (t.inst c) ∨
      signalRegs (t.inst c) = signalRegs (s.inst c) ∧
        (op ≠ .cfgLoad c → sizedRegs (t.inst c) = sizedRegs (s.inst c)) := by
  cases exec_effect h with
  | same he => exact .inr (by rw [he]; exact ⟨rfl, fun _ => rfl⟩)
  | unit _ hf => exact .inl hf
  | reset hop _ => exact absurd hop hr
  | load hop r he => exact .inr ⟨by rw [he, loadInst_keeps_signalRegs], fun hn => absurd hop hn⟩
  | start _ he =>
    obtain ⟨hregs, hsized⟩ := startInst_keeps_signalPath (s.inst c)
    exact .inr (by rw [he]; exact ⟨hregs, fun _ => hsized⟩)
  | drain _ he =>
    obtain ⟨hregs, hsized⟩ := drainInst_keeps_signalPath (s.inst c)
    exact .inr (by rw [he]; exact ⟨hregs, fun _ => hsized⟩)
  | sample _ hc he => exact .inr (by rw [he]; exact ⟨rfl, fun _ => rfl⟩)
  | drained _ _ he => exact .inr (by rw [he]; exact ⟨rfl, fun _ => rfl⟩)

/-- Settles O44: a unit's write leaves the other units' registers, and every other operation leaves all of them. -/
theorem signalStatePersists : Obligations.SignalStatePersists := by
  intro op c s t h hr i j
  rcases exec_signalRegs h hr with hf | ⟨hregs, hsized⟩
  · exact ⟨hf.vit, hf.costas, fun hn => by simp only [i, j, hf.cs hn, and_self],
      fun hn => by simp only [i, j, hf.rsmp hn, implies_true, and_self], hf.mf, hf.qd, hf.rrc,
      fun hn => by simp only [i, j, hf.cr hn, implies_true, and_self], hf.tcorr, hf.dfe⟩
  · simp only [signalRegs, sizedRegs, Prod.mk.injEq] at hregs hsized
    obtain ⟨hvit, hcostas, hcs, hnxt, hmf, hqd, hrrc, ⟨hprev, ht, hlast⟩, htcorr, hdfe⟩ := hregs
    have hhist : op ≠ .cfgLoad c → j.rsmp.hist = i.rsmp.hist := fun hn => (hsized hn).1
    have homega : op ≠ .cfgLoad c → j.cr.omega = i.cr.omega := fun hn => (hsized hn).2
    exact ⟨fun _ => hvit, fun _ => hcostas, fun _ => hcs, fun _ => ⟨hnxt, hhist⟩, fun _ => hmf, fun _ => hqd,
      fun _ => hrrc, fun _ => ⟨hprev, ht, hlast, homega⟩, fun _ => htcorr, fun _ _ => hdfe⟩

end Sys2Proof.Proofs.Invariant
end

section
/-! SUPPORT. The order of path metrics (42_viterbi.md R193 to R195): metrics as extended reals, what normalisation keeps,
and which branch the scan of add-compare-select leaves at a state. -/

namespace Sys2Proof.Proofs.Trellis

open Sys2Proof Sys2Proof.Machine Sys2Proof.Proofs.Viterbi

/-! ### Normalisation (R195) -/

/-- Exact subtraction of one finite metric from both sides changes no comparison. -/
theorem metricLt_metricSub_exact (x y : Metric) (least : Scalar) :
    metricLt (metricSub .exact x (.fin least)) (metricSub .exact y (.fin least)) = metricLt x y := by
  cases x with
  | inf => rfl
  | fin a =>
    cases y with
    | inf => rfl
    | fin b =>
      rw [Bool.eq_iff_iff]
      simp [metricSub, metricLt, Scalar.lt_iff]

theorem metricSub_eq_inf_iff (n : Numerics) (x : Metric) (least : Scalar) :
    metricSub n x (.fin least) = .inf ↔ x = .inf := by
  cases x <;> simp [metricSub]

theorem metricSub_exact_self (x : Scalar) : metricSub .exact (.fin x) (.fin x) = .fin (.rat 0) :=
  congrArg Metric.fin (Scalar.ext (by simp))

/-- With a finite metric in the array, what R195 subtracts is the finite metric of the best state. -/
theorem normalise_eq_map {l : List Metric} {s : Nat} (h : FiniteAt l s) (n : Numerics) :
    ∃ least, l[argminMetric l]? = some (.fin least) ∧ normalise n l = l.map fun m => metricSub n m (.fin least) := by
  obtain ⟨least, hleast⟩ := finiteAt_argminMetric h
  exact ⟨least, hleast, by simp only [normalise, List.getD_eq_getElem?_getD, hleast, Option.getD_some]⟩

section BestIndex

variable {α β : Type} (better : β → β → Bool) (g : α → β)

theorem bestIndex_go_map (best : α) (j k : Nat) (l : List α) :
    bestIndex.go better (g best) j k (l.map g) = bestIndex.go (fun x y => better (g x) (g y)) best j k l := by
  induction l generalizing best j k with
  | nil => rfl
  | cons y rest ih => simp only [List.map_cons, bestIndex.go, ih]

/-- The best index of the images is the best index by comparison of the images. -/
theorem bestIndex_map (l : List α) :
    bestIndex better (l.map g) = bestIndex (fun x y => better (g x) (g y)) l := by
  cases l with
  | nil => rfl
  | cons x rest => exact bestIndex_go_map better g x 0 1 rest

end BestIndex

/-- Settles O51: R195 subtracts one finite metric from all, which keeps every comparison and so the best index. -/
theorem normalisationKeepsOrder : Obligations.NormalisationKeepsOrder := by
  intro l k v hv
  obtain ⟨least, hleast, hnorm⟩ := normalise_eq_map ⟨v, hv⟩ .exact
  have hget (a : Nat) : (normalise .exact l)[a]? = (l[a]?).map fun m => metricSub .exact m (.fin least) := by
    rw [hnorm, List.getElem?_map]
  refine ⟨?_, fun a b ha hb => ?_, fun a _ => ?_, ?_⟩
  · rw [hget, hleast, Option.map_some, metricSub_exact_self]
  · simp only [List.getD_eq_getElem?_getD, hget, List.getElem?_eq_getElem ha, List.getElem?_eq_getElem hb,
      Option.map_some, Option.getD_some, metricLt_metricSub_exact]
  · simp only [hget, Option.map_eq_some_iff, metricSub_eq_inf_iff, exists_eq_right]
  · simp only [hnorm, argminMetric, bestIndex_map, metricLt_metricSub_exact]

/-! ### Metrics as extended reals -/

/-- The extended real a path metric stands for. -/
noncomputable def metricValue : Metric → WithTop ℝ
  | .fin v => (v.val : ℝ)
  | .inf => ⊤

theorem metricLt_iff (x y : Metric) : metricLt x y = true ↔ metricValue x < metricValue y := by
  cases x with
  | inf => simp [metricLt, metricValue]
  | fin a =>
    cases y with
    | inf => simp [metricLt, metricValue]
    | fin b => simp [metricLt, metricValue, Scalar.lt_iff]

theorem metricLt_false_iff (x y : Metric) : metricLt x y = false ↔ metricValue y ≤ metricValue x := by
  rw [← not_lt, ← metricLt_iff, Bool.not_eq_true]

/-- Only `+inf` is not less than `+inf`. -/
theorem metricLt_inf_false_iff (x : Metric) : metricLt x .inf = false ↔ x = .inf := by
  cases x <;> simp [metricLt]

/-! ### Candidates and their scan order (R192, R193) -/

/-- The candidate of a branch: the old metric of its state plus its branch metric. -/
def candidate (p : Params) (r : List Cpx) (pm : List Metric) (br : Nat × Bool) : Metric :=
  metricAdd p.numerics (pm.getD br.1 .inf) (branchMetric p r br.1 br.2)

/-- R193's sum over the components. -/
theorem distance_eq_foldr (r k : List Cpx) :
    distance r k = (List.zipWith (fun x k => normSq (csub x k)) r k).foldr Scalar.add (.rat 0) := by
  induction r generalizing k with
  | nil => rfl
  | cons x xs ih =>
    cases k with
    | nil => rfl
    | cons k ks => rw [distance, ih, List.zipWith_cons_cons, List.foldr_cons]

/-- A branch leads to the state `sp`. -/
abbrev leadsTo (f : Fsm) (sp : Nat) (br : Nat × Bool) : Bool := nextState f br.1 br.2 == sp

theorem mem_branchList {n : Nat} {br : Nat × Bool} : br ∈ branchList n ↔ br.1 < n := by
  obtain ⟨s, i⟩ := br
  cases i <;> simp [branchList]

/-- The place of a branch in R192's scan: states ascending, then inputs ascending. -/
def scanRank (br : Nat × Bool) : Nat := 2 * br.1 + br.2.toNat

theorem pairwise_scanRank_branchList (n : Nat) : (branchList n).Pairwise fun x y => scanRank x < scanRank y := by
  refine List.pairwise_flatMap.2 ⟨fun s _ => by simp [scanRank], ?_⟩
  refine List.pairwise_lt_range.imp fun {s t} hst x hx y hy => ?_
  have hstate {u : Nat} {z : Nat × Bool} (hz : z ∈ [(u, false), (u, true)]) : z.1 = u := by
    rcases List.mem_pair.1 hz with rfl | rfl <;> rfl
  have hxs := hstate hx
  have hyt := hstate hy
  have hbit := Bool.toNat_le x.2
  simp only [scanRank]
  omega

/-- In a list sorted by `rank` the elements of a lower rank than the first greatest one have a smaller value. -/
theorem firstMax_lt_of_rank_lt {α β : Type} [LinearOrder β] {f : α → β} {l : List α} {j : Nat} {b x : α}
    {rank : α → Nat} (h : Carrier.FirstMax f l j b) (hl : l.Pairwise fun x y => rank x < rank y) (hx : x ∈ l)
    (hlt : rank x < rank b) : f x < f b := by
  obtain ⟨k, hk, rfl⟩ := List.getElem_of_mem hx
  obtain ⟨hj, rfl⟩ := List.getElem?_eq_some_iff.1 h.at_index
  refine h.first k _ (Nat.lt_of_not_le fun hjk => ?_) (List.getElem?_eq_getElem hk)
  rcases hjk.eq_or_lt with rfl | hjk
  · exact lt_irrefl _ hlt
  · exact lt_asymm hlt (List.pairwise_iff_getElem.1 hl j k hj hk hjk)

/-! ### The scan of add-compare-select (R192, R194) -/

variable {p : Params} {r : List Cpx} {pm : List Metric} {sp : Nat} {l : List (Nat × Bool)} {acc : List Metric × Column}
  {br : Nat × Bool}

/-- The order in which the least candidate is the greatest. -/
noncomputable def merit (p : Params) (r : List Cpx) (pm : List Metric) (br : Nat × Bool) : (WithTop ℝ)ᵒᵈ :=
  OrderDual.toDual (metricValue (candidate p r pm br))

theorem merit_lt_iff {a b : Nat × Bool} :
    merit p r pm a < merit p r pm b ↔ metricLt (candidate p r pm b) (candidate p r pm a) = true :=
  OrderDual.toDual_lt_toDual.trans (metricLt_iff _ _).symm

theorem merit_le_iff {a b : Nat × Bool} :
    merit p r pm a ≤ merit p r pm b ↔ metricLt (candidate p r pm a) (candidate p r pm b) = false :=
  OrderDual.toDual_le_toDual.trans (metricLt_false_iff _ _).symm

/-- What the arrays `acc` hold at state `sp` after the branches `l` that lead there: `+inf` and no survivor while every
candidate is infinite, and otherwise the first branch of least candidate, with that candidate. -/
inductive Selected (p : Params) (r : List Cpx) (pm : List Metric) (sp : Nat) (l : List (Nat × Bool))
    (acc : List Metric × Column) : Prop
  | none (metric : acc.1[sp]? = some .inf) (survivor : acc.2[sp]? = some none)
      (infinite : ∀ br ∈ l, candidate p r pm br = .inf)
  | branch (j : Nat) (br : Nat × Bool) (metric : acc.1[sp]? = some (candidate p r pm br))
      (survivor : acc.2[sp]? = some (some br)) (finite : candidate p r pm br ≠ .inf)
      (least : Carrier.FirstMax (merit p r pm) l j br)

theorem Selected.lt_length (h : Selected p r pm sp l acc) : sp < acc.1.length ∧ sp < acc.2.length := by
  cases h with
  | none metric survivor | branch _ _ metric survivor =>
    exact ⟨(List.getElem?_eq_some_iff.1 metric).1, (List.getElem?_eq_some_iff.1 survivor).1⟩

/-- A branch to another state changes nothing at `sp`. -/
theorem acsStep_elsewhere (h : nextState p.fsm br.1 br.2 ≠ sp) :
    (acsStep p r pm acc br).1[sp]? = acc.1[sp]? ∧ (acsStep p r pm acc br).2[sp]? = acc.2[sp]? := by
  rcases acsStep_cases p r pm acc br with ⟨-, he⟩ | ⟨v, -, he⟩ <;> rw [he]
  · exact ⟨rfl, rfl⟩
  · exact ⟨List.getElem?_set_ne h, List.getElem?_set_ne h⟩

/-- A branch to `sp` whose candidate is not less than the metric held there changes nothing. -/
theorem acsStep_loses {m : Metric} (hsp : nextState p.fsm br.1 br.2 = sp) (hm : acc.1[sp]? = some m)
    (h : metricLt (candidate p r pm br) m = false) : acsStep p r pm acc br = acc := by
  have hheld : acc.1.getD (nextState p.fsm br.1 br.2) .inf = m := by rw [hsp, List.getD_eq_getElem?_getD, hm]; rfl
  refine if_neg ?_
  rw [hheld]
  exact ne_true_of_eq_false h

/-- A branch to `sp` whose candidate is less than the metric held there becomes the survivor. -/
theorem acsStep_wins {m : Metric} (hsp : nextState p.fsm br.1 br.2 = sp) (hm : acc.1[sp]? = some m)
    (h : metricLt (candidate p r pm br) m = true) :
    acsStep p r pm acc br = (acc.1.set sp (candidate p r pm br), acc.2.set sp (some br)) := by
  subst hsp
  have hheld : acc.1.getD (nextState p.fsm br.1 br.2) .inf = m := by rw [List.getD_eq_getElem?_getD, hm]; rfl
  refine if_pos ?_
  rw [hheld]
  exact h

/-- The first finite candidate after infinite ones is the first least one. -/
theorem firstMax_append_finite (hall : ∀ x ∈ l, candidate p r pm x = .inf)
    (hfin : metricLt (candidate p r pm br) .inf = true) : Carrier.FirstMax (merit p r pm) (l ++ [br]) l.length br := by
  have hlt (x : Nat × Bool) (hx : x ∈ l) : merit p r pm x < merit p r pm br := by
    rwa [merit_lt_iff, hall x hx]
  refine ⟨by simp, fun x hx => ?_, fun k x hk hx => ?_⟩
  · rcases List.mem_append.1 hx with hx | hx
    · exact (hlt x hx).le
    · rw [List.mem_singleton.1 hx]
  · rw [List.getElem?_append_left hk] at hx
    exact hlt x (List.mem_of_getElem? hx)

/-- One branch to `sp` more: the strict comparison of R194 keeps the first least candidate. -/
theorem Selected.acsStep_to (h : Selected p r pm sp l acc) (hsp : nextState p.fsm br.1 br.2 = sp) :
    Selected p r pm sp (l ++ [br]) (acsStep p r pm acc br) := by
  obtain ⟨hlen, hlen'⟩ := h.lt_length
  cases h with
  | none metric survivor infinite =>
    cases hlt : metricLt (candidate p r pm br) .inf with
    | false =>
      rw [acsStep_loses hsp metric hlt]
      refine .none metric survivor fun x hx => ?_
      rcases List.mem_append.1 hx with hx | hx
      · exact infinite x hx
      · rw [List.mem_singleton.1 hx]
        exact (metricLt_inf_false_iff _).1 hlt
    | true =>
      rw [acsStep_wins hsp metric hlt]
      exact .branch l.length br (List.getElem?_set_self hlen) (List.getElem?_set_self hlen')
        (fun he => by simp [he, metricLt] at hlt) (firstMax_append_finite infinite hlt)
  | branch j b metric survivor finite least =>
    cases hlt : metricLt (candidate p r pm br) (candidate p r pm b) with
    | false =>
      rw [acsStep_loses hsp metric hlt]
      exact .branch j b metric survivor finite (least.append_not_greater (merit_le_iff.2 hlt))
    | true =>
      rw [acsStep_wins hsp metric hlt]
      exact .branch l.length br (List.getElem?_set_self hlen) (List.getElem?_set_self hlen')
        (fun he => by simp [he, metricLt] at hlt) (least.append_greater (merit_lt_iff.2 hlt))

theorem Selected.of_eq_at {acc' : List Metric × Column} (h : Selected p r pm sp l acc)
    (hm : acc'.1[sp]? = acc.1[sp]?) (hs : acc'.2[sp]? = acc.2[sp]?) : Selected p r pm sp l acc' := by
  cases h with
  | none metric survivor infinite => exact .none (hm.trans metric) (hs.trans survivor) infinite
  | branch j b metric survivor finite least =>
    exact .branch j b (hm.trans metric) (hs.trans survivor) finite least

theorem Selected.acsStep_branch (h : Selected p r pm sp (l.filter (leadsTo p.fsm sp)) acc) :
    Selected p r pm sp ((l ++ [br]).filter (leadsTo p.fsm sp)) (acsStep p r pm acc br) := by
  rw [List.filter_append]
  by_cases hsp : nextState p.fsm br.1 br.2 = sp
  · simpa [hsp] using h.acsStep_to hsp
  · obtain ⟨hm, hs⟩ := acsStep_elsewhere (r := r) (pm := pm) (acc := acc) hsp
    simpa [hsp] using h.of_eq_at hm hs

/-- After the whole scan every state holds the first least of its candidates. -/
theorem selected_addCompareSelect (p : Params) (r : List Cpx) (pm : List Metric) (hsp : sp < p.fsm.nstates) :
    Selected p r pm sp ((branchList p.fsm.nstates).filter (leadsTo p.fsm sp)) (addCompareSelect p r pm) := by
  unfold addCompareSelect
  induction branchList p.fsm.nstates using List.reverseRecOn with
  | nil => exact .none (by simp [hsp]) (by simp [hsp]) (by simp)
  | append_singleton l br ih =>
    rw [List.foldl_append, List.foldl_cons, List.foldl_nil]
    exact ih.acsStep_branch

/-- Settles O50: what `Selected` says after the whole scan; an earlier pair of the scan stands before the survivor. -/
theorem addCompareSelectKeepsFirstLeast : Obligations.AddCompareSelectKeepsFirstLeast := by
  intro p r pm sp _ hsp ns os bm cand acs
  have hcand (s : Nat) (i : Bool) : cand s i = candidate p r pm (s, i) := by
    simp only [candidate, branchMetric, distance_eq_foldr]
    rfl
  have hmem (s : Nat) (i : Bool) :
      (s, i) ∈ (branchList p.fsm.nstates).filter (leadsTo p.fsm sp) ↔ s < p.fsm.nstates ∧ ns s i = sp := by
    rw [List.mem_filter, mem_branchList, beq_iff_eq]
    rfl
  have hsel : Selected p r pm sp _ acs := selected_addCompareSelect p r pm hsp
  simp only [hcand]
  cases hsel with
  | none metric survivor infinite =>
    have hall (s : Nat) (i : Bool) (hs : s < p.fsm.nstates) (hns : ns s i = sp) : candidate p r pm (s, i) = .inf :=
      infinite _ ((hmem s i).2 ⟨hs, hns⟩)
    refine ⟨fun s i h => ?_, iff_of_true survivor hall, fun _ => metric⟩
    cases survivor.symm.trans h
  | branch j b metric survivor finite least =>
    obtain ⟨s, i⟩ := b
    obtain ⟨hs, hns⟩ := (hmem s i).1 (List.mem_of_getElem? least.at_index)
    have hsome : acs.2[sp]? ≠ some none := by simp [survivor]
    refine ⟨fun s' i' h => ?_, iff_of_false hsome fun hall => finite (hall s i hs hns), fun h => absurd h hsome⟩
    cases survivor.symm.trans h
    refine ⟨hs, hns, metric, fun s' i' hs' hns' => ?_⟩
    have hin := (hmem s' i').2 ⟨hs', hns'⟩
    refine ⟨merit_le_iff.1 (least.greatest _ hin), fun hearlier => merit_lt_iff.1 ?_⟩
    refine firstMax_lt_of_rank_lt least ((pairwise_scanRank_branchList _).filter _) hin ?_
    rcases hearlier with hlt | ⟨rfl, rfl, rfl⟩
    · have hbit := Bool.toNat_le i'
      simp only [scanRank]
      omega
    · exact Nat.lt_succ_self _

end Sys2Proof.Proofs.Trellis
end

section
/-! SUPPORT. VIT.STEP on a sequence of values (42_viterbi.md R192, R196, R197, R199): the value that completes a received
vector, the decision of the completed trellis step, and the counts from reset. -/

namespace Sys2Proof.Proofs.Trellis

open Sys2Proof Sys2Proof.Machine Sys2Proof.Proofs.Viterbi

/-! ### Survivor memory and the decision -/

/-- R196 with the columns counted before the push. -/
theorem pushColumn_eq (tb : Nat) (sv : List Column) (col : Column) :
    pushColumn tb sv col = if tb < sv.length + 1 then (sv ++ [col]).drop 1 else sv ++ [col] := by
  rw [pushColumn, List.length_append, List.length_singleton]

theorem pushColumn_length {tb : Nat} {sv : List Column} (h : sv.length ≤ tb) (col : Column) :
    (pushColumn tb sv col).length = min (sv.length + 1) tb := by
  rw [pushColumn_eq]
  split
  · rw [List.length_drop, List.length_append, List.length_singleton]
    omega
  · rw [List.length_append, List.length_singleton]
    omega

/-- Before `VIT_TB` columns are held nothing is decided. -/
theorem emitDecision_early {tb : Nat} {sv : List Column} (h : sv.length ≠ tb) (pm : List Metric) :
    emitDecision tb sv pm = .ok [] := if_neg h

/-- A decided bit is the one R197's walk answers. -/
theorem traceback_of_emitDecision {tb : Nat} {sv : List Column} {pm : List Metric} {b : Bool}
    (h : emitDecision tb sv pm = .ok [b]) : traceback sv.reverse (argminMetric pm) = .ok b := by
  unfold emitDecision at h
  split at h
  · cases hwalk : traceback sv.reverse (argminMetric pm) <;> rw [hwalk] at h <;> cases h
    rfl
  · cases h

/-! ### The completed trellis step -/

/-- The registers after the trellis step with the received vector `r` (R192). -/
def afterStep (p : Params) (u : VitRegs) (r : List Cpx) : VitRegs where
  vbuf := r.map some
  vcnt := 0
  pm := normalise p.numerics (addCompareSelect p r u.pm).1
  sv := pushColumn p.vitTb u.sv (addCompareSelect p r u.pm).2

/-- A trellis step with sound tables does what its decision does. -/
theorem trellisStep_eq {p : Params} {u : VitRegs} (hf : p.fsm.wf = true) (hpm : u.pm.length = p.fsm.nstates)
    (r : List Cpx) :
    trellisStep p u (r.map some) r =
      (emitDecision p.vitTb (afterStep p u r).sv (afterStep p u r).pm).map fun out => (afterStep p u r, out) := by
  simp only [trellisStep, hf, hpm, beq_self_eq_true, Bool.and_self, if_true, afterStep]
  cases emitDecision p.vitTb (pushColumn p.vitTb u.sv (addCompareSelect p r u.pm).2)
    (normalise p.numerics (addCompareSelect p r u.pm).1) <;> rfl

variable {i : ChanInst}

/-- R197: a trellis step that leaves fewer than `VIT_TB` columns emits nothing. -/
theorem trellisStep_early (hi : ViterbiInv i) (hf : i.par.fsm.wf = true) (h : i.vit.sv.length + 1 < i.par.vitTb)
    (r : List Cpx) : trellisStep i.par i.vit (r.map some) r = .ok (afterStep i.par i.vit r, []) := by
  have hlen := pushColumn_length hi.sv_le (addCompareSelect i.par r i.vit.pm).2
  rw [trellisStep_eq hf hi.pm_length, emitDecision_early]
  · rfl
  · show (pushColumn _ _ _).length ≠ _
    omega

/-- R197: a trellis step that leaves `VIT_TB` columns emits the bit of the walk from the best state. -/
theorem trellisStep_decides (hi : ViterbiInv i) (hf : i.par.fsm.wf = true) (htb : 1 ≤ i.par.vitTb)
    (h : i.par.vitTb ≤ i.vit.sv.length + 1) (r : List Cpx) :
    ∃ b, traceback (afterStep i.par i.vit r).sv.reverse (argminMetric (afterStep i.par i.vit r).pm) = .ok b ∧
      trellisStep i.par i.vit (r.map some) r = .ok (afterStep i.par i.vit r, [b]) := by
  obtain ⟨u, b, hstep⟩ := trellisStep_emits hi hf htb h (r.map some) r
  have heq := trellisStep_eq hf hi.pm_length r
  cases hdec : emitDecision i.par.vitTb (afterStep i.par i.vit r).sv (afterStep i.par i.vit r).pm with
  | error e => rw [hdec, hstep] at heq; cases heq
  | ok out =>
    rw [hdec] at heq
    cases heq.symm.trans hstep
    exact ⟨b, traceback_of_emitDecision hdec, heq⟩

/-- The value that completes a received vector makes the trellis step with it (R192). -/
theorem vitOp_completes {p : Params} {u : VitRegs} {got : List Cpx} (hcnt : u.vcnt = got.length)
    (hc : got.length + 1 = p.c) (hlen : u.vbuf.length = p.c) (hbuf : u.vbuf.take got.length = got.map some) (x : Cpx) :
    vitOp p u x = trellisStep p u ((got ++ [x]).map some) (got ++ [x]) := by
  have hlt : got.length < u.vbuf.length := by omega
  have hset : u.vbuf.set got.length (some x) = (got ++ [x]).map some := by
    rw [List.set_eq_take_append_cons_drop, if_pos hlt, hbuf, List.drop_of_length_le (by omega), List.map_append]
    rfl
  have hread := Scope.memRead_set_next .vitVbuf hbuf hlt x
  rw [hset] at hread
  simp only [vitOp, hcnt, memWrite_ok _ _ _ _ hlt, ← hc, Nat.lt_irrefl, if_false, hset, hread]

/-- Settles O21: the completing value makes the trellis step, which emits nothing early and the walk's bit later. -/
theorem trellisStepDecides : Obligations.TrellisStepDecides := by
  intro c s x rest got hen hcoh hin hi hf htb hcnt hc hbuf i r acs pm sv after
  have hafter : afterStep i.par i.vit r = after := by
    simp only [afterStep, pushColumn_eq]
    rfl
  have hop : vitOp i.par i.vit x = trellisStep i.par i.vit (r.map some) r :=
    vitOp_completes hcnt hc hi.vbuf_length hbuf x
  constructor
  · intro hfew hroom
    have hstep := hop.trans (trellisStep_early hi hf hfew r)
    rw [hafter] at hstep
    exact onInst_done (fireUnit_eq _ [] hin hen hcoh hstep (.inl hroom) (by rw [List.append_nil]))
  · intro hfull hroom
    obtain ⟨b, hwalk, hstep⟩ := trellisStep_decides hi hf htb hfull r
    replace hstep := hop.trans hstep
    rw [hafter] at hwalk hstep
    exact ⟨b, hwalk, onInst_done (fireUnit_eq _ [b] hin hen hcoh hstep (.inl hroom) rfl)⟩

/-! ### Counts over a sequence (R199) -/

/-- The written elements at the front of a buffer are the images of their values. -/
theorem exists_take_eq_map_some {α : Type} {buf : Buffer α} {n : Nat} (h : WrittenBelow buf n) (hn : n ≤ buf.length) :
    ∃ vs : List α, vs.length = n ∧ buf.take vs.length = vs.map some := by
  obtain ⟨vs, hvs⟩ : buf.take n ∈ Set.range (List.map some) := by
    rw [Set.range_list_map]
    intro e he
    obtain ⟨k, hk, rfl⟩ := List.getElem_of_mem he
    rw [List.length_take] at hk
    obtain ⟨v, hv⟩ := h k (by omega)
    exact ⟨v, by rw [List.getElem_take]; exact (List.getElem?_eq_some_iff.1 hv).2.symm⟩
  have hlen : vs.length = n := by simpa [hn] using congrArg List.length hvs
  exact ⟨vs, hlen, by rw [hlen, hvs]⟩

/-- What VIT.STEP does to the counts of the decoder (R192, R196, R197): it stores a value more, or the value completes a
trellis step, and a bit leaves exactly when `VIT_TB` columns are then held. -/
inductive Advance (p : Params) (u v : VitRegs) (out : List Bool) : Prop
  | stores (more : u.vcnt + 1 < p.c) (vcnt : v.vcnt = u.vcnt + 1) (columns : v.sv = u.sv) (bits : out = [])
  | completes (last : u.vcnt + 1 = p.c) (vcnt : v.vcnt = 0) (columns : v.sv.length = min (u.sv.length + 1) p.vitTb)
      (bits : out.length = v.sv.length + 1 - p.vitTb)

/-- A sound decoder takes every value. -/
theorem vitOp_advances (hi : ViterbiInv i) (hf : i.par.fsm.wf = true) (hc : 1 ≤ i.par.c) (htb : 1 ≤ i.par.vitTb)
    (x : Cpx) : ∃ v out, vitOp i.par i.vit x = .ok (v, out) ∧ Advance i.par i.vit v out := by
  have hlen := hi.vbuf_length
  have hlt : i.vit.vcnt < i.par.c := by
    have hcnt := hi.vcnt_lt
    omega
  by_cases hmore : i.vit.vcnt + 1 < i.par.c
  · exact ⟨_, _, Carrier.vitOp_collects hmore (by omega) x, .stores hmore rfl rfl rfl⟩
  · obtain ⟨got, hgot, hbuf⟩ := exists_take_eq_map_some hi.vbuf_written (by omega)
    have hop := vitOp_completes hgot.symm (by omega) hlen hbuf x
    have hpush : (afterStep i.par i.vit (got ++ [x])).sv.length = _ := pushColumn_length hi.sv_le _
    by_cases hfew : i.vit.sv.length + 1 < i.par.vitTb
    · refine ⟨_, [], hop.trans (trellisStep_early hi hf hfew _), .completes (by omega) rfl hpush ?_⟩
      rw [List.length_nil]
      omega
    · obtain ⟨b, -, hstep⟩ := trellisStep_decides hi hf htb (by omega) (got ++ [x])
      refine ⟨_, [b], hop.trans hstep, .completes (by omega) rfl hpush ?_⟩
      rw [List.length_singleton]
      omega

/-- An instance after reset whose decoder has the registers `u`. -/
def withDecoder (p : Params) (u : VitRegs) : ChanInst := { ChanInst.reset p Observed.empty with vit := u }

/-- The decoder after `n` values from reset, with `k` bits emitted (R199). -/
structure CountLaw (p : Params) (n : Nat) (u : VitRegs) (k : Nat) : Prop where
  sound : ViterbiInv (withDecoder p u)
  partial_eq : u.vcnt = n % p.c
  columns_eq : u.sv.length = min (n / p.c) p.vitTb
  bits_eq : k = n / p.c + 1 - p.vitTb

theorem countLaw_reset {p : Params} (htb : 1 ≤ p.vitTb) : CountLaw p 0 (ChanInst.reset p Observed.empty).vit 0 where
  sound := Invariant.viterbiInv_reset p Observed.empty
  partial_eq := (Nat.zero_mod _).symm
  columns_eq := by simp [ChanInst.reset]
  bits_eq := by
    rw [Nat.zero_div]
    omega

/-- One value more keeps the counts: a whole number of received vectors grows by one exactly when the value completes
one. -/
theorem CountLaw.vitOp_ok {p : Params} {n k : Nat} {u : VitRegs} (h : CountLaw p n u k) (hf : p.fsm.wf = true)
    (hc : 1 ≤ p.c) (htb : 1 ≤ p.vitTb) (x : Cpx) :
    ∃ v out, vitOp p u x = .ok (v, out) ∧ CountLaw p (n + 1) v (k + out.length) := by
  obtain ⟨hi, hcnt, hsv, hk⟩ := h
  obtain ⟨v, out, (hop : vitOp p u x = _), (hadv : Advance p u v out)⟩ := vitOp_advances hi hf hc htb x
  have hsound : ViterbiInv (withDecoder p v) := Invariant.viterbiInv_vitOp hi hop
  have hn := Nat.mod_add_div n p.c
  refine ⟨v, out, hop, ?_⟩
  cases hadv with
  | stores more vcnt columns bits =>
    obtain ⟨hdiv, hmod⟩ : (n + 1) / p.c = n / p.c ∧ (n + 1) % p.c = u.vcnt + 1 :=
      (Nat.div_mod_unique hc).2 ⟨by omega, more⟩
    refine ⟨hsound, vcnt.trans hmod.symm, by rw [columns, hsv, hdiv], ?_⟩
    rw [bits, hk, hdiv, List.length_nil, Nat.add_zero]
  | completes last vcnt columns bits =>
    obtain ⟨hdiv, hmod⟩ : (n + 1) / p.c = n / p.c + 1 ∧ (n + 1) % p.c = 0 :=
      (Nat.div_mod_unique hc).2 ⟨by rw [Nat.mul_succ]; omega, hc⟩
    refine ⟨hsound, vcnt.trans hmod.symm, by rw [hdiv]; omega, ?_⟩
    rw [hdiv]
    omega

/-- Settles O49: the counts hold from reset and every value keeps them. -/
theorem trellisCountLaw : Obligations.TrellisCountLaw := by
  intro p xs hf hc htb
  obtain ⟨u, out, hrun, hlaw⟩ := Coherent.runOp_law (op := vitOp p) (u := (ChanInst.reset p Observed.empty).vit)
    (law := fun xs u out => CountLaw p xs.length u out.length) (countLaw_reset htb)
    (fun xs v out x h => by simpa using h.vitOp_ok hf hc htb x) xs
  exact ⟨u, out, hrun, hlaw.bits_eq, hlaw.partial_eq, hlaw.columns_eq⟩

end Sys2Proof.Proofs.Trellis
end

section
/-! SUPPORT. The non-coherent demodulator (43_demod_noncoherent.md): QD.STEP, RRC.STEP, CR.STEP, TCORR.STEP, DFE.STEP,
DFE.RETRAIN and SLICE.STEP on one token (R211 to R214, R217, R220, R223, R224, R227). -/

namespace Sys2Proof.Proofs.NonCoherent

open Sys2Proof Sys2Proof.Machine

/-- A unit of the non-coherent path selects every token while `CFG.coherent` = 0 (R231). -/
theorem not_coherent {i : ChanInst} (h : i.cfg.coherent = false) : (!i.cfg.coherent) = true := by rw [h]; rfl

/-- A unit of the equalizer's path asks for HAS_DFE as well. -/
theorem not_coherent_and_hasDfe {i : ChanInst} (hcoh : i.cfg.coherent = false) (hdfe : i.par.hasDfe = true) :
    (!i.cfg.coherent && i.par.hasDfe) = true := by rw [hcoh, hdfe]; rfl

/-- An operation of the equalizer selects the tokens with its own hit bit. -/
theorem selects_hit {i : ChanInst} {hit : Bool} (hcoh : i.cfg.coherent = false) (hdfe : i.par.hasDfe = true) :
    (!i.cfg.coherent && i.par.hasDfe && hit == hit) = true := by
  rw [not_coherent_and_hasDfe hcoh hdfe, beq_self_eq_true, Bool.and_self]

/-! ### The equalizer (R223, R224) -/

/-- The output `q` of R223, formed with the taps from before the update. -/
def dfeOutput (p : Params) (u : DfeRegs) (v : Scalar) : Scalar :=
  quant p.numerics ((dot u.wf (shiftIn u.u v)).sub (dot u.wb u.d))

/-- R223's update from the output `q` and the reference symbol `r`. -/
def dfeUpdate (p : Params) (u : DfeRegs) (v q r : Scalar) : DfeRegs where
  wf := adaptTaps p.numerics (p.dfeMuF.mul (quant p.numerics (r.sub q))) u.wf (shiftIn u.u v)
  wb := adaptTaps p.numerics (p.dfeMuB.mul (quant p.numerics (r.sub q))).neg u.wb u.d
  u := shiftIn u.u v
  d := shiftIn u.d r
  tcnt := if u.tcnt < p.dfeTrainRef.length then u.tcnt + 1 else u.tcnt

/-- The reference symbol of R223: the training symbol while training lasts, the decision on the output after it. -/
def dfeReference (p : Params) (tcnt : Nat) (q : Scalar) : Scalar :=
  if tcnt < p.dfeTrainRef.length then signValue (p.dfeTrainRef.getD tcnt .plus) else sgn q

/-- R223's body as output, reference symbol and update. -/
theorem dfeBody_eq (p : Params) (u : DfeRegs) (v : Scalar) :
    dfeBody p u v =
      (dfeUpdate p u v (dfeOutput p u v) (dfeReference p u.tcnt (dfeOutput p u v)), [dfeOutput p u v]) := by
  by_cases h : u.tcnt < p.dfeTrainRef.length
  · have hsymbol : p.dfeTrainRef[u.tcnt]? = some (p.dfeTrainRef.getD u.tcnt .plus) := by
      rw [List.getD_eq_getElem?_getD, List.getElem?_eq_getElem h]
      rfl
    simp only [dfeBody, hsymbol, dfeUpdate, dfeOutput, dfeReference, if_pos h]
  · simp only [dfeBody, List.getElem?_eq_none (Nat.le_of_not_lt h), dfeUpdate, dfeOutput, dfeReference, if_neg h]

/-- Settles O25: the body, written out. -/
theorem equalizerStep : Obligations.EqualizerStep := by
  intro c s v rest hen hcoh hdfe hin hroom i n u q training r err
  exact onInst_done (fireUnit_eq _ _ hin hen (selects_hit hcoh hdfe) (congrArg Except.ok (dfeBody_eq i.par i.dfe v))
    (.inl hroom) rfl)

/-- Zero taps give 0. -/
theorem dot_zeros (k : Nat) (x : List Scalar) : dot (List.replicate k (.rat 0)) x = .rat 0 := by
  induction k generalizing x with
  | zero => rfl
  | succ k ih => cases x <;> simp [List.replicate_succ, dot, ih]

/-- A tap that is 0 and meets a 0 stays 0. -/
theorem adaptTaps_zeros (n : Numerics) (g : Scalar) (k : Nat) :
    adaptTaps n g (List.replicate k (.rat 0)) (List.replicate k (.rat 0)) = List.replicate k (.rat 0) := by
  induction k with
  | zero => rfl
  | succ k ih => simp [List.replicate_succ, adaptTaps, ih]

theorem shiftIn_zeros {k : Nat} (hk : 1 ≤ k) (v : Scalar) :
    shiftIn (List.replicate k (.rat 0)) v = v :: List.replicate (k - 1) (.rat 0) := by
  obtain ⟨k, rfl⟩ := Nat.exists_eq_add_of_le' hk
  simp [shiftIn]

/-- The first update of cleared taps reaches the one tap that meets the input. -/
theorem adaptTaps_first (n : Numerics) (g v : Scalar) {k : Nat} (hk : 1 ≤ k) :
    adaptTaps n g (List.replicate k (.rat 0)) (v :: List.replicate (k - 1) (.rat 0)) =
      quant n (g.mul v) :: List.replicate (k - 1) (.rat 0) := by
  obtain ⟨k, rfl⟩ := Nat.exists_eq_add_of_le' hk
  simp [List.replicate_succ, adaptTaps, adaptTaps_zeros]

/-- The decision on 0 is +1 (R13). -/
theorem sgn_zero : sgn (.rat 0) = .rat 1 := Scalar.ext (by simp [val_sgn])

/-- R224's cleared registers have the sizes the parameters give. -/
theorem dfeCleared_eq {i : ChanInst} (h : StorageInv i) :
    dfeCleared i.dfe =
      { wf := List.replicate i.par.dfeNff (.rat 0), wb := List.replicate i.par.dfeNfb (.rat 0)
        u := List.replicate i.par.dfeNff (.rat 0), d := List.replicate i.par.dfeNfb (.rat 0), tcnt := 0 } := by
  rw [dfeCleared, h.dfe_wf, h.dfe_wb, h.dfe_u, h.dfe_d]

/-- From cleared taps the output is 0. -/
theorem dfeOutput_dfeCleared (p : Params) (u : DfeRegs) (v : Scalar) : dfeOutput p (dfeCleared u) v = .rat 0 := by
  simp [dfeOutput, dfeCleared, dot_zeros]

/-- The update of cleared registers from the output 0. -/
theorem dfeUpdate_dfeCleared {i : ChanInst} (h : StorageInv i) (hnff : 1 ≤ i.par.dfeNff) (v r : Scalar) :
    dfeUpdate i.par (dfeCleared i.dfe) v (.rat 0) r =
      { wf := quant i.par.numerics ((i.par.dfeMuF.mul (quant i.par.numerics r)).mul v) ::
          List.replicate (i.par.dfeNff - 1) (.rat 0)
        wb := List.replicate i.par.dfeNfb (.rat 0)
        u := v :: List.replicate (i.par.dfeNff - 1) (.rat 0)
        d := (r :: List.replicate i.par.dfeNfb (.rat 0)).take i.par.dfeNfb
        tcnt := min 1 i.par.dfeTrainRef.length } := by
  have htcnt : (if 0 < i.par.dfeTrainRef.length then 0 + 1 else 0) = min 1 i.par.dfeTrainRef.length := by
    split <;> omega
  have hd : shiftIn (List.replicate i.par.dfeNfb (.rat 0)) r =
      (r :: List.replicate i.par.dfeNfb (.rat 0)).take i.par.dfeNfb := by
    rw [shiftIn, List.length_replicate]
  simp only [dfeCleared_eq h, dfeUpdate, sub_rat_zero, shiftIn_zeros hnff, adaptTaps_first _ _ _ hnff,
    adaptTaps_zeros, htcnt, hd]

/-- Settles O26: the body on cleared registers, whose output is 0; the reference symbol by whether there is training. -/
theorem equalizerRetrain : Obligations.EqualizerRetrain := by
  intro c s v rest hen hcoh hdfe hin hstorage hnff hroom i n r
  have href : dfeReference i.par 0 (.rat 0) = r := by
    cases htrain : i.par.dfeTrainRef with
    | nil => simp [dfeReference, r, htrain, sgn_zero]
    | cons g _ => simp [dfeReference, r, htrain]
  have hbody : dfeBody i.par (dfeCleared i.dfe) v = (dfeUpdate i.par (dfeCleared i.dfe) v (.rat 0) r, [.rat 0]) := by
    rw [dfeBody_eq, dfeOutput_dfeCleared, ← href]
    rfl
  rw [dfeUpdate_dfeCleared hstorage hnff] at hbody
  exact onInst_done (fireUnit_eq _ _ hin hen (selects_hit hcoh hdfe) (congrArg Except.ok hbody) (.inl hroom) rfl)

/-! ### The discriminator and the filter (R211, R214) -/

/-- Settles O22: each unit emits one value per value taken. -/
theorem discriminatorAndFilterSteps : Obligations.DiscriminatorAndFilterSteps := by
  constructor
  · intro c s x rest hen hcoh hin hroom i gain
    exact onInst_done (fireUnit_eq _ _ hin hen (not_coherent hcoh) rfl (.inl hroom) rfl)
  · intro c s v rest hen hcoh hin hroom i dl
    exact onInst_done (fireUnit_eq _ _ hin hen (not_coherent hcoh) rfl (.inl hroom) rfl)

/-! ### The clock recovery (R217) -/

/-- A symbol instant lies between the previous input and this one. -/
theorem crOp_symbol {p : Params} {r : CfgRec} {u : CrRegs} (h : u.t.val < 1) (x : Scalar) :
    crOp p r u x = .ok (crSymbol p r u x) := if_pos ((Scalar.lt_iff _ _).2 (by simpa using h))

/-- The symbol instant is at least one sample away: it comes nearer and nothing leaves. -/
theorem crOp_counts {p : Params} {r : CfgRec} {u : CrRegs} (h : 1 ≤ u.t.val) (x : Scalar) :
    crOp p r u x = .ok ({ u with prevIn := x, t := quant p.numerics (u.t.sub (.rat 1)) }, []) :=
  if_neg (by simpa [Scalar.lt_iff] using h)

/-- Settles O23, by where the symbol instant lies. -/
theorem clockRecoveryStep : Obligations.ClockRecoveryStep := by
  intro c s x rest hen hcoh hin i n out mm lo hi om next
  constructor
  · intro ht hroom
    exact onInst_done (fireUnit_eq _ _ hin hen (not_coherent hcoh) (crOp_symbol ht x) (.inl hroom) rfl)
  · intro ht hroom
    exact onInst_done (fireUnit_eq _ [] hin hen (not_coherent hcoh) (crOp_counts ht x) (.inl hroom)
      (by rw [List.append_nil]))

/-! ### The training correlator (R220) -/

/-- R220's register: shifted up by one place, the new bit at the bottom, `k` bits kept. -/
theorem shift_or_mask_eq_mod (sr k : Nat) {b : Nat} (hb : b < 2) :
    ((sr <<< 1) ||| b) &&& (2 ^ k - 1) = (2 * sr + b) % 2 ^ k := by
  rw [Nat.and_two_pow_sub_one_eq_mod, ← Nat.shiftLeft_add_eq_or_of_lt (by simpa using hb), Nat.shiftLeft_eq, pow_one,
    Nat.mul_comm]

theorem trainHit_eq (plen pattern cnt sr : Nat) :
    trainHit plen pattern cnt sr = decide (plen ≤ cnt ∧ sr = pattern) := by
  rw [trainHit, Bool.decide_and, beq_eq_decide]

/-- TCORR.STEP on one token, in R220's own terms. -/
theorem tcorrOp_eq {p : Params} {u : TcorrRegs} {v : Scalar} {b sr cnt : Nat} (hb : b = if 0 ≤ v.val then 1 else 0)
    (hsr : sr = ((u.sr <<< 1) ||| b) &&& (2 ^ p.dfeTrainPlen - 1)) (hcnt : cnt = min (u.cnt + 1) p.dfeTrainPlen) :
    tcorrOp p u v =
      .ok ({ sr := sr, cnt := cnt },
        [{ v := v, hit := decide (p.dfeTrainPlen ≤ cnt ∧ sr = p.dfeTrainPattern) }]) := by
  have hlt : b < 2 := by rw [hb]; split <;> decide
  have hbit : (if hardBit v then 1 else 0) = b := by simp only [hb, hardBit_eq, decide_eq_true_eq]
  rw [shift_or_mask_eq_mod _ _ hlt] at hsr
  simp only [tcorrOp, hbit, ← hsr, ← hcnt, trainHit_eq]

/-- Settles O24: the value passes on with the hit bit of `tcorrOp_eq`. -/
theorem trainingCorrelatorStep : Obligations.TrainingCorrelatorStep := by
  intro c s v rest hen hcoh hdfe hin hroom i b sr cnt
  exact onInst_done (fireUnit_eq _ _ hin hen (not_coherent_and_hasDfe hcoh hdfe) (tcorrOp_eq rfl rfl rfl)
    (.inl hroom) rfl)

/-! ### The slicer (R227) -/

/-- Settles O27, by where the values come from. -/
theorem slicerStep : Obligations.SlicerStep := by
  intro c s v rest hen hcoh hroom i b
  have hbit : Except.ok ((), [hardBit v]) = (Except.ok ((), [b]) : Except Fault (Unit × List Bool)) := by
    rw [hardBit_eq]
  constructor
  · intro hdfe hin
    exact onInst_done ((if_pos hdfe).trans
      (fireUnit_eq () [b] hin hen (not_coherent hcoh) hbit (.inl hroom) rfl))
  · intro hdfe hin
    exact onInst_done ((if_neg (by rw [hdfe]; decide)).trans
      (fireUnit_eq () [b] hin hen (not_coherent hcoh) hbit (.inl hroom) rfl))

end Sys2Proof.Proofs.NonCoherent
end

section
/-! SUPPORT. The line decoder (44_line_decoder.md): DIFF.STEP and INV.STEP on one bit (R241, R242), and the two together
on a sequence: its closed form, the inverse of the NRZI line code and polarity (R243, R245). -/

namespace Sys2Proof.Proofs.LineDecoder

open Sys2Proof Sys2Proof.Machine

/-- Settles O28: each operation selects the bit at the head of its input, and one bit leaves per bit taken. -/
theorem lineDecoderSteps : Obligations.LineDecoderSteps := by
  intro c s b rest hen i
  constructor
  · intro hin hroom
    exact onInst_done (fireUnit_eq b [b ^^ i.ldPrev] hin hen (beq_self_eq_true b) rfl (.inl hroom) rfl)
  · intro hin hroom
    exact onInst_done (fireUnit_eq () [!b] hin hen (beq_self_eq_true b) rfl (.inl hroom) rfl)

/-! ### The decoder on a sequence -/

/-- R243's output bit for the input bit `x` after the bit `prev`: 1 when the level stays. -/
def levelBit (x prev : Bool) : Bool := !(x ^^ prev)

/-- R243's output sequence: each input bit against the one before it, the first against `prev`. -/
def decodedBits (prev : Bool) (x : List Bool) : List Bool := List.zipWith levelBit x (prev :: x)

@[simp] theorem decodedBits_nil (prev : Bool) : decodedBits prev [] = [] := rfl

@[simp] theorem decodedBits_cons (prev b : Bool) (x : List Bool) :
    decodedBits prev (b :: x) = levelBit b prev :: decodedBits b x := rfl

@[simp] theorem length_decodedBits (prev : Bool) (x : List Bool) : (decodedBits prev x).length = x.length := by
  simp [decodedBits]

/-- DIFF keeps the last bit and emits the difference of each bit from the one before it (R241). -/
theorem runOp_diffOp (prev : Bool) (x : List Bool) :
    runOp diffOp prev x = .ok (x.getLastD prev, List.zipWith xor x (prev :: x)) := by
  induction x generalizing prev with
  | nil => rfl
  | cons b x ih =>
    rw [runOp, diffOp, List.getLastD_cons]
    simp only [ih b]
    rfl

/-- The decoder completes on every sequence, with R243's bits. -/
theorem lineDecode_eq (prev : Bool) (x : List Bool) : lineDecode prev x = .ok (decodedBits prev x) := by
  rw [lineDecode, runOp_diffOp]
  exact congrArg Except.ok List.map_zipWith

/-! ### The NRZI line code (R243) -/

theorem getElem?_decodedBits (prev : Bool) {x : List Bool} {n : Nat} (hn : n < x.length) :
    (decodedBits prev x)[n]? =
      some (levelBit (x.getD n false) (if n = 0 then prev else x.getD (n - 1) false)) := by
  induction x generalizing prev n with
  | nil => cases hn
  | cons b x ih =>
    cases n with
    | zero => rfl
    | succ n =>
      have hprev : (if n = 0 then b else x.getD (n - 1) false) = (b :: x).getD n false := by cases n <;> rfl
      rw [decodedBits_cons, List.getElem?_cons_succ, ih b (Nat.lt_of_succ_lt_succ hn), hprev]
      rfl

/-- Against the level before it, the coded bit gives the bit back. -/
theorem levelBit_coded (b s : Bool) : levelBit (if b then s else !s) s = b := by cases b <;> cases s <;> rfl

/-- Decoding from the level the code started at gives the bits back. -/
theorem decodedBits_nrzi (y : List Bool) (s : Bool) : decodedBits s (nrzi y s) = y := by
  induction y generalizing s with
  | nil => rfl
  | cons b y ih => rw [nrzi, decodedBits_cons, levelBit_coded, ih]

/-- The level before the first bit reaches the first output bit and no other. -/
theorem tail_decodedBits (p q : Bool) (x : List Bool) : (decodedBits p x).tail = (decodedBits q x).tail := by
  cases x <;> rfl

/-- Decoded from the reset level 0, the first bit is right exactly when the code started there. -/
theorem head?_decodedBits_nrzi (b s : Bool) (y : List Bool) :
    (decodedBits false (nrzi (b :: y) s)).head? = some b ↔ s = false := by
  rw [nrzi, decodedBits_cons, List.head?_cons]
  cases b <;> cases s <;> decide

/-- Settles O53: the closed form of every output bit, then the decoder's inverse from the code's own starting level,
whose tail does not depend on that level. -/
theorem lineDecoderUndoesNrzi : Obligations.LineDecoderUndoesNrzi := by
  constructor
  · intro x
    exact ⟨decodedBits false x, lineDecode_eq false x, length_decodedBits false x,
      fun n hn => getElem?_decodedBits false hn⟩
  · intro y s
    have hown : lineDecode s (nrzi y s) = .ok y := by rw [lineDecode_eq, decodedBits_nrzi]
    have htail : (decodedBits false (nrzi y s)).tail = y.tail := by
      rw [tail_decodedBits false s, decodedBits_nrzi]
    refine ⟨hown, decodedBits false (nrzi y s), lineDecode_eq _ _, htail, fun hy => ?_⟩
    obtain ⟨b, rest, rfl⟩ := List.exists_cons_of_ne_nil hy
    exact head?_decodedBits_nrzi b s rest

/-! ### Polarity (R245) -/

theorem levelBit_not_left (x prev : Bool) : levelBit (!x) prev = !levelBit x prev := by
  rw [levelBit, levelBit, Bool.not_xor]

theorem levelBit_not_not (x prev : Bool) : levelBit (!x) (!prev) = levelBit x prev := by
  rw [levelBit, levelBit, Bool.not_xor_not]

/-- Complementing the level before the first bit and every bit changes no output bit. -/
theorem decodedBits_not (prev : Bool) (x : List Bool) :
    decodedBits (!prev) (x.map (fun b => !b)) = decodedBits prev x := by
  induction x generalizing prev with
  | nil => rfl
  | cons b x ih => rw [List.map_cons, decodedBits_cons, decodedBits_cons, levelBit_not_not, ih]

/-- Settles O54: only the first output bit sees the level before the sequence, which alone is not complemented. -/
theorem lineDecoderIgnoresPolarity : Obligations.LineDecoderIgnoresPolarity := by
  intro x z h
  obtain rfl : decodedBits false x = z := Except.ok.inj ((lineDecode_eq false x).symm.trans h)
  refine ⟨decodedBits false (x.map (fun b => !b)), lineDecode_eq _ _, ?_, ?_⟩
  · rw [tail_decodedBits false (!false), decodedBits_not]
  · cases x with
    | nil => rfl
    | cons b x => exact congrArg some (levelBit_not_left b false)

end Sys2Proof.Proofs.LineDecoder
end

section
/-! SUPPORT. The frame delimiter (45_frame_delimiter.md): CORR.STEP and the GATE operations on one token (R251, R256 to
R258), then the two on a sequence: the tags as patterns of the received bits (R252 to R254), the raw bits of a frame
(R259) and the window between preamble and flag (R262). -/

namespace Sys2Proof.Proofs.FrameDelimiter

open Sys2Proof Sys2Proof.Machine

/-! ### The correlators on one bit (R251) -/

theorem preambleTag_eq (cnt : Nat) (sr : BitVec 16) :
    preambleTag cnt sr = decide (16 ≤ cnt ∧ sr = preamblePattern) := by
  rw [preambleTag, Bool.decide_and, beq_eq_decide]

theorem flagTag_eq (cnt : Nat) (sr : BitVec 16) :
    flagTag cnt sr = decide (8 ≤ cnt ∧ sr.extractLsb' 0 8 = flagPattern) := by
  rw [flagTag, Bool.decide_and, beq_eq_decide]

/-- Settles O29: the tagged bit and the tags reported, with both tag bits as conditions on the new registers. -/
theorem correlatorStep : Obligations.CorrelatorStep := by
  intro c s b rest hen hin hroom i sr cnt p f
  have htag : tagBit i.fd b = { f := f, p := p, b := b } := by
    rw [tagBit, flagTag_eq, preambleTag_eq]
    rfl
  refine onInst_done (fireUnit_eq (fdNext i.par i.fd b) [tagBit i.fd b] hin hen (beq_self_eq_true b) rfl (.inl hroom) ?_)
  rw [htag]
  rfl

/-! ### The hold-back line on one bit, after the operation has set the age (R256) -/

section
variable {u : GateRegs}

theorem hold_of_closed (h : u.isOpen = false) (age : Nat) (b : Bool) :
    hold { u with age := age } b = .ok ({ u with age := age }, []) := by
  simp only [hold, h, Bool.false_eq_true, if_false]

theorem hold_stores (hopen : u.isOpen = true) (hfew : u.hbc < 7) (hline : u.hb.length = 7) (age : Nat) (b : Bool) :
    hold { u with age := age } b =
      .ok ({ u with age := age, hb := u.hb.set u.hbc (some b), hbc := u.hbc + 1 }, []) := by
  simp only [hold, hopen, if_true, if_neg (Nat.ne_of_lt hfew), memWrite_ok _ _ _ _ (hline ▸ hfew)]

theorem hold_shifts {h0 : Bool} {hs : Buffer Bool} (hopen : u.isOpen = true) (hfull : u.hbc = 7)
    (hline : u.hb = some h0 :: hs) (age : Nat) (b : Bool) :
    hold { u with age := age } b = .ok ({ u with age := age, hb := hs ++ [some b] }, [.bit h0]) := by
  have hdrop : u.hb.drop 1 = hs := by rw [hline]; rfl
  rw [← hdrop]
  exact Scope.hold_emits (u := { u with age := age }) hopen hfull hline b

end

/-! ### The gate on one token (R256 to R258) -/

/-- The step of the gate on the token at the head of `TB`: the operation's registers, and its tokens on `FT`. -/
theorem onInst_gateFire {c : Chan} {s : State} {tok : T3} {rest : List T3}
    {op : ChanInst → Except Fault (GateRegs × List FT2)} {u : GateRegs} {out : List FT2}
    (hen : unitsEnabled (s.inst c) = true) (hin : (s.inst c).ch.tb = tok :: rest) (hop : op (s.inst c) = .ok (u, out))
    (hroom : (s.inst c).ch.ft.length + out.length ≤ (s.inst c).par.depth.ft ∨ (s.inst c).ch.ft = []) :
    onInst c (gateFire tok op) s = .next (s.setInst c { s.inst c with
      gate := u
      ch := { (s.inst c).ch with tb := rest, ft := (s.inst c).ch.ft ++ out } }) :=
  onInst_done (fireUnit_eq u out hin hen (beq_self_eq_true tok) hop hroom rfl)

/-- The same for an operation that emits nothing. -/
theorem onInst_gateFire_silent {c : Chan} {s : State} {tok : T3} {rest : List T3}
    {op : ChanInst → Except Fault (GateRegs × List FT2)} {u : GateRegs}
    (hen : unitsEnabled (s.inst c) = true) (hroom : (s.inst c).ch.ft.length ≤ (s.inst c).par.depth.ft)
    (hin : (s.inst c).ch.tb = tok :: rest) (hop : op (s.inst c) = .ok (u, [])) :
    onInst c (gateFire tok op) s = .next (s.setInst c { s.inst c with
      gate := u
      ch := { (s.inst c).ch with tb := rest } }) := by
  rw [onInst_gateFire hen hin hop (.inl hroom), List.append_nil]

/-- Settles O30: `hold` changes nothing in a closed gate, so only the age that the operation wrote before it moves. -/
theorem gateDropsOutsideFrame : Obligations.GateDropsOutsideFrame := by
  intro c s b rest hen hclosed hroom i
  exact ⟨fun hin => onInst_gateFire_silent hen hroom hin (hold_of_closed hclosed _ b),
    fun hin => onInst_gateFire_silent hen hroom hin (hold_of_closed hclosed 0 b)⟩

/-- Settles O31: below seven held bits the line stores the bit, at seven it shifts. -/
theorem gateHoldsBackSevenBits : Obligations.GateHoldsBackSevenBits := by
  intro c s b rest hen hopen i aged
  constructor
  · intro hfew hline hroom stored
    exact ⟨fun hin => onInst_gateFire_silent hen hroom hin (hold_stores hopen hfew hline aged b),
      fun hin => onInst_gateFire_silent hen hroom hin (hold_stores hopen hfew hline 0 b)⟩
  · intro h0 hs hfull hline hroom shifted
    exact ⟨fun hin => onInst_gateFire hen hin (hold_shifts hopen hfull hline aged b) (.inl hroom),
      fun hin => onInst_gateFire hen hin (hold_shifts hopen hfull hline 0 b) (.inl hroom)⟩

/-- Settles O32: GATE.FLAG completes in every state of the gate, with R258's registers and tokens. -/
theorem gateFlagClosesAndOpens : Obligations.GateFlagClosesAndOpens := by
  intro c s p b rest hen hin i age out hroom
  exact onInst_gateFire hen hin rfl hroom

/-! ### The correlators on a sequence from reset (R252 to R254) -/

/-- The correlators' registers after reset (R48). -/
def fdReset : FdRegs := { sr := 0, cnt := 0, pos := 0 }

@[simp] theorem fdRun_concat (p : Params) (u : FdRegs) (l : List Bool) (b : Bool) :
    fdRun p u (l ++ [b]) = fdNext p (fdRun p u l) b := List.foldl_concat ..

theorem fdRun_cnt (p : Params) (l : List Bool) : (fdRun p fdReset l).cnt = min l.length 16 := by
  induction l using List.reverseRecOn with
  | nil => rfl
  | append_singleton l b ih =>
    simp only [fdRun_concat, fdNext, ih, List.length_append, List.length_singleton]
    omega

theorem fdRun_pos (p : Params) (l : List Bool) : (fdRun p fdReset l).pos = l.length % 2 ^ p.posW := by
  induction l using List.reverseRecOn with
  | nil => exact (Nat.zero_mod _).symm
  | append_singleton l b ih => rw [fdRun_concat, fdNext, ih, Nat.mod_add_mod, List.length_append, List.length_singleton]

theorem getLsbD_srNext (sr : BitVec 16) (b : Bool) {k : Nat} (hk : k < 16) :
    (srNext sr b).getLsbD k = if k = 0 then b else sr.getLsbD (k - 1) := by
  cases k with
  | zero => cases b <;> simp [srNext]
  | succ k =>
    have hbit : (if b then 1 else 0 : BitVec 16).getLsbD (k + 1) = false := by cases b <;> simp
    rw [srNext, BitVec.getLsbD_or, BitVec.getLsbD_shiftLeft, hbit, Bool.or_false]
    simp [hk]

/-- Bit `k` of the shift register is the bit received `k` bits before the newest one, 0 for one before reset. -/
theorem fdRun_sr (p : Params) (l : List Bool) {k : Nat} (hk : k < 16) :
    (fdRun p fdReset l).sr.getLsbD k = l.reverse.getD k false := by
  induction l using List.reverseRecOn generalizing k with
  | nil => simp [fdRun, fdReset]
  | append_singleton l b ih =>
    rw [fdRun_concat, fdNext, getLsbD_srNext _ _ hk, List.reverse_concat]
    cases k with
    | zero => rfl
    | succ k => exact ih (Nat.lt_of_succ_lt hk)

/-- The bits received end in a pattern when there are enough of them and the newest are the pattern's word, its last
bit in bit 0. -/
theorem suffix_iff_newest {n : Nat} {pat : List Bool} {w : BitVec n} (hlen : pat.length = n)
    (hpat : ∀ k < n, pat.reverse[k]? = some (w.getLsbD k)) (l : List Bool) :
    pat <:+ l ↔ n ≤ l.length ∧ ∀ k < n, l.reverse.getD k false = w.getLsbD k := by
  have hiff (h : n ≤ l.length) : pat <:+ l ↔ ∀ k < n, l.reverse.getD k false = w.getLsbD k := by
    rw [← List.reverse_prefix, List.prefix_iff_getElem?]
    simp only [List.length_reverse, hlen]
    refine forall₂_congr fun k hk => ?_
    have hnewest : l.reverse[k]? = some (l.reverse.getD k false) := by
      rw [List.getD_eq_getElem _ _ (by rw [List.length_reverse]; omega), List.getElem?_eq_getElem]
    rw [← List.getElem?_eq_getElem, hpat k hk, hnewest, Option.some_inj]
  constructor
  · intro h
    have hle : n ≤ l.length := hlen ▸ h.length_le
    exact ⟨hle, (hiff hle).1 h⟩
  · rintro ⟨hle, h⟩
    exact (hiff hle).2 h

/-- R252: the preamble tag after the bits `l`. -/
theorem preambleTag_fdRun (p : Params) (l : List Bool) :
    preambleTag (fdRun p fdReset l).cnt (fdRun p fdReset l).sr = true ↔ pre16 <:+ l := by
  rw [suffix_iff_newest (w := preamblePattern) rfl (by decide), preambleTag_eq, decide_eq_true_eq, fdRun_cnt,
    Nat.le_min, BitVec.eq_of_getLsbD_eq_iff]
  refine and_congr (by simp) (forall₂_congr fun k hk => ?_)
  rw [fdRun_sr p l hk]

/-- R252: the flag tag after the bits `l`. -/
theorem flagTag_fdRun (p : Params) (l : List Bool) :
    flagTag (fdRun p fdReset l).cnt (fdRun p fdReset l).sr = true ↔ flagBits <:+ l := by
  rw [suffix_iff_newest (w := flagPattern) rfl (by decide), flagTag_eq, decide_eq_true_eq, fdRun_cnt, Nat.le_min,
    BitVec.eq_of_getLsbD_eq_iff]
  refine and_congr (by simp) (forall₂_congr fun k hk => ?_)
  rw [BitVec.getLsbD_extractLsb', Nat.zero_add, fdRun_sr p l (by omega), decide_eq_true hk, Bool.true_and]

/-- Bits that end in a pattern end in its last bit; both patterns' last bit is 0. -/
theorem eq_false_of_suffix {pat l : List Bool} {b : Bool} (hpat : pat.getLast? = some false) (h : pat <:+ l ++ [b]) :
    b = false := by
  obtain ⟨front, hfront⟩ := h
  have hlast : (front ++ pat).getLast? = some b := by rw [hfront, List.getLast?_concat]
  rw [List.getLast?_append, hpat] at hlast
  exact (Option.some.inj hlast).symm

/-- The flag is no end of the preamble pattern, so no bits end in both (R253). -/
theorem not_suffix_both (l : List Bool) : ¬ (pre16 <:+ l ∧ flagBits <:+ l) := by
  rintro ⟨hpre, hflag⟩
  exact absurd (List.suffix_of_suffix_length_le hflag hpre (by decide)) (by decide)

theorem producible_iff (t : T3) :
    T3.producible t = true ↔ ¬ (t.p = true ∧ t.f = true) ∧ (t.p = true ∨ t.f = true → t.b = false) := by
  obtain ⟨f, p, b⟩ := t
  revert f p b
  decide

/-- Settles O55: the tags as suffixes of the received bits; that a tagged bit is a 0 and has one tag are facts about the
two patterns. -/
theorem tagsExactlyOnPatterns : Obligations.TagsExactlyOnPatterns := by
  intro par l b u t
  have hnext : fdRun par fdReset (l ++ [b]) = fdNext par u b := fdRun_concat ..
  have hp : t.p = true ↔ pre16 <:+ l ++ [b] := by
    rw [← preambleTag_fdRun par, hnext]
    rfl
  have hf : t.f = true ↔ flagBits <:+ l ++ [b] := by
    rw [← flagTag_fdRun par, hnext]
    rfl
  refine ⟨hp, hf, rfl, (producible_iff t).2 ⟨?_, ?_⟩, fdRun_pos par l⟩
  · rw [hp, hf]
    exact not_suffix_both _
  · rw [hp, hf]
    rintro (h | h) <;> exact eq_false_of_suffix rfl h

/-! ### The gate on a sequence -/

section
variable {σ τ ω : Type} {op : σ → τ → Except Fault (σ × List ω)} {u v w : σ} {x : τ} {xs : List τ} {out more : List ω}

theorem runOp_cons (hop : op u x = .ok (v, out)) (hrun : runOp op v xs = .ok (w, more)) :
    runOp op u (x :: xs) = .ok (w, out ++ more) := by
  simp only [runOp, hop, hrun]

theorem runOp_concat (hrun : runOp op u xs = .ok (v, out)) (hop : op v x = .ok (w, more)) :
    runOp op u (xs ++ [x]) = .ok (w, out ++ more) := by
  rw [runOp_append op u v xs [x] out hrun, runOp_cons hop rfl, List.append_nil]
  rfl

end

/-- R256, R257: a token without a flag tag moves the age and gives its bit to `hold`. -/
theorem gateOp_of_not_flag (p : Params) (u : GateRegs) {t : T3} (h : t.f = false) :
    gateOp p u t = hold { u with age := flagAge p u t.p } t.b := by
  rcases t with ⟨f, _ | _, b⟩ <;> obtain rfl : f = false := h <;> rfl

/-- The registers after a flag-tagged token (R258). -/
def flagged (p : Params) (u : GateRegs) (preamble : Bool) : GateRegs :=
  { u with age := flagAge p u preamble, isOpen := flagAge p u preamble ≤ p.window, hbc := 0 }

theorem gateOp_flag (p : Params) (u : GateRegs) (preamble b : Bool) :
    gateOp p u ⟨true, preamble, b⟩ = .ok (flagged p u preamble,
      (if u.isOpen then [.eof] else []) ++ (if (flagged p u preamble).isOpen then [.sof] else [])) := by
  simp only [gateOp, gateFlagOp, flagged, if_true, decide_eq_true_eq]

/-! ### The raw bits of a frame (R259) -/

/-- A frame is open and the hold-back line holds the bits `held`, the oldest first (R41, R256). -/
structure Holding (u : GateRegs) (held : List Bool) : Prop where
  isOpen : u.isOpen = true
  line_length : u.hb.length = 7
  line : held.map some <+: u.hb
  count : u.hbc = held.length

section
variable {u : GateRegs} {held : List Bool}

/-- An opening flag leaves the line empty (R258). -/
theorem holding_flagged {p : Params} {preamble : Bool} (hopens : flagAge p u preamble ≤ p.window)
    (hline : u.hb.length = 7) : Holding (flagged p u preamble) [] where
  isOpen := decide_eq_true hopens
  line_length := hline
  line := List.nil_prefix
  count := rfl

/-- Below seven held bits the bit joins them and nothing leaves. -/
theorem Holding.stores (h : Holding u held) (hfew : held.length < 7) (age : Nat) (b : Bool) :
    ∃ v, hold { u with age := age } b = .ok (v, []) ∧ Holding v (held ++ [b]) := by
  refine ⟨_, hold_stores h.isOpen (h.count ▸ hfew) h.line_length age b, h.isOpen, ?_, ?_, ?_⟩
  · rw [List.length_set, h.line_length]
  · obtain ⟨free, hfree⟩ := h.line
    cases free with
    | nil =>
      have := h.line_length
      rw [← hfree, List.append_nil, List.length_map] at this
      omega
    | cons x free =>
      refine ⟨free, ?_⟩
      simp only [← hfree, h.count]
      rw [List.set_append_right _ _ (by simp)]
      simp
  · simp [h.count]

/-- At seven the bit pushes the oldest one out. -/
theorem Holding.shifts {h0 : Bool} (h : Holding u (h0 :: held)) (hfull : held.length = 6) (age : Nat) (b : Bool) :
    ∃ v, hold { u with age := age } b = .ok (v, [.bit h0]) ∧ Holding v (held ++ [b]) := by
  have hline : u.hb = some h0 :: held.map some :=
    (h.line.eq_of_length (by simp [h.line_length, hfull])).symm
  refine ⟨_, hold_shifts h.isOpen (by rw [h.count, List.length_cons, hfull]) hline age b, h.isOpen, ?_, ?_, ?_⟩
  · simp [hfull]
  · simp
  · simp [h.count]

end

/-- In an open frame that holds nothing yet, the bits put out and the bits held are the raw bits, and of these the last
seven are held. -/
theorem runOp_gateOp_holding (p : Params) {u : GateRegs} (hu : Holding u []) (raw : List T3)
    (hraw : ∀ t ∈ raw, t.f = false) :
    ∃ v sent held, runOp (gateOp p) u raw = .ok (v, sent.map FT2.bit) ∧ Holding v held ∧
      raw.map T3.b = sent ++ held ∧ held.length = min raw.length 7 := by
  induction raw using List.reverseRecOn with
  | nil => exact ⟨u, [], [], rfl, hu, rfl, rfl⟩
  | append_singleton raw t ih =>
    obtain ⟨hbefore, ht⟩ := List.forall_mem_append.1 hraw
    obtain ⟨v, sent, held, hrun, hv, hbits, hheld⟩ := ih hbefore
    have hop := gateOp_of_not_flag p v (ht t (List.mem_singleton_self t))
    by_cases hfew : held.length < 7
    · have hnone : sent.length = 0 := by
        have := congrArg List.length hbits
        rw [List.length_map, List.length_append] at this
        omega
      obtain ⟨w, hhold, hw⟩ := hv.stores hfew (flagAge p v t.p) t.b
      refine ⟨w, sent, held ++ [t.b], ?_, hw, by simp [hbits], by simp; omega⟩
      rw [runOp_concat hrun (hop.trans hhold), List.append_nil]
    · obtain ⟨h0, held, rfl⟩ := List.exists_cons_of_length_pos (by omega : 0 < held.length)
      rw [List.length_cons] at hfew hheld
      obtain ⟨w, hhold, hw⟩ := hv.shifts (by omega) (flagAge p v t.p) t.b
      refine ⟨w, sent ++ [h0], held ++ [t.b], ?_, hw, by simp [hbits], by simp; omega⟩
      rw [runOp_concat hrun (hop.trans hhold), List.map_append]
      rfl

/-- Settles O56: the opening flag empties the line, the raw bits pass through it, and the next flag drops the ones it
still holds. -/
theorem gateForwardsFrameBits : Obligations.GateForwardsFrameBits := by
  intro p u raw x y hline hopens hraw
  have hempty : Holding (flagged p u false) [] := holding_flagged hopens hline
  obtain ⟨v, sent, held, hrun, hv, hbits, hheld⟩ := runOp_gateOp_holding p hempty raw hraw
  have hsent : (raw.take (raw.length - 7)).map (fun t => FT2.bit t.b) = sent.map FT2.bit := by
    have hlen := congrArg List.length hbits
    rw [List.length_map, List.length_append] at hlen
    have htake : (raw.map T3.b).take (raw.length - 7) = sent := by
      rw [hbits, List.take_left' (by omega)]
    rw [← htake, ← List.map_take, List.map_map]
    rfl
  have hrest := runOp_concat hrun (gateOp_flag p v false y)
  refine ⟨flagged p v false, _, ?_, rfl⟩
  rw [List.cons_append, runOp_cons (gateOp_flag p u false x) hrest, hsent, hempty.isOpen, hv.isOpen]
  simp only [if_true, List.append_assoc]

/-! ### The window (R262) -/

/-- While no frame is open, data bits only make the gate older, up to `W + 1` (R256). -/
theorem runOp_gateOp_closed (p : Params) {u : GateRegs} (hclosed : u.isOpen = false) (hage : u.age ≤ p.window + 1)
    (mid : List Bool) :
    runOp (gateOp p) u (mid.map fun b => ⟨false, false, b⟩) =
      .ok ({ u with age := min (u.age + mid.length) (p.window + 1) }, []) := by
  induction mid using List.reverseRecOn with
  | nil => rw [List.length_nil, Nat.add_zero, Nat.min_eq_left hage]; rfl
  | append_singleton mid b ih =>
    have hop := gateOp_of_not_flag p { u with age := min (u.age + mid.length) (p.window + 1) }
      (t := ⟨false, false, b⟩) rfl
    have hnext : min (u.age + (mid.length + 1)) (p.window + 1) =
        ageNext p (min (u.age + mid.length) (p.window + 1)) := by rw [ageNext]; omega
    rw [List.map_append, List.map_singleton, runOp_concat ih (hop.trans (hold_of_closed hclosed _ b)),
      List.length_append, List.length_singleton, hnext]
    rfl

/-- Settles O57: the preamble tag sets the age to 0, every bit after it adds 1 up to `W + 1`, and the flag compares. -/
theorem gateWindowBoundary : Obligations.GateWindowBoundary := by
  intro p u mid x y hclosed
  have hpre : gateOp p u ⟨false, true, x⟩ = .ok ({ u with age := 0 }, []) :=
    (gateOp_of_not_flag p u rfl).trans (hold_of_closed hclosed 0 x)
  have hmid := runOp_gateOp_closed p (u := { u with age := 0 }) hclosed (Nat.zero_le _) mid
  have hflag := gateOp_flag p { u with age := min (0 + mid.length) (p.window + 1) } false y
  have hopens : (flagged p { u with age := min (0 + mid.length) (p.window + 1) } false).isOpen =
      decide (mid.length + 1 ≤ p.window) := by
    refine decide_eq_decide.2 ?_
    change min (min (0 + mid.length) (p.window + 1) + 1) (p.window + 1) ≤ p.window ↔ mid.length + 1 ≤ p.window
    omega
  refine ⟨_, ?_, hopens⟩
  rw [List.cons_append, runOp_cons hpre (runOp_concat hmid hflag), hopens, hclosed]
  simp only [decide_eq_true_eq, Bool.false_eq_true, if_false, List.nil_append]

end Sys2Proof.Proofs.FrameDelimiter
end

section
/-! SUPPORT. The bit de-stuffer (46_destuffer.md): DSTF.BIT, DSTF.SOF and DSTF.EOF on one token (R266 to R268), and on
a stuffed frame (R270). -/

namespace Sys2Proof.Proofs.Destuffer

open Sys2Proof Sys2Proof.Machine

/-! ### One token -/

theorem dstfStep_one (ones : Nat) : dstfStep ones (.bit true) = (min (ones + 1) 5, [.bit true]) := rfl

/-- R267: the 0 after five 1s is a stuffed one. -/
theorem dstfStep_zero_removed {ones : Nat} (h : ones = 5) : dstfStep ones (.bit false) = (0, []) := by
  rw [dstfStep, if_pos h]

theorem dstfStep_zero_passes {ones : Nat} (h : ones ≠ 5) : dstfStep ones (.bit false) = (0, [.bit false]) := by
  rw [dstfStep, if_neg h]

/-- The step of the de-stuffer on the token at the head of `FT`: the new run length, and its tokens on `FD2`. -/
theorem onInst_dstfFire {c : Chan} {s : State} {tok : FT2} {rest out : List FT2} {ones : Nat}
    (hen : unitsEnabled (s.inst c) = true) (hin : (s.inst c).ch.ft = tok :: rest)
    (hstep : dstfStep (s.inst c).dstfOnes tok = (ones, out))
    (hroom : (s.inst c).ch.fd2.length + out.length ≤ (s.inst c).par.depth.fd2) :
    onInst c (dstfFire tok) s = .next (s.setInst c { s.inst c with
      dstfOnes := ones
      ch := { (s.inst c).ch with ft := rest, fd2 := (s.inst c).ch.fd2 ++ out } }) :=
  onInst_done (fireUnit_eq ones out hin hen (beq_self_eq_true tok) (congrArg Except.ok hstep) (.inl hroom) rfl)

/-- Settles O33: each operation is `dstfStep` on its token; only the removed 0 needs no room. -/
theorem destufferSteps : Obligations.DestufferSteps := by
  intro c s rest hen i moved
  refine ⟨?_, fun hroom => ⟨?_, ?_, ?_, ?_⟩⟩
  · exact fun hfive hin hroom => onInst_dstfFire hen hin (dstfStep_zero_removed hfive) hroom
  · exact fun hfew hin => onInst_dstfFire hen hin (dstfStep_zero_passes hfew) hroom
  · exact fun hin => onInst_dstfFire hen hin (dstfStep_one i.dstfOnes) hroom
  · exact fun hin => onInst_dstfFire hen hin rfl hroom
  · exact fun hin => onInst_dstfFire hen hin rfl hroom

/-! ### A stuffed frame (R270) -/

theorem dstfRun_cons {u v w : Nat} {t : FT2} {l out more : List FT2} (hstep : dstfStep u t = (v, out))
    (hrun : dstfRun v l = .ok (w, more)) : dstfRun u (t :: l) = .ok (w, out ++ more) :=
  FrameDelimiter.runOp_cons (congrArg Except.ok hstep) hrun

/-- R118: the fifth 1 in a row brings a 0 with it. -/
theorem stuffFrom_fifth_one (x : List Bool) : stuffFrom 4 (true :: x) = true :: false :: stuffFrom 0 x := rfl

theorem stuffFrom_one {c : Nat} (h : c + 1 ≠ 5) (x : List Bool) :
    stuffFrom c (true :: x) = true :: stuffFrom (c + 1) x := if_neg h

/-- The run length of the de-stuffer is the count of `stuff`: started at the same value below five, it meets exactly
the stuffed 0s at five. -/
theorem dstfRun_stuffFrom {c : Nat} (hc : c < 5) (x : List Bool) :
    ∃ v, dstfRun c ((stuffFrom c x).map FT2.bit) = .ok (v, x.map FT2.bit) := by
  induction x generalizing c with
  | nil => exact ⟨c, rfl⟩
  | cons b x ih =>
    cases b with
    | false =>
      obtain ⟨v, hrest⟩ := ih (c := 0) (by decide)
      exact ⟨v, dstfRun_cons (dstfStep_zero_passes hc.ne) hrest⟩
    | true =>
      by_cases hfifth : c + 1 = 5
      · obtain rfl : c = 4 := Nat.succ.inj hfifth
        obtain ⟨v, hrest⟩ := ih (c := 0) (by decide)
        rw [stuffFrom_fifth_one]
        exact ⟨v, dstfRun_cons (dstfStep_one 4) (dstfRun_cons (dstfStep_zero_removed rfl) hrest)⟩
      · obtain ⟨v, hrest⟩ := ih (c := c + 1) (by omega)
        have hcount : dstfStep c (.bit true) = (c + 1, [.bit true]) := by
          rw [dstfStep_one, Nat.min_eq_left hc]
        rw [stuffFrom_one hfifth]
        exact ⟨v, dstfRun_cons hcount hrest⟩

/-- Settles O58: SOF and EOF clear the run length, so what stood before the frame and what the frame ends with do not
matter; between them `dstfRun_stuffFrom` holds from 0. -/
theorem destuffingUndoesStuffing : Obligations.DestuffingUndoesStuffing := by
  intro ones x
  obtain ⟨v, hbits⟩ := dstfRun_stuffFrom (c := 0) (by decide) x
  have hsof : dstfStep ones .sof = (0, [.sof]) := rfl
  have heof : dstfStep v .eof = (0, [.eof]) := rfl
  have hbody : dstfRun 0 ((stuff x).map FT2.bit ++ [.eof]) = .ok (0, x.map FT2.bit ++ [.eof]) :=
    FrameDelimiter.runOp_concat hbits (congrArg Except.ok heof)
  exact dstfRun_cons (out := [.sof]) hsof hbody

end Sys2Proof.Proofs.Destuffer
end

section
/-! SUPPORT. The checksum (47_frame_parser_crc.md R285 to R290): one step of the register bit by bit, that steps over
the same bits keep registers apart, and which sixteen bits bring a register to the good value. -/

namespace Sys2Proof.Proofs.Crc

open Sys2Proof Sys2Proof.Machine

/-! ### One step of the register (R285) -/

/-- The register after a step, bit by bit: the shifted register, with the taps when bit 0 differs from the bit. -/
theorem getLsbD_crcStep (r : BitVec 16) (b : Bool) (k : Nat) :
    (crcStep r b).getLsbD k = (r.getLsbD (k + 1) ^^ ((r.getLsbD 0 ^^ b) && crcPoly.getLsbD k)) := by
  unfold crcStep
  split <;> rename_i h
  · rw [BitVec.getLsbD_xor, BitVec.getLsbD_ushiftRight, h, Bool.true_and, Nat.add_comm]
  · rw [BitVec.getLsbD_ushiftRight, Bool.eq_false_of_not_eq_true h, Bool.false_and, Bool.xor_false, Nat.add_comm]

/-- Bit 15 of the new register says whether the taps were applied: the shift brings a 0 there and the taps have a 1. -/
theorem getLsbD_crcStep_top (r : BitVec 16) (b : Bool) : (crcStep r b).getLsbD 15 = (r.getLsbD 0 ^^ b) := by
  rw [getLsbD_crcStep, BitVec.getLsbD_of_ge r 16 (le_refl _), show crcPoly.getLsbD 15 = true by decide, Bool.and_true,
    Bool.false_xor]

/-- A step can be undone when its bit is known. -/
theorem crcStep_injective (b : Bool) : Function.Injective (crcStep · b) := by
  intro r s (h : crcStep r b = crcStep s b)
  have hzero : r.getLsbD 0 = s.getLsbD 0 := by
    have htop := congrArg (BitVec.getLsbD · 15) h
    simpa only [getLsbD_crcStep_top, Bool.xor_left_inj] using htop
  refine BitVec.eq_of_getLsbD_eq fun k _ => ?_
  cases k with
  | zero => exact hzero
  | succ k =>
    have hbit := congrArg (BitVec.getLsbD · k) h
    simpa only [getLsbD_crcStep, hzero, Bool.xor_left_inj] using hbit

/-- Different bits take a register to different registers. -/
theorem crcStep_ne {b c : Bool} (h : b ≠ c) (r : BitVec 16) : crcStep r b ≠ crcStep r c := by
  intro heq
  have htop := congrArg (BitVec.getLsbD · 15) heq
  simp only [getLsbD_crcStep_top, Bool.xor_right_inj] at htop
  exact h htop

/-- A step is linear: a difference of registers goes through the step on its own. -/
theorem crcStep_xor (r s : BitVec 16) (b : Bool) : crcStep (r ^^^ s) b = crcStep r false ^^^ crcStep s b := by
  refine BitVec.eq_of_getLsbD_eq fun k _ => ?_
  simp only [BitVec.getLsbD_xor, getLsbD_crcStep]
  cases r.getLsbD 0 <;> cases s.getLsbD 0 <;> cases b <;> cases crcPoly.getLsbD k <;> simp

/-! ### A sequence of bits -/

theorem crcRun_append (r : BitVec 16) (l m : List Bool) : crcRun r (l ++ m) = crcRun (crcRun r l) m := List.foldl_append

theorem crcRun_injective (l : List Bool) : Function.Injective (crcRun · l) := by
  induction l with
  | nil => exact Function.injective_id
  | cons b l ih => exact ih.comp (crcStep_injective b)

theorem crcRun_xor (r s : BitVec 16) (l : List Bool) :
    crcRun (r ^^^ s) l = crcRun r (List.replicate l.length false) ^^^ crcRun s l := by
  induction l generalizing r s with
  | nil => rfl
  | cons b l ih =>
    show crcRun (crcStep (r ^^^ s) b) l = _
    rw [crcStep_xor, ih]
    rfl

/-- A register fed with its own bits, bit 0 first, only shifts: the taps are never applied. -/
theorem crcRun_own_bits (r : BitVec 16) (n : Nat) : crcRun r ((List.range n).map fun k => r.getLsbD k) = r >>> n := by
  induction n with
  | zero => exact (BitVec.ushiftRight_zero r).symm
  | succ n ih =>
    have hbit : ((r >>> n).getLsbD 0 ^^ r.getLsbD n) = false := by
      rw [BitVec.getLsbD_ushiftRight, Nat.add_zero, Bool.xor_self]
    rw [List.range_succ, List.map_append, List.map_singleton, crcRun_snoc, ih, crcStep, hbit, if_neg Bool.false_ne_true,
      ← BitVec.shiftRight_add]

theorem crcRun_bitsLsbFirst_self (w : BitVec 16) : crcRun w (bitsLsbFirst w) = 0 := by
  rw [bitsLsbFirst, crcRun_own_bits, BitVec.ushiftRight_eq_zero (le_refl _)]
  rfl

/-- Sixteen bits reach the register as one word: the run is that of zeros from the register plus the word. -/
theorem crcRun_word (r w : BitVec 16) :
    crcRun r (bitsLsbFirst w) = crcRun (r ^^^ w) (List.replicate 16 false) := by
  have hsplit : r = (r ^^^ w) ^^^ w := by rw [BitVec.xor_assoc, BitVec.xor_self, BitVec.xor_zero]
  have hlen : (bitsLsbFirst w).length = 16 := rfl
  conv_lhs => rw [hsplit]
  rw [crcRun_xor, crcRun_bitsLsbFirst_self, hlen]
  exact BitVec.xor_zero

/-! ### The trailer (R286, R287) -/

theorem crcGood_eq_run : crcGood = crcRun (BitVec.allOnes 16) (List.replicate 16 false) := by
  simp [crcGood, crcRun, List.replicate, crcStep, crcPoly]

theorem bitsLsbFirst_injective : Function.Injective bitsLsbFirst := by
  intro v w h
  refine BitVec.eq_of_getLsbD_eq fun k hk => ?_
  exact List.map_inj_left.1 h k (List.mem_range.2 hk)

/-- Sixteen bits are the bits of a word. -/
theorem exists_bitsLsbFirst {t : List Bool} (h : t.length = 16) : ∃ w, bitsLsbFirst w = t := by
  refine ⟨(BitVec.ofBoolListLE t).cast h, List.ext_getElem h.symm fun k hk hk' => ?_⟩
  simp [bitsLsbFirst, BitVec.getLsbD_ofBoolListLE, hk']

/-- The sixteen bits that bring a register to the good value are those of its complement. -/
theorem crcRun_eq_good_iff (r : BitVec 16) {t : List Bool} (h : t.length = 16) :
    crcRun r t = crcGood ↔ t = bitsLsbFirst (~~~r) := by
  obtain ⟨w, rfl⟩ := exists_bitsLsbFirst h
  have hword : r ^^^ w = BitVec.allOnes 16 ↔ w = ~~~r := by
    rw [← BitVec.xor_allOnes, ← BitVec.xor_right_inj r (x := w), ← BitVec.xor_assoc, BitVec.xor_self, BitVec.zero_xor]
  rw [crcRun_word, crcGood_eq_run, (crcRun_injective _).eq_iff, bitsLsbFirst_injective.eq_iff, hword]

theorem crcAccepts_iff (n : Nat) (r : BitVec 16) : crcAccepts n r = true ↔ 16 ≤ n ∧ r = crcGood := by
  rw [crcAccepts, Bool.and_eq_true, decide_eq_true_eq, beq_iff_eq]

/-- Settles O59: the register runs over the payload and then over the last sixteen bits, which bring it to the good
value exactly when they are its complement. -/
theorem crcAcceptsExactlyTheTrailer : Obligations.CrcAcceptsExactlyTheTrailer := by
  intro y
  constructor
  · intro hlen
    have htrailer : (y.drop (y.length - 16)).length = 16 := by rw [List.length_drop]; omega
    have hrun := crcRun_append crcInit (y.take (y.length - 16)) (y.drop (y.length - 16))
    rw [List.take_append_drop] at hrun
    rw [crcAccepts_iff, hrun, crcRun_eq_good_iff _ htrailer, fcs]
    exact and_iff_right hlen
  · intro hshort
    rw [← Bool.not_eq_true, crcAccepts_iff]
    exact fun h => absurd h.1 (Nat.not_le.2 hshort)

/-! ### One wrong bit (R290) -/

/-- One bit changed changes the register: it sets the registers apart, and the bits after it keep them so. -/
theorem crcRun_set_ne {r : BitVec 16} {y : List Bool} {k : Nat} (hk : k < y.length) {b : Bool} (hb : y[k] ≠ b) :
    crcRun r (y.set k b) ≠ crcRun r y := by
  have hflip : y.set k b = y.take k ++ b :: y.drop (k + 1) := by rw [List.set_eq_take_append_cons_drop, if_pos hk]
  have hsplit : y = y.take k ++ y[k] :: y.drop (k + 1) := by rw [List.getElem_cons_drop, List.take_append_drop]
  conv_rhs => rw [hsplit]
  rw [hflip, crcRun_append, crcRun_append]
  exact fun h => crcStep_ne hb _ (crcRun_injective (y.drop (k + 1)) h).symm

/-- Settles O60: the frame with one bit flipped ends in another register than the accepted frame, whose register had the
good value. -/
theorem singleBitErrorRejected : Obligations.SingleBitErrorRejected := by
  intro y k hk hacc
  have hgood := ((crcAccepts_iff _ _).1 hacc).2
  have hflip : y[k] ≠ !(y.getD k false) := by simp [hk]
  rw [← Bool.not_eq_true, crcAccepts_iff, ← hgood]
  exact fun h => crcRun_set_ne hk hflip h.2

end Sys2Proof.Proofs.Crc
end

section
/-! SUPPORT. The frame parser (47_frame_parser_crc.md): FRM.SOF, FRM.BIT and FRM.EOF on one token (R282 to R284, R291,
R292), with the events of R351 and R352. -/

namespace Sys2Proof.Proofs.FrameParser

open Sys2Proof Sys2Proof.Machine

variable {i : ChanInst}

/-! ### What a bit does (R283) -/

/-- A bit of an active frame is stored and absorbed. -/
theorem frmBitOp_stores (hact : i.frm.active = true) (hovf : i.frm.ovf = false)
    (hroom : i.frm.flen < i.par.frameMaxBits) (hfb : i.frm.fb.length = i.par.frameMaxBits) (b : Bool) :
    frmBitOp i b = .ok ({ i.frm with
      fb := i.frm.fb.set i.frm.flen (some b)
      flen := i.frm.flen + 1
      crc := crcStep i.frm.crc b }, []) := by
  simp only [frmBitOp, hact, hovf, Bool.not_false, Bool.and_self, if_true, frmStore, if_neg (Nat.ne_of_lt hroom),
    memWrite_ok _ _ _ _ (hfb ▸ hroom)]

/-- A bit of an active frame that finds the buffer full is an overrun (R352). -/
theorem frmBitOp_overruns (hact : i.frm.active = true) (hovf : i.frm.ovf = false)
    (hfull : i.frm.flen = i.par.frameMaxBits) (b : Bool) :
    frmBitOp i b = .ok ({ i.frm with ovf := true }, raiseEvent i evFrameOverrun 0x29 i.par.frameMaxBits) := by
  simp only [frmBitOp, hact, hovf, Bool.not_false, Bool.and_self, if_true, frmStore, if_pos hfull]

/-- Outside an active frame, and after an overrun, the parser takes part in no frame. -/
theorem frame_not_open (h : i.frm.active = false ∨ i.frm.ovf = true) : (i.frm.active && !i.frm.ovf) = false := by
  rcases h with h | h <;> rw [h]
  · exact Bool.false_and _
  · exact Bool.and_false _

theorem frmBitOp_drops (h : i.frm.active = false ∨ i.frm.ovf = true) (b : Bool) : frmBitOp i b = .ok (i.frm, []) := by
  rw [frmBitOp, frame_not_open h, if_neg Bool.false_ne_true]

/-! ### What an end of frame does (R284) -/

/-- The EOF of an accepted frame makes its record. -/
theorem frmEofOp_accepts {bits : List Bool} (hact : i.frm.active = true) (hovf : i.frm.ovf = false)
    (hlen : i.frm.flen = bits.length) (hfb : i.frm.fb.take bits.length = bits.map some) (h16 : 16 ≤ bits.length)
    (hcrc : i.frm.crc = crcGood) :
    frmEofOp i = .ok (({ i.frm with active := false, ovf := false }, []),
      [makeRecord i.cfg (bits.take (bits.length - 16))]) := by
  have hacc : crcAccepts bits.length crcGood = true := (Crc.crcAccepts_iff _ _).2 ⟨h16, rfl⟩
  simp only [frmEofOp, frmClose, hact, hovf, hlen, hcrc, hacc, Bool.not_false, Bool.and_self, if_true,
    Scope.memRead_of_take_eq_map .frmFb hfb (Nat.sub_le _ 16)]

/-- The EOF of a rejected frame raises its event (R351). -/
theorem frmEofOp_rejects (hact : i.frm.active = true) (hovf : i.frm.ovf = false)
    (hbad : i.frm.flen < 16 ∨ i.frm.crc ≠ crcGood) :
    frmEofOp i = .ok (({ i.frm with active := false, ovf := false }, raiseEvent i evCrcFail 0x2B i.frm.flen), []) := by
  have hrej : crcAccepts i.frm.flen i.frm.crc = false := by
    rw [← Bool.not_eq_true, Crc.crcAccepts_iff]
    rintro ⟨h16, hcrc⟩
    exact hbad.elim (fun h => absurd h16 (Nat.not_le.2 h)) (fun h => h hcrc)
  simp only [frmEofOp, frmClose, hact, hovf, hrej, Bool.not_false, Bool.and_self, if_true, Bool.false_eq_true, if_false]

theorem frmEofOp_ignores (h : i.frm.active = false ∨ i.frm.ovf = true) :
    frmEofOp i = .ok (({ i.frm with active := false, ovf := false }, []), []) := by
  rw [frmEofOp, frame_not_open h, if_neg Bool.false_ne_true]

/-! ### The step of the parser on the token at the head of `FD2` -/

variable {c : Chan} {s : State} {rest : List FT2}

theorem onInst_frmBitFire {b : Bool} {u : FrmRegs} {l : List Event} (hen : unitsEnabled (s.inst c) = true)
    (hin : (s.inst c).ch.fd2 = .bit b :: rest) (hop : frmBitOp (s.inst c) b = .ok (u, l)) :
    onInst c (frmBitFire b) s = .next (s.setInst c { s.inst c with
      frm := u
      obs := (s.inst c).obs.emitDiag l
      ch := { (s.inst c).ch with fd2 := rest } }) :=
  onInst_done (fireUnit_eq (u, l) [] hin hen (beq_self_eq_true _) (by rw [hop]; rfl) (.inr rfl) rfl)

theorem onInst_frmEofFire {u : FrmRegs} {l : List Event} {out : List Rec} (hen : unitsEnabled (s.inst c) = true)
    (hin : (s.inst c).ch.fd2 = .eof :: rest) (hop : frmEofOp (s.inst c) = .ok ((u, l), out))
    (hroom : (s.inst c).ch.rOut.length + out.length ≤ (s.inst c).par.depth.rOut) :
    onInst c frmEofFire s = .next (s.setInst c { s.inst c with
      frm := u
      obs := (s.inst c).obs.emitDiag l
      ch := { (s.inst c).ch with fd2 := rest, rOut := (s.inst c).ch.rOut ++ out } }) :=
  onInst_done (fireUnit_eq (u, l) out hin hen (beq_self_eq_true _) hop (.inl hroom) rfl)

/-- Raising nothing leaves the observer ports. -/
@[simp] theorem emitDiag_nil (o : Observed) : o.emitDiag [] = o := by simp [Observed.emitDiag]

/-- Settles O34: FRM.SOF is one firing, and FRM.BIT one for each case of `frmBitOp`. -/
theorem parserStartAndBits : Obligations.ParserStartAndBits := by
  intro c s b rest hen i
  refine ⟨fun hin => ?_, fun hin => ⟨fun hact hovf hroom hfb => ?_, fun hact hovf hfull => ?_, fun hclosed => ?_⟩⟩
  · exact onInst_done (fireUnit_eq (frmSofRegs i.frm) [] hin hen rfl rfl (.inr rfl) rfl)
  · have hstep := onInst_frmBitFire hen hin (frmBitOp_stores hact hovf hroom hfb b)
    rwa [emitDiag_nil] at hstep
  · exact onInst_frmBitFire hen hin (frmBitOp_overruns hact hovf hfull b)
  · have hstep := onInst_frmBitFire hen hin (frmBitOp_drops hclosed b)
    rwa [emitDiag_nil] at hstep

/-- Settles O35: one firing for each case of `frmEofOp`; only an accepted frame needs room in `R_OUT`. -/
theorem parserEndOfFrame : Obligations.ParserEndOfFrame := by
  intro c s rest hen hin hfits i after
  refine ⟨fun bits hact hovf hlen hfb h16 hcrc hroom => ?_, fun hact hovf hbad => ?_, fun hclosed => ?_⟩
  · have hstep := onInst_frmEofFire hen hin (frmEofOp_accepts hact hovf hlen hfb h16 hcrc) hroom
    have hbits : (bits.take (bits.length - 16)).length = bits.length - 16 := by
      rw [List.length_take, Nat.min_eq_left (Nat.sub_le _ _)]
    rwa [emitDiag_nil, makeRecord, hbits] at hstep
  · have hstep := onInst_frmEofFire hen hin (frmEofOp_rejects hact hovf hbad) hfits
    rwa [List.append_nil] at hstep
  · have hstep := onInst_frmEofFire hen hin (frmEofOp_ignores hclosed) hfits
    rwa [emitDiag_nil, List.append_nil] at hstep

end Sys2Proof.Proofs.FrameParser
end

section
/-! SUPPORT. Host signals, the configuration check and the queue (48_system_ops.md, 70_reset_and_hazards.md R380, R381,
47_frame_parser_crc.md R293): the exact next state of each system operation. -/

namespace Sys2Proof.Proofs.SystemOps

open Sys2Proof Sys2Proof.Machine

variable {c : Chan} {s : State}

/-! ### Host signals (R312, R325) -/

/-- The pending signal is taken. -/
theorem takeSignal_pending {g : Signal} {k : State → State} {rest : List Signal} (h : s.signals = g :: rest) :
    takeSignal g k s = .next (k { s with signals := rest }) := by
  simp only [takeSignal, h, if_true]

/-- A pending signal given to one instance changes that instance alone. -/
theorem takeSignal_chan {g : Signal} {f : ChanInst → ChanInst} {rest : List Signal} (h : s.signals = g :: rest) :
    takeSignal g (onTarget (.chan c) f) s = .next ({ s with signals := rest }.setInst c (f (s.inst c))) := by
  rw [takeSignal_pending h, onTarget, signals_inst]

/-- Settles O7: the pending reset is taken in every state, and the two resets are R380's and R381's. -/
theorem resetSignalRestores : Obligations.ResetSignalRestores := by
  intro s rest
  refine ⟨fun c h => ?_, fun h => takeSignal_pending h⟩
  have hstep := takeSignal_pending (k := applyReset (.chan c)) h
  rwa [applyReset, signals_inst] at hstep

/-- Settles O10: each signal is taken and its change is given to its target. -/
theorem startStopEndOfStream : Obligations.StartStopEndOfStream := by
  intro s rest go drain u
  exact ⟨fun _ h => takeSignal_chan h, fun h => takeSignal_pending h, fun _ h => takeSignal_chan h,
    fun h => takeSignal_pending h, fun _ h => takeSignal_chan h, fun h => takeSignal_pending h⟩

/-! ### CFG.LOAD (R310) -/

/-- The pending load is taken. -/
theorem execCfgLoad_pending {r : CfgRec} {rest : List Signal} (h : s.signals = .load c r :: rest) :
    execCfgLoad c s = .next ({ s with signals := rest }.setInst c (loadInst r (s.inst c))) := by
  simp only [execCfgLoad, h, if_true]

/-- An accepted record has the hard-wired symbol rate already, so CFG takes it as it is (R23, R311). -/
theorem configure_cfg {r : CfgRec} (h : r.symbolRate = 9600) : ({ r with symbolRate := 9600 } : CfgRec) = r := by
  rw [← h]

/-- Settles O8: the three cases of `loadInst`. -/
theorem loadConfiguresOrRefuses : Obligations.LoadConfiguresOrRefuses := by
  intro c s r rest h i u
  have hstep : exec (.cfgLoad c) s = .next (u.setInst c (loadInst r i)) := execCfgLoad_pending h
  refine ⟨fun hlc hok => ?_, fun hlc hbad => ?_, fun hlc => ?_⟩
  · obtain ⟨hsym, -⟩ := Invariant.cfgCheck_eq_zero hok
    rw [hstep, loadInst, if_pos hlc, if_pos hok, configure, configure_cfg hsym]
  · rw [hstep, loadInst, if_pos hlc, if_neg hbad]
    rfl
  · rw [hstep, Invariant.loadInst_of_ne hlc]
    show Host.Outcome.next (u.setInst c (s.inst c)) = .next u
    rw [← signals_inst s c rest, setInst_inst]

/-! ### The checks of a load (R311) -/

theorem rateBad_iff (r : CfgRec) :
    rateBad r = true ↔ r.sampleRate = 0 ∨ r.decim = 0 ∨ r.sampleRate.toNat % r.decim.toNat ≠ 0 := by
  simp only [rateBad, Bool.or_eq_true, beq_iff_eq, bne_iff_ne, or_assoc]

/-- `SPS` as a real (R6). -/
theorem val_spsOf (r : CfgRec) :
    (spsOf r).val = ((r.sampleRate.toNat / r.decim.toNat : Nat) : ℝ) / 9600 := by
  simp [spsOf, fsOf, Config.symbolRate]

theorem timingBad_iff (r : CfgRec) :
    timingBad r = true ↔ r.coherent = false ∧ (r.gainMu.val < 0 ∨ r.gainOmega.val < 0 ∨ r.omegaRel.val < 0 ∨
      1 ≤ r.omegaRel.val ∨
        ((r.sampleRate.toNat / r.decim.toNat : Nat) : ℝ) / 9600 * (1 - r.omegaRel.val) < 1) := by
  simp only [timingBad, Bool.and_eq_true, Bool.not_eq_true', Bool.or_eq_true, Scalar.lt_iff, Scalar.le_iff,
    Scalar.val_mul, Scalar.val_sub, Scalar.val_rat, val_spsOf, Rat.cast_zero, Rat.cast_one, or_assoc]

theorem wmaxOk_false_iff (o : Option Scalar) : wmaxOk o = false ↔ ∃ w, o = some w ∧ w.val ≤ 0 := by
  cases o with
  | none => simp [wmaxOk]
  | some w => simp [wmaxOk, Scalar.lt_false_iff]

/-- R191's bounds, broken. -/
theorem fsm_wf_false_iff (f : Fsm) :
    f.wf = false ↔ f.nstates < 1 ∨ f.no < 1 ∨ f.ns.length ≠ f.nstates ∨ f.os.length ≠ f.nstates ∨
      (∃ e ∈ f.ns, f.nstates ≤ e.1 ∨ f.nstates ≤ e.2) ∨ (∃ e ∈ f.os, f.no ≤ e.1 ∨ f.no ≤ e.2) := by
  simp only [Fsm.wf, Bool.and_eq_false_iff, decide_eq_false_iff_not, beq_eq_false_iff_ne, List.all_eq_false,
    Bool.not_eq_true, Nat.not_le, Nat.not_lt, or_assoc, ne_eq]

/-- The coherent path's constraints, broken (R7, R191, R311; log entry 20). -/
theorem coherentWf_false_iff (p : Params) :
    p.coherentWf = false ↔ p.q < 1 ∨ p.c < 1 ∨ p.mfLen < 1 ∨ p.rsmpTaps.length < 1 ∨ p.vitTb < 1 ∨ p.fsm.wf = false ∨
      p.mfTaps.length ≠ p.c ∨ (∃ row ∈ p.mfTaps, row.length ≠ p.mfLen) ∨
      p.const.length ≠ p.fsm.no ∨ (∃ row ∈ p.const, row.length ≠ p.c) ∨
      p.costasBw.val ≤ 0 ∨ p.costasDamp.val ≤ 0 ∨ (∃ w, p.costasWmax = some w ∧ w.val ≤ 0) ∨
      p.energyFrac.val ≤ 0 ∨ 1 < p.energyFrac.val := by
  simp only [Params.coherentWf, Bool.and_eq_false_iff, decide_eq_false_iff_not, beq_eq_false_iff_ne, List.all_eq_false,
    Bool.not_eq_true, Nat.not_le, or_assoc, ne_eq, wmaxOk_false_iff, Scalar.lt_false_iff, Scalar.le_false_iff,
    Scalar.val_rat, Rat.cast_zero, Rat.cast_one]

/-- The code of the first of seven conditions that holds, 0 when none does (R311, R343). -/
def firstCode (e1 e2 e3 e4 e5 e6 e7 : Prop) [Decidable e1] [Decidable e2] [Decidable e3] [Decidable e4] [Decidable e5]
    [Decidable e6] [Decidable e7] : BitVec 4 :=
  if e1 then 1 else if e2 then 2 else if e3 then 3 else if e4 then 4 else if e5 then 5 else if e6 then 6
    else if e7 then 7 else 0

theorem firstCode_iff (e1 e2 e3 e4 e5 e6 e7 : Prop) [Decidable e1] [Decidable e2] [Decidable e3] [Decidable e4]
    [Decidable e5] [Decidable e6] [Decidable e7] :
    let code := firstCode e1 e2 e3 e4 e5 e6 e7
    (code = 1 ↔ e1) ∧ (code = 2 ↔ ¬ e1 ∧ e2) ∧ (code = 3 ↔ ¬ e1 ∧ ¬ e2 ∧ e3) ∧ (code = 4 ↔ ¬ e1 ∧ ¬ e2 ∧ ¬ e3 ∧ e4) ∧
    (code = 5 ↔ ¬ e1 ∧ ¬ e2 ∧ ¬ e3 ∧ ¬ e4 ∧ e5) ∧ (code = 6 ↔ ¬ e1 ∧ ¬ e2 ∧ ¬ e3 ∧ ¬ e4 ∧ ¬ e5 ∧ e6) ∧
    (code = 7 ↔ ¬ e1 ∧ ¬ e2 ∧ ¬ e3 ∧ ¬ e4 ∧ ¬ e5 ∧ ¬ e6 ∧ e7) ∧
    (code = 0 ↔ ¬ e1 ∧ ¬ e2 ∧ ¬ e3 ∧ ¬ e4 ∧ ¬ e5 ∧ ¬ e6 ∧ ¬ e7) := by
  unfold firstCode
  split_ifs <;> simp [*]

theorem cfgCheck_eq_firstCode (p : Params) (r : CfgRec) :
    cfgCheck p r = firstCode (r.symbolRate ≠ 9600) (rateBad r = true) (r.fftlen = 0)
      (r.designator ≠ 0x41 ∧ r.designator ≠ 0x42) ((!r.coherent && !p.hasNc) = true) (timingBad r = true)
      ((r.coherent && !p.coherentWf) = true) := rfl

/-- Settles O9: the check is the code of the first condition that holds, each condition as R311 words it. -/
theorem firstFailedCheckInOrder : Obligations.FirstFailedCheckInOrder := by
  intro p r sps listed sizes others e1 e2 e3 e4 e5 e6 e7
  have h2 : rateBad r = true ↔ e2 := rateBad_iff r
  have h5 : (!r.coherent && !p.hasNc) = true ↔ e5 := by
    rw [Bool.and_eq_true, Bool.not_eq_true', Bool.not_eq_true']
  have h6 : timingBad r = true ↔ e6 := timingBad_iff r
  have h7 : (r.coherent && !p.coherentWf) = true ↔ e7 := by
    rw [Bool.and_eq_true, Bool.not_eq_true', coherentWf_false_iff, fsm_wf_false_iff]
    refine and_congr_right fun _ => iff_of_eq ?_
    simp only [listed, sizes, others]
    ac_rfl
  rw [← h2, ← h5, ← h6, ← h7, cfgCheck_eq_firstCode]
  exact firstCode_iff ..

/-! ### SRC.SAMPLE and SYS.DRAINED (R314, R319) -/

theorem sampleEnabled_iff (i : ChanInst) :
    sampleEnabled i = true ↔ i.lc = .running ∧ i.ch.sIn.length < i.par.depth.sIn := by
  rw [sampleEnabled, Bool.and_eq_true, beq_iff_eq, decide_eq_true_eq]

/-- An offered sample is accepted or remains the source's. -/
theorem execSrcSample_offered {z : Cpx} {rest : List Cpx} (h : s.offers c = z :: rest) :
    execSrcSample c s =
      if sampleEnabled (s.inst c) then
        .next ((s.setOffers c rest).setInst c
          { s.inst c with ch := { (s.inst c).ch with sIn := (s.inst c).ch.sIn ++ [z] } })
      else .next s := by
  simp only [execSrcSample, h]

/-- Settles O11: the two cases of R314's condition. -/
theorem sampleEntersInputChannel : Obligations.SampleEntersInputChannel := by
  intro c s z rest h i
  refine ⟨fun hlc hroom => ?_, fun hnot => ?_⟩
  · exact (execSrcSample_offered h).trans (if_pos ((sampleEnabled_iff i).2 ⟨hlc, hroom⟩))
  · have hoff : ¬ sampleEnabled i = true := by
      rw [sampleEnabled_iff]
      rintro ⟨hlc, hroom⟩
      exact hnot.elim (fun hn => hn hlc) (Nat.not_le.2 hroom)
    exact (execSrcSample_offered h).trans (if_neg hoff)

/-- Settles O12: the two cases of R319's condition. -/
theorem drainedSetsCompletion : Obligations.DrainedSetsCompletion := by
  intro c s i
  refine ⟨fun hlc hch => onInst_done ?_, fun hnot => onInst_wait ?_⟩
  · exact if_pos ⟨hlc, beq_iff_eq.2 hch⟩
  · refine if_neg ?_
    rintro ⟨hlc, hch⟩
    exact hnot.elim (fun hn => hn hlc) (fun hn => hn (beq_iff_eq.1 hch))

/-! ### The queue (R293, R322, R323) -/

theorem isEmpty_eq_decide {α : Type} [DecidableEq α] (l : List α) : l.isEmpty = decide (l = []) := by
  rw [Bool.eq_iff_iff, List.isEmpty_iff, decide_eq_true_eq]

/-- Settles O13: the cases of the consumer's requests. -/
theorem consumerOperations : Obligations.ConsumerOperations := by
  intro s rest
  refine ⟨fun r q hreq hq => ?_, fun hreq hq => ?_, fun hreq => ?_⟩
  · simp only [exec, execQPop, hreq, hq]
  · simp only [exec, execQPop, hreq, hq]
  · simp only [exec, execQEmpty, hreq, isEmpty_eq_decide]

theorem queueHasRoom_iff (s : State) : queueHasRoom s = true ↔ ∀ d, s.qdepth = some d → s.q.length < d := by
  unfold queueHasRoom
  cases s.qdepth with
  | none => simp
  | some d => simp

/-- Settles O14: the two cases of R293's condition. -/
theorem pushAppendsRecord : Obligations.PushAppendsRecord := by
  intro c s r rest hen hr i
  refine ⟨fun hroom => ?_, fun d hd hfull => ?_⟩
  · simp only [Scope.exec_outPush, Scope.afterPush, hr, hen, (queueHasRoom_iff s).2 hroom, Bool.and_self, if_true]
    rfl
  · have hnone : queueHasRoom s = false := by
      rw [← Bool.not_eq_true, queueHasRoom_iff]
      exact fun h => absurd (h d hd) (Nat.not_lt.2 hfull)
    simp only [Scope.exec_outPush, Scope.afterPush, hr, hnone, Bool.and_false, Bool.false_eq_true, if_false]

end Sys2Proof.Proofs.SystemOps
end

section
/-! SUPPORT. Rules over all operations (48_system_ops.md R312, R316, R324, 60_exceptions.md R341, R344, R347, R364):
which operations wait, that an operation with an owner neither reads nor writes the other one's state, where the life
cycle can move, and which events an operation can add. -/

namespace Sys2Proof.Proofs.SystemOps

open Sys2Proof Sys2Proof.Machine

variable {op : Instr} {c d : Chan} {s t : State} {i : ChanInst}

/-! ### Operations that wait (R312, R316, R231) -/

section Waiting

variable {τ υ ω : Type} {inp : List τ} {sel : τ → Bool} {run : τ → Except Fault (υ × List ω)} {depth : Nat}
  {port : List ω} {commit : List τ → υ → List ω → ChanInst}

/-- A unit that selects no token waits. -/
theorem fireUnit_unselected (h : ∀ x, sel x = false) : fireUnit i inp sel run depth port commit = .wait := by
  unfold fireUnit
  split
  · cases inp with
    | nil => rfl
    | cons x rest => exact if_neg (by rw [h x]; exact Bool.false_ne_true)
  · rfl

end Waiting

/-- OUT.PUSH waits where unit operations are not enabled. -/
theorem exec_outPush_disabled (h : unitsEnabled (s.inst c) = false) : exec (.outPush c) s = .next s := by
  rw [Scope.exec_outPush, Scope.afterPush]
  cases (s.inst c).ch.rOut with
  | nil => rfl
  | cons r rest => simp only [h, Bool.false_and, Bool.false_eq_true, if_false]

theorem sliceFire_disabled (h : unitsEnabled i = false) : sliceFire i = .wait := by
  unfold sliceFire
  split <;> exact fireUnit_disabled h

theorem sliceFire_coherent (h : i.cfg.coherent = true) : sliceFire i = .wait := by
  have hsel : (!i.cfg.coherent) = false := by rw [h]; rfl
  unfold sliceFire
  split <;> exact fireUnit_unselected fun _ => hsel

/-- R312: outside RUNNING and DRAINING every unit operation waits. -/
theorem exec_unit_disabled (hu : unitOpChan op = some c) (h : unitsEnabled (s.inst c) = false) :
    exec op s = .next s := by
  cases op <;> simp only [unitOpChan, Option.some.injEq, reduceCtorEq] at hu <;> subst hu
  case outPush => exact exec_outPush_disabled h
  case sliceStep => exact onInst_wait (sliceFire_disabled h)
  all_goals exact onInst_wait (fireUnit_disabled h)

/-- R316: the units of the coherent path select tokens while `CFG.coherent` = 1. -/
theorem exec_coherent_unselected (h : (s.inst c).cfg.coherent = false)
    (hop : op ∈ [.costasStep c, .rsmpStep c, .mfStep c, .ilvStep c, .vitStep c]) : exec op s = .next s := by
  simp only [List.mem_cons, List.not_mem_nil, or_false] at hop
  rcases hop with rfl | rfl | rfl | rfl | rfl
  all_goals exact onInst_wait (fireUnit_unselected fun _ => h)

/-- R231, R316: the units of the non-coherent path select tokens while `CFG.coherent` = 0. -/
theorem exec_nonCoherent_unselected (h : (s.inst c).cfg.coherent = true)
    (hop : op ∈ [.qdStep c, .rrcStep c, .crStep c, .tcorrStep c, .dfeStep c, .dfeRetrain c, .sliceStep c]) :
    exec op s = .next s := by
  have hsel : (!(s.inst c).cfg.coherent) = false := by rw [h]; rfl
  simp only [List.mem_cons, List.not_mem_nil, or_false] at hop
  rcases hop with rfl | rfl | rfl | rfl | rfl | rfl | rfl
  case inr.inr.inr.inr.inr.inr => exact onInst_wait (sliceFire_coherent h)
  all_goals exact onInst_wait (fireUnit_unselected fun _ => by simp only [hsel, Bool.false_and])

/-- R36, R37: TCORR and DFE are there when HAS_DFE. -/
theorem exec_equalizer_absent (h : (s.inst c).par.hasDfe = false)
    (hop : op ∈ [.tcorrStep c, .dfeStep c, .dfeRetrain c]) : exec op s = .next s := by
  simp only [List.mem_cons, List.not_mem_nil, or_false] at hop
  rcases hop with rfl | rfl | rfl
  all_goals exact onInst_wait (fireUnit_unselected fun _ => by simp only [h, Bool.and_false, Bool.false_and])

/-- Settles O38: a unit that is not enabled or selects no token waits. -/
theorem unitOperationsWaitUnlessEnabled : Obligations.UnitOperationsWaitUnlessEnabled := by
  intro op c s i
  refine ⟨fun hu hrun hdrain => exec_unit_disabled hu ?_, exec_coherent_unselected, exec_nonCoherent_unselected,
    exec_equalizer_absent⟩
  rw [← Bool.not_eq_true, Invariant.unitsEnabled_iff]
  exact fun h => h.elim hrun hdrain

/-! ### How an operation ends -/

theorem onInst_ne_refused {f : ChanInst → Fire ChanInst} {r : Refusal} : onInst c f s ≠ .refused r := by
  unfold onInst
  split <;> exact nofun

theorem exists_takeSignal_next (g : Signal) (k : State → State) (s : State) : ∃ t, takeSignal g k s = .next t := by
  rcases takeSignal_next g k s with ⟨h, -⟩ | ⟨rest, -, h⟩ <;> exact ⟨_, h⟩

theorem exists_execCfgLoad_next (c : Chan) (s : State) : ∃ t, execCfgLoad c s = .next t := by
  unfold execCfgLoad
  split
  · split <;> exact ⟨_, rfl⟩
  · exact ⟨_, rfl⟩

theorem exists_execSrcSample_next (c : Chan) (s : State) : ∃ t, execSrcSample c s = .next t := by
  unfold execSrcSample
  split
  · exact ⟨_, rfl⟩
  · split <;> exact ⟨_, rfl⟩

theorem exists_execQPop_next (s : State) : ∃ t, execQPop s = .next t := by
  unfold execQPop
  split <;> exact ⟨_, rfl⟩

theorem exists_execQEmpty_next (s : State) : ∃ t, execQEmpty s = .next t := by
  unfold execQEmpty
  split <;> exact ⟨_, rfl⟩

/-- An operation is a firing of one instance or answers a next state in every state. -/
theorem exec_firing_or_next (op : Instr) :
    (∃ c f, ∀ s, exec op s = onInst c f s) ∨ ∀ s, ∃ t, exec op s = .next t := by
  cases hu : unitOpChan op with
  | some c =>
    by_cases hpush : op = .outPush c
    · exact .inr fun s => ⟨_, hpush ▸ Scope.exec_outPush c s⟩
    · exact .inl ⟨c, Scope.exec_unit_eq_onInst hu hpush⟩
  | none =>
    cases op <;> simp only [unitOpChan, reduceCtorEq] at hu
    case sysReset g => exact .inr fun s => exists_takeSignal_next _ _ s
    case cfgLoad c => exact .inr fun s => exists_execCfgLoad_next c s
    case sysStart g => exact .inr fun s => exists_takeSignal_next _ _ s
    case sysStop g => exact .inr fun s => exists_takeSignal_next _ _ s
    case srcSample c => exact .inr fun s => exists_execSrcSample_next c s
    case srcEos g => exact .inr fun s => exists_takeSignal_next _ _ s
    case sysDrained c => exact .inl ⟨c, drainedInst, fun _ => rfl⟩
    case qPop => exact .inr exists_execQPop_next
    case qEmpty => exact .inr exists_execQEmpty_next

/-- No operation refuses (R340). -/
theorem exec_ne_refused (op : Instr) (s : State) (r : Refusal) : exec op s ≠ .refused r := by
  rcases exec_firing_or_next op with ⟨c, f, h⟩ | h
  · rw [h]
    exact onInst_ne_refused
  · obtain ⟨t, ht⟩ := h s
    rw [ht]
    exact nofun

/-! ### Isolation (R324, R364) -/

/-- An outcome with one instance of the next state replaced. -/
def withInst (d : Chan) (x : ChanInst) : Outcome → Outcome
  | .next t => .next (t.setInst d x)
  | .fault f => .fault f
  | .refused r => .refused r

/-- An operation that neither reads nor writes an instance: replacing the instance before the operation comes to
replacing it after. -/
def Isolated (d : Chan) (f : State → Outcome) : Prop := ∀ s x, f (s.setInst d x) = withInst d x (f s)

/-- Such an operation leaves the instance: put back what stood there, and nothing has changed. -/
theorem Isolated.inst_eq {f : State → Outcome} (hf : Isolated d f) (h : f s = .next t) : t.inst d = s.inst d := by
  have hback := hf s (s.inst d)
  rw [setInst_inst, h] at hback
  have ht : t = t.setInst d (s.inst d) := Host.Outcome.next.inj hback
  rw [ht, inst_setInst_same]

theorem isolated_onInst (hd : d ≠ c) (f : ChanInst → Fire ChanInst) : Isolated d (onInst c f) := by
  intro s x
  unfold onInst
  rw [inst_setInst_of_ne s d c x hd.symm]
  split
  · rfl
  · rfl
  · exact congrArg Host.Outcome.next (setInst_comm s d c x _ hd.symm)

/-- What the outside agents have ready and an instance are written independently. -/
theorem setInst_with_signals (s : State) (d : Chan) (x : ChanInst) (l : List Signal) :
    ({ s.setInst d x with signals := l } : State) = { s with signals := l }.setInst d x := by
  cases d <;> rfl

theorem setInst_setOffers (s : State) (c d : Chan) (x : ChanInst) (l : List Cpx) :
    (s.setInst d x).setOffers c l = (s.setOffers c l).setInst d x := by
  cases c <;> cases d <;> rfl

/-- A signal given to the other instance. -/
theorem isolated_takeSignal (hd : d ≠ c) (g : Signal) (f : ChanInst → ChanInst) :
    Isolated d (takeSignal g (fun u => u.setInst c (f (u.inst c)))) := by
  intro s x
  unfold takeSignal
  rw [setInst_signals]
  split
  · rfl
  · split
    · simp only [setInst_with_signals, inst_setInst_of_ne _ d c x hd.symm]
      exact congrArg Host.Outcome.next (setInst_comm _ d c x _ hd.symm)
    · rfl

theorem isolated_execCfgLoad (hd : d ≠ c) : Isolated d (execCfgLoad c) := by
  intro s x
  unfold execCfgLoad
  rw [setInst_signals]
  split
  · split
    · simp only [setInst_with_signals, inst_setInst_of_ne _ d c x hd.symm]
      exact congrArg Host.Outcome.next (setInst_comm _ d c x _ hd.symm)
    · rfl
  · rfl

theorem isolated_execSrcSample (hd : d ≠ c) : Isolated d (execSrcSample c) := by
  intro s x
  unfold execSrcSample
  rw [setInst_offers, inst_setInst_of_ne _ d c x hd.symm]
  split
  · rfl
  · split
    · rw [setInst_setOffers]
      exact congrArg Host.Outcome.next (setInst_comm _ d c x _ hd.symm)
    · rfl

theorem isolated_outPush (hd : d ≠ c) : Isolated d (exec (.outPush c)) := by
  intro s x
  rw [Scope.exec_outPush, Scope.exec_outPush, (Scope.leavesInst_afterPush hd).setInst_eq]
  rfl

/-- A unit operation belongs to its instance. -/
theorem ownerChan_of_unit (hu : unitOpChan op = some c) : ownerChan op = some c := by
  cases op <;> first | exact hu | cases hu

/-- Every operation with an owner neither reads nor writes the other instance. -/
theorem isolated_exec (ho : ownerChan op = some c) (hd : d ≠ c) : Isolated d (exec op) := by
  cases hu : unitOpChan op with
  | some e =>
    obtain rfl : e = c := Option.some.inj ((ownerChan_of_unit hu).symm.trans ho)
    by_cases hpush : op = .outPush e
    · exact hpush ▸ isolated_outPush hd
    · obtain ⟨f, hf⟩ := Scope.exec_unit_eq_onInst hu hpush
      exact (funext hf : exec op = onInst e f) ▸ isolated_onInst hd f
  | none =>
    cases op <;> simp only [unitOpChan, reduceCtorEq] at hu
    case cfgLoad => cases ho; exact isolated_execCfgLoad hd
    case srcSample => cases ho; exact isolated_execSrcSample hd
    case sysDrained => cases ho; exact isolated_onInst hd drainedInst
    case sysReset g =>
      cases g <;> cases ho
      exact isolated_takeSignal hd _ resetInst
    case sysStart g =>
      cases g <;> cases ho
      exact isolated_takeSignal hd _ startInst
    case sysStop g =>
      cases g <;> cases ho
      exact isolated_takeSignal hd _ drainInst
    case srcEos g =>
      cases g <;> cases ho
      exact isolated_takeSignal hd _ drainInst
    case qPop => cases ho
    case qEmpty => cases ho

theorem other_ne (c : Chan) : Chan.other c ≠ c := by cases c <;> decide

/-- Settles O40: the operation's outcome is `isolated_exec`'s, in each of its cases. -/
theorem instancesAreIsolated : Obligations.InstancesAreIsolated := by
  intro op c ho s x
  have hiso := isolated_exec ho (other_ne c)
  refine ⟨fun t h => ⟨hiso.inst_eq h, ?_⟩, fun f h => ?_, exec_ne_refused op s⟩
  · rw [hiso, h, withInst]
  · rw [hiso, h, withInst]

/-! ### The life cycle (R312, R347) -/

/-- A load moves UNCONFIGURED to READY or CFG_ERROR. -/
theorem loadInst_lc (r : CfgRec) (i : ChanInst) :
    (loadInst r i).lc = i.lc ∨
      i.lc = .unconfigured ∧ ((loadInst r i).lc = .ready ∨ (loadInst r i).lc = .cfgError) := by
  rcases loadInst_cases r i with ⟨h, -⟩ | ⟨hlc, ⟨h, -⟩ | ⟨h, -⟩⟩ <;> rw [h]
  · exact .inl rfl
  · exact .inr ⟨hlc, .inl rfl⟩
  · exact .inr ⟨hlc, .inr rfl⟩

/-- Settles O43, by what an operation can do to an instance: each change of the life cycle is one arc. -/
theorem lifecycleArcs : Obligations.LifecycleArcs := by
  intro op c s t h
  cases exec_effect h with
  | same he => exact .inl (by rw [he])
  | unit _ hf => exact .inl hf.lc
  | reset hop he => exact .inr (.inl ⟨hop, by rw [he]; rfl⟩)
  | load hop r he =>
    rw [he]
    exact (loadInst_lc r _).imp_right fun hl => .inr (.inl ⟨hop, hl⟩)
  | start hop he =>
    rw [he]
    rcases startInst_cases (s.inst c) with hs | ⟨hlc, hs⟩ <;> rw [hs]
    · exact .inl rfl
    · exact .inr (.inr (.inr (.inl ⟨hop, hlc, rfl⟩)))
  | drain hop he =>
    rw [he]
    rcases drainInst_cases (s.inst c) with hs | ⟨hlc, hs⟩ <;> rw [hs]
    · exact .inl rfl
    · exact .inr (.inr (.inr (.inr (.inl ⟨hop, hlc, rfl⟩))))
  | sample _ hc he => exact .inl (by rw [he])
  | drained hop hlc he =>
    rw [he]
    exact .inr (.inr (.inr (.inr (.inr ⟨hop, hlc, rfl, rfl⟩))))

/-! ### Events (R341, R342, R344) -/

/-- An event of an operation, as R341 admits it for the instance `i`. -/
def AdmittedEvent (op : Instr) (c : Chan) (i : ChanInst) (e : Event) : Prop :=
  (e.code = 1 ∧ e.opid = 0x02 ∧ op = .cfgLoad c) ∨
    (i.par.vDiag ≤ i.cfg.verbosity.toNat ∧ e.designator = i.cfg.designator ∧
      ((e.code = 2 ∧ e.opid = 0x2B ∧ op = .frmEof c) ∨ (e.code = 3 ∧ e.opid = 0x29 ∧ ∃ b, op = .frmBit c b)))

/-- The DIAG output grows by at most one event, which R341 admits. -/
def AddsOneEvent (op : Instr) (c : Chan) (i j : ChanInst) : Prop :=
  ∃ l : List Event, j.obs.diag = i.obs.diag ++ l ∧ l.length ≤ 1 ∧ ∀ e ∈ l, AdmittedEvent op c i e

theorem addsOneEvent_of_same {j : ChanInst} (h : j.obs = i.obs) : AddsOneEvent op c i j :=
  ⟨[], by rw [h, List.append_nil], Nat.zero_le _, fun _ he => absurd he List.not_mem_nil⟩

/-- An event under the verbosity gate has the gate's premise and `CFG.designator` (R342). -/
theorem mem_raiseEvent {code : BitVec 4} {opid : BitVec 8} {info : Nat} {e : Event}
    (h : e ∈ raiseEvent i code opid info) :
    i.par.vDiag ≤ i.cfg.verbosity.toNat ∧ e.designator = i.cfg.designator ∧ e.code = code ∧ e.opid = opid := by
  unfold raiseEvent at h
  split at h
  · rename_i hgate
    obtain rfl := List.mem_singleton.1 h
    exact ⟨hgate, rfl, rfl, rfl⟩
  · exact absurd h List.not_mem_nil

/-- A unit operation adds the event of a rejected frame or of an overrun, if any (R351, R352). -/
theorem addsOneEvent_unit {j : ChanInst} (hf : UnitFrame op c i j) : AddsOneEvent op c i j := by
  obtain ⟨l, hl, hev⟩ := hf.ev
  refine ⟨l, hl, ?_, fun e he => ?_⟩
  · rcases hev with rfl | ⟨-, rfl⟩ | ⟨-, rfl⟩
    · exact Nat.zero_le _
    · exact raiseEvent_length _ _ _ _
    · exact raiseEvent_length _ _ _ _
  · rcases hev with rfl | ⟨hop, rfl⟩ | ⟨hop, rfl⟩
    · exact absurd he List.not_mem_nil
    · obtain ⟨hgate, hdes, hcode, hopid⟩ := mem_raiseEvent he
      exact .inr ⟨hgate, hdes, .inl ⟨hcode, hopid, hop⟩⟩
    · obtain ⟨hgate, hdes, hcode, hopid⟩ := mem_raiseEvent he
      exact .inr ⟨hgate, hdes, .inr ⟨hcode, hopid, hop⟩⟩

/-- A load adds an event when it is refused (R310, R350). -/
theorem addsOneEvent_load (hop : op = .cfgLoad c) (r : CfgRec) (i : ChanInst) : AddsOneEvent op c i (loadInst r i) := by
  rcases loadInst_cases r i with ⟨h, -⟩ | ⟨-, ⟨h, -⟩ | ⟨h, -⟩⟩ <;> rw [h]
  · exact addsOneEvent_of_same rfl
  · exact addsOneEvent_of_same rfl
  · refine ⟨_, rfl, Nat.le_refl 1, fun e he => ?_⟩
    obtain rfl := List.mem_singleton.1 he
    exact .inl ⟨rfl, rfl, hop⟩

/-- Settles O46, by what an operation can do to an instance: only a unit's write and a load touch DIAG. -/
theorem atMostOneEvent : Obligations.AtMostOneEvent := by
  intro op c s t h
  show AddsOneEvent op c (s.inst c) (t.inst c)
  cases exec_effect h with
  | same he => exact addsOneEvent_of_same (by rw [he])
  | unit _ hf => exact addsOneEvent_unit hf
  | reset _ he => exact addsOneEvent_of_same (by rw [he]; rfl)
  | load hop r he => exact he ▸ addsOneEvent_load hop r _
  | start _ he =>
    rw [he]
    rcases startInst_cases (s.inst c) with hs | ⟨-, hs⟩ <;> rw [hs] <;> exact addsOneEvent_of_same rfl
  | drain _ he =>
    rw [he]
    rcases drainInst_cases (s.inst c) with hs | ⟨-, hs⟩ <;> rw [hs] <;> exact addsOneEvent_of_same rfl
  | sample _ hc he => exact addsOneEvent_of_same (by rw [he])
  | drained _ _ he => exact addsOneEvent_of_same (by rw [he])

end Sys2Proof.Proofs.SystemOps
end

section
/-! SUPPORT. In a sound receiver no operation faults (60_exceptions.md R340, R359, 20_memory.md R71, 42_viterbi.md
R197): every operation that reads or writes a buffer finds it as `Inv` says, and a step is such an operation or none. -/

namespace Sys2Proof.Proofs.Invariant

open Sys2Proof Sys2Proof.Machine

variable {i : ChanInst} {c : Chan} {s : State}

/-! ### A firing without a fault -/

/-- The firing waits or is done. -/
def NoFault (x : Fire ChanInst) : Prop := ∀ e, x ≠ .fault e

section Firing

variable {τ υ ω : Type} {inp : List τ} {sel : τ → Bool} {op : τ → Except Fault (υ × List ω)} {depth : Nat}
  {port : List ω} {commit : List τ → υ → List ω → ChanInst}

/-- A firing faults in its operation only, on a token it selects in an enabled unit. -/
theorem noFault_fireUnit (h : ∀ x, unitsEnabled i = true → sel x = true → ∃ r, op x = .ok r) :
    NoFault (fireUnit i inp sel op depth port commit) := by
  intro e hfault
  obtain ⟨x, rest, -, hen, hsel, hop⟩ := fireUnit_fault hfault
  obtain ⟨r, hr⟩ := h x hen hsel
  rw [hr] at hop
  cases hop

/-- An operation without a buffer takes every token. -/
theorem noFault_of_total (h : ∀ x, ∃ r, op x = .ok r) : NoFault (fireUnit i inp sel op depth port commit) :=
  noFault_fireUnit fun x _ _ => h x

end Firing

theorem exists_onInst_next {f : ChanInst → Fire ChanInst} (h : NoFault (f (s.inst c))) :
    ∃ t, onInst c f s = .next t := by
  unfold onInst
  split
  · exact ⟨_, rfl⟩
  · exact absurd ‹_› (h _)
  · exact ⟨_, rfl⟩

/-! ### Units with a buffer -/

/-- Elements written below a count are read from the start of the buffer. -/
theorem exists_memRead_ok {α : Type} (nm : BufName) {buf : Buffer α} {m n : Nat} (h : WrittenBelow buf m) (hn : n ≤ m) :
    ∃ vs, memRead nm buf 0 n = .ok vs :=
  memRead_of_written nm buf n 0 fun k hk => by
    rw [Nat.zero_add]
    exact h k (Nat.lt_of_lt_of_le hk hn)

/-- CS: a block that completes has been written up to its last element. -/
theorem noFault_csFire (hi : InstInv i) : NoFault (csFire i) := by
  refine noFault_fireUnit fun x hen _ => ?_
  have hc := configured_of_enabled hen
  have hfill := hi.carrier.fill_lt hc
  have hlt : i.cs.fill < i.cs.buf.length := by rwa [hi.carrier.buf_length hc]
  by_cases hmore : i.cs.fill + 1 < i.cfg.fftlen.toNat
  · exact ⟨_, Carrier.csOp_collects hmore hlt x⟩
  · obtain ⟨blk, hblk⟩ := exists_memRead_ok .csBuf ((hi.carrier.buf_written hc).set hlt x)
      (by omega : i.cfg.fftlen.toNat ≤ i.cs.fill + 1)
    refine ⟨completeBlock i.par i.cfg i.cs (i.cs.buf.set i.cs.fill (some x)) blk, ?_⟩
    simp only [csOp, memWrite_ok _ _ _ _ hlt, if_neg hmore, hblk]

/-- The sizes of a sound coherent path that VIT.STEP rests on (R7, R191). -/
theorem coherentWf_viterbi {p : Params} (h : p.coherentWf = true) : 1 ≤ p.c ∧ 1 ≤ p.vitTb ∧ p.fsm.wf = true := by
  simp only [Params.coherentWf, Bool.and_eq_true, decide_eq_true_eq, and_assoc] at h
  obtain ⟨-, hc, -, -, htb, hf, -⟩ := h
  exact ⟨hc, htb, hf⟩

/-- VIT: the load has checked the tables, and a sound decoder takes every value (R197). -/
theorem noFault_vitFire (hi : InstInv i) : NoFault (vitFire i) := by
  refine noFault_fireUnit fun x hen hcoh => ?_
  obtain ⟨-, -, -, htables⟩ := cfgCheck_eq_zero (hi.lifecycle.checked (configured_of_enabled hen))
  obtain ⟨hc, htb, hf⟩ := coherentWf_viterbi (htables hcoh)
  obtain ⟨v, out, hop, -⟩ := Trellis.vitOp_advances hi.viterbi hf hc htb x
  exact ⟨_, hop⟩

/-- The hold-back line has room below seven held bits and a written oldest bit at seven (R256). -/
theorem exists_hold_ok {g : GateRegs} (h : BitUnitsInv { i with gate := g }) (b : Bool) : ∃ r, hold g b = .ok r := by
  have hline : g.hb.length = 7 := h.hb_length
  have hcount : g.hbc ≤ 7 := h.hbc_le
  cases hopen : g.isOpen with
  | false => exact ⟨_, FrameDelimiter.hold_of_closed hopen g.age b⟩
  | true =>
    by_cases hfull : g.hbc = 7
    · obtain ⟨l, hl⟩ := exists_memRead_ok .gateHb h.hb_written (show 1 ≤ g.hbc by omega)
      refine ⟨({ g with hb := g.hb.drop 1 ++ [some b] }, l.map FT2.bit), ?_⟩
      simp only [hold, hopen, if_true, if_pos hfull, hl]
    · exact ⟨_, FrameDelimiter.hold_stores hopen (by omega) hline g.age b⟩

theorem noFault_gateFire {tok : T3} {op : ChanInst → Except Fault (GateRegs × List FT2)} (h : ∃ r, op i = .ok r) :
    NoFault (gateFire tok op i) := noFault_of_total fun _ => h

/-- FRM.BIT: a buffer that is not full has room for the bit (R283). -/
theorem exists_frmBitOp_ok (hi : BitUnitsInv i) (b : Bool) : ∃ r, frmBitOp i b = .ok r := by
  by_cases hclosed : i.frm.active = false ∨ i.frm.ovf = true
  · exact ⟨_, FrameParser.frmBitOp_drops hclosed b⟩
  · obtain ⟨hact, hovf⟩ := not_or.1 hclosed
    rw [Bool.not_eq_false] at hact
    rw [Bool.not_eq_true] at hovf
    rcases hi.flen_le.lt_or_eq with hroom | hfull
    · exact ⟨_, FrameParser.frmBitOp_stores hact hovf hroom hi.fb_length b⟩
    · exact ⟨_, FrameParser.frmBitOp_overruns hact hovf hfull b⟩

theorem noFault_frmBitFire (hi : InstInv i) (b : Bool) : NoFault (frmBitFire b i) := by
  obtain ⟨r, hr⟩ := exists_frmBitOp_ok hi.bits b
  exact noFault_of_total fun _ => ⟨(r, []), by rw [hr]; rfl⟩

/-- FRM.EOF: the bits of the frame have all been written (R359). -/
theorem exists_frmEofOp_ok (hi : BitUnitsInv i) : ∃ r, frmEofOp i = .ok r := by
  by_cases hclosed : i.frm.active = false ∨ i.frm.ovf = true
  · exact ⟨_, FrameParser.frmEofOp_ignores hclosed⟩
  · obtain ⟨hact, hovf⟩ := not_or.1 hclosed
    rw [Bool.not_eq_false] at hact
    rw [Bool.not_eq_true] at hovf
    by_cases hbad : i.frm.flen < 16 ∨ i.frm.crc ≠ crcGood
    · exact ⟨_, FrameParser.frmEofOp_rejects hact hovf hbad⟩
    · obtain ⟨h16, hcrc⟩ := not_or.1 hbad
      obtain ⟨bits, hlen, hfb⟩ := Trellis.exists_take_eq_map_some hi.fb_written
        (by rw [hi.fb_length]; exact hi.flen_le)
      exact ⟨_, FrameParser.frmEofOp_accepts hact hovf hlen.symm hfb (by omega) (not_not.1 hcrc)⟩

theorem noFault_frmEofFire (hi : InstInv i) : NoFault (frmEofFire i) :=
  noFault_of_total fun _ => exists_frmEofOp_ok hi.bits

/-! ### Units without a buffer -/

/-- CR.STEP takes every value, at a symbol instant and between two (R217). -/
theorem noFault_crFire : NoFault (crFire i) :=
  noFault_of_total fun x => by
    unfold crOp
    split <;> exact ⟨_, rfl⟩

theorem noFault_sliceFire : NoFault (sliceFire i) := by
  unfold sliceFire
  split <;> exact noFault_of_total fun _ => ⟨_, rfl⟩

theorem noFault_drainedInst : NoFault (drainedInst i) := by
  unfold drainedInst
  split <;> exact nofun

/-! ### Every operation, and one step -/

/-- In a sound receiver every operation answers a next state. -/
theorem exists_exec_next (hs : Inv s) (op : Instr) : ∃ t, exec op s = .next t := by
  have hi (c : Chan) : InstInv (s.inst c) := inv_inst hs c
  cases op
  case sysReset g => exact SystemOps.exists_takeSignal_next _ _ s
  case cfgLoad c => exact SystemOps.exists_execCfgLoad_next c s
  case sysStart g => exact SystemOps.exists_takeSignal_next _ _ s
  case sysStop g => exact SystemOps.exists_takeSignal_next _ _ s
  case srcSample c => exact SystemOps.exists_execSrcSample_next c s
  case srcEos g => exact SystemOps.exists_takeSignal_next _ _ s
  case sysDrained c => exact exists_onInst_next noFault_drainedInst
  case qPop => exact SystemOps.exists_execQPop_next s
  case qEmpty => exact SystemOps.exists_execQEmpty_next s
  case outPush c => exact ⟨_, Scope.exec_outPush c s⟩
  case csStep c => exact exists_onInst_next (noFault_csFire (hi c))
  case vitStep c => exact exists_onInst_next (noFault_vitFire (hi c))
  case crStep c => exact exists_onInst_next noFault_crFire
  case sliceStep c => exact exists_onInst_next noFault_sliceFire
  case gateData c b =>
    exact exists_onInst_next (noFault_gateFire (exists_hold_ok (bitUnitsInv_setAge (hi c).bits (ageNext_le _ _)) b))
  case gatePre c b =>
    exact exists_onInst_next (noFault_gateFire (exists_hold_ok (bitUnitsInv_setAge (hi c).bits (Nat.zero_le _)) b))
  case frmBit c b => exact exists_onInst_next (noFault_frmBitFire (hi c) b)
  case frmEof c => exact exists_onInst_next (noFault_frmEofFire (hi c))
  -- The other operations are `.ok` on every token.
  all_goals exact exists_onInst_next (noFault_of_total fun _ => ⟨_, rfl⟩)

/-- Settles O37: the agent has no word at its trigger, or one that decodes to an operation (O3's theorem), which answers
a next state in the sound receiver that `nextTurn` leaves. -/
theorem soundReceiverStepsSafely : Obligations.SoundReceiverStepsSafely := by
  intro s hs
  show ∃ t, runTurn (nextTurn s).1 (nextTurn s).2 = .next t
  cases hf : fetch (nextTurn s).1 (nextTurn s).2 with
  | none => exact ⟨_, Scope.runTurn_of_no_word hf⟩
  | some w =>
    obtain ⟨op, hdec, -⟩ := Scope.agentFetchesItsOwnOperation _ _ _ hf
    rw [Scope.runTurn_of_decode hf hdec]
    exact exists_exec_next (inv_nextTurn hs) op

end Sys2Proof.Proofs.Invariant
end
